-- ==== Sys2Proof/Word.lean ====
section
/-! DEFINITION. The word types of the AFKS core (00_scope.md R7, 10_state.md R13): what the spec itself treats as bits. -/

namespace Sys2Proof

/-- One slot of either memory, and the operand field of a command: a `u16` (R17, R21, R50). -/
abbrev Slot := BitVec 16

/-- A command word, a response word, the accumulator: 32 bits (R29, R32, R49). -/
abbrev Word := BitVec 32

/-- A binary32 pattern (42_measurement.md R82). -/
abbrev F32 := BitVec 32

/-- One conversion result: the converter is 12 bits wide (40_acquisition.md R65, U17). -/
abbrev Sample := BitVec 12

/-- One byte of a harness's serialisation of a command word (20_memory.md R42). -/
abbrev Byte := BitVec 8

end Sys2Proof
end

