-- ==== Sys2Proof/Syntax.lean ====
section
/-! DEFINITION. The nine commands: one constructor per row of 30_encoding.md R53 and of spec/opcode_table.json. -/

namespace Sys2Proof

/-- A command. The operand of `RDAVG` is an unsigned channel number, that of `SETD` a two's-complement duty request
(30_encoding.md R51, R52); both fill the 16-bit immediate field. -/
inductive Instr where
  /-- `INIT` (R63). -/
  | init
  /-- `RDAVG ch` (R66). -/
  | rdavg (ch : Slot)
  /-- `PHAVG` (R77). -/
  | phavg
  /-- `VOLT` (R89). -/
  | volt
  /-- `CURR` (R90). -/
  | curr
  /-- `POWR` (R91). -/
  | powr
  /-- `PHMS` (R92). -/
  | phms
  /-- `SETD d` (R98). -/
  | setd (d : Slot)
  /-- `ADJI` (R100). -/
  | adji
  deriving DecidableEq, Repr

end Sys2Proof
end

