-- ==== Sys2Proof/Decode.lean ====
section
/-! DEFINITION. The decoder and the encoder of 30_encoding.md R49 to R60, with the numbering spec/opcode_table.json gives.
The channel range (cause 3) and the repeated INIT (cause 4) depend on the configuration and the state and are checked
where the command is issued (assumption 23). -/

namespace Sys2Proof

/-- Why a word is no command, in the words of 60_exceptions.md R107. -/
inductive DecodeError where
  /-- Cause 1: `OPC` is 0 or 10 to 15 (R55). -/
  | reservedOpcode
  /-- Cause 2: `RSV` is not 0, or `IMM` is not 0 in a format-Z command (R56). -/
  | reservedField
  deriving DecidableEq, Repr

/-- What the decoder answers on a word. -/
inductive Decoded where
  /-- The command the word encodes. -/
  | command (i : Instr)
  /-- The word is no command. -/
  | illegal (e : DecodeError)
  deriving DecidableEq, Repr

/-- `OPC`, bits 31:28 (R50). -/
def opcField (w : Word) : BitVec 4 := w.extractLsb' 28 4

/-- `RSV`, bits 27:16 (R50). -/
def rsvField (w : Word) : BitVec 12 := w.extractLsb' 16 12

/-- `IMM`, bits 15:0 (R50). -/
def immField (w : Word) : Slot := w.extractLsb' 0 16

/-- The command of an opcode (R53), its operand taken from the immediate; none for the reserved opcodes 0 and 10 to 15
(R55). The registers OP and IMM hold the command in flight in the same form (10_state.md R28). -/
def instrOfFields (opc : BitVec 4) (imm : Slot) : Option Instr :=
  match opc.toNat with
  | 1 => some .init
  | 2 => some (.rdavg imm)
  | 3 => some .phavg
  | 4 => some .volt
  | 5 => some .curr
  | 6 => some .powr
  | 7 => some .phms
  | 8 => some (.setd imm)
  | 9 => some .adji
  | _ => none

/-- Format Z: the immediate must be 0 (R51). -/
def formatZ : Instr → Bool
  | .init => true
  | .rdavg _ => false
  | .phavg => true
  | .volt => true
  | .curr => true
  | .powr => true
  | .phms => true
  | .setd _ => false
  | .adji => true

/-- Decode a command word: the checks of R54 that depend on the word alone, in the order R54 writes them. -/
def decode (w : Word) : Decoded :=
  match instrOfFields (opcField w) (immField w) with
  | none => .illegal .reservedOpcode
  | some i =>
    if rsvField w ≠ 0#12 then .illegal .reservedField
    else if formatZ i && decide (immField w ≠ 0#16) then .illegal .reservedField
    else .command i

/-- What the decoder answers on bytes. -/
inductive DecodedBytes where
  /-- A command, and the bytes after it. -/
  | command (i : Instr) (rest : List Byte)
  /-- Four bytes that are no command. -/
  | illegal (e : DecodeError)
  /-- Fewer than four bytes: no word was presented. -/
  | truncated
  deriving DecidableEq, Repr

/-- Decode a harness's byte stream: little-endian words (20_memory.md R42, D17). -/
def decodeBytes : List Byte → DecodedBytes
  | b0 :: b1 :: b2 :: b3 :: rest =>
    match decode (b3 ++ b2 ++ b1 ++ b0) with
    | .command i => .command i rest
    | .illegal e => .illegal e
  | _ => .truncated

/-- The little-endian bytes of a word (R42). -/
def bytesOfWord (w : Word) : List Byte :=
  [w.extractLsb' 0 8, w.extractLsb' 8 8, w.extractLsb' 16 8, w.extractLsb' 24 8]

/-- The opcode of a command (R53). -/
def opcodeOf : Instr → BitVec 4
  | .init => 1#4
  | .rdavg _ => 2#4
  | .phavg => 3#4
  | .volt => 4#4
  | .curr => 5#4
  | .powr => 6#4
  | .phms => 7#4
  | .setd _ => 8#4
  | .adji => 9#4

/-- The immediate of a command: 0 in format Z (R51). -/
def immOf : Instr → Slot
  | .init => 0#16
  | .rdavg ch => ch
  | .phavg => 0#16
  | .volt => 0#16
  | .curr => 0#16
  | .powr => 0#16
  | .phms => 0#16
  | .setd d => d
  | .adji => 0#16

/-- Encode a command: `OPC`, `RSV = 0`, `IMM` (R50, R53). -/
def encode (i : Instr) : Word := opcodeOf i ++ (0#12 ++ immOf i)

/-- The assembler text of a command (R59, R60): the mnemonic, then the operand in decimal, signed for `SETD`. -/
def Instr.text : Instr → String
  | .init => "INIT"
  | .rdavg ch => "RDAVG " ++ toString ch.toNat
  | .phavg => "PHAVG"
  | .volt => "VOLT"
  | .curr => "CURR"
  | .powr => "POWR"
  | .phms => "PHMS"
  | .setd d => "SETD " ++ toString d.toInt
  | .adji => "ADJI"

/-- The host's question: the command the decoder reads from a word given as a number. Every row of the table is 32 bits;
the bits above `nbits` are 0. -/
def decodeTableWord (nbits w : Nat) : Option Instr :=
  match decodeBytes (bytesOfWord (BitVec.ofNat 32 (w % 2 ^ nbits))) with
  | .command i _ => some i
  | .illegal _ => none
  | .truncated => none

end Sys2Proof
end

