-- ==== Sys2Proof/Config.lean ====
section
/-! DEFINITION. The build-time parameters of 00_scope.md R5, the reference configuration REFCFG, and the free values of
the two memories after reset (10_state.md R17, R21, R36; D16). -/

namespace Sys2Proof

/-- The configuration record of R5: fixed for a run, never written by any rule. `L`, `KV` and `KI` are derived from it
(Machine/Params.lean). -/
structure Config where
  /-- `CHANNELS`. -/
  channels : Nat
  /-- `SPC`, samples per channel. -/
  spc : Nat
  /-- `N`, the history length. -/
  n : Nat
  /-- `VOLTAGE_CHANNEL`. -/
  voltageChannel : Nat
  /-- `CURRENT_CHANNEL`. -/
  currentChannel : Nat
  /-- `ADC_BITS`; R6 admits 12 only. -/
  adcBits : Nat
  /-- `SAMPLE_W`; R6 admits 16 only. -/
  sampleW : Nat
  /-- `TW`; R6 admits 16 only. -/
  tw : Nat
  /-- `ACC_W`; R6 admits 32 only. -/
  accW : Nat
  /-- `ADC_FULL_SCALE_COUNT`. -/
  adcFullScaleCount : F32
  /-- `FULL_SCALE_VOLTAGE`. -/
  fullScaleVoltage : F32
  /-- `FULL_SCALE_CURRENT`. -/
  fullScaleCurrent : F32
  /-- `MS_CONVERSION_FACTOR`, ticks per millisecond. -/
  msConversionFactor : F32
  /-- `CURRENT_MIN`. -/
  currentMin : F32
  /-- `CURRENT_MAX`. -/
  currentMax : F32
  /-- `RESET_SB`, slot 0 first: one value per slot of SB. -/
  resetSB : List Slot
  /-- `RESET_PH`, slot 0 first: one value per slot of PH. -/
  resetPH : List Slot
  deriving DecidableEq, Repr

/-- Free value: the content of SB slot `i` after reset (D16, U5: any `u16`; assumption 5). -/
opaque Config.freeSB : Nat → Slot

/-- Free value: the content of PH slot `i` after reset (D16, U5: any `u16`; assumption 5). -/
opaque Config.freePH : Nat → Slot

/-- REFCFG, the reference configuration of R5, with the memories' reset contents left free. -/
def Config.refcfg : Config where
  channels := 2
  spc := 4
  n := 10
  voltageChannel := 0
  currentChannel := 1
  adcBits := 12
  sampleW := 16
  tw := 16
  accW := 32
  adcFullScaleCount := 0x45800000#32
  fullScaleVoltage := 0x43660000#32
  fullScaleCurrent := 0x41200000#32
  msConversionFactor := 0x41200000#32
  currentMin := 0x40E00000#32
  currentMax := 0x41200000#32
  resetSB := (List.range 8).map Config.freeSB
  resetPH := (List.range 10).map Config.freePH

end Sys2Proof
end

