-- ==== Sys2Proof/Machine/Float.lean ====
section
/-! DEFINITION. The binary32 operations of 42_measurement.md R82 to R86: every finite value is a whole number of
units of 2^-149, each operation is computed exactly on those numbers and narrowed once, to nearest, ties to even. -/

namespace Sys2Proof.Machine

/-- The pattern of positive infinity: exponent 255, fraction 0 (R82). -/
def f32InfMag : Nat := 0x7F800000

/-- The canonical quiet NaN (R82). -/
def f32QNaN : F32 := 0x7FC00000#32

/-- Bits 30:0, exponent and fraction together (R82). -/
def f32Mag (a : F32) : Nat := a.toNat % 2 ^ 31

/-- Bit 31 (R82). -/
def f32Sign (a : F32) : Bool := a.msb

/-- A pattern from its sign and its bits 30:0 (R82). -/
def f32Pack (sign : Bool) (mag : Nat) : F32 := BitVec.ofNat 32 (mag + if sign then 2 ^ 31 else 0)

/-- Exponent 255 and a non-zero fraction (R82). -/
def f32IsNaN (a : F32) : Bool := f32InfMag < f32Mag a

/-- Exponent 255 and fraction 0 (R82). -/
def f32IsInf (a : F32) : Bool := f32Mag a = f32InfMag

/-- Exponent below 255 (R82). -/
def f32Finite (a : F32) : Bool := f32Mag a < f32InfMag

/-- The magnitude of bits 30:0 in units of 2^-149: exponent field 0 is zero or subnormal, any other has the leading one.
For the infinity pattern it is 2^128, which orders it above every finite value (R82). -/
def magUnits (mag : Nat) : Nat :=
  if mag / 2 ^ 23 = 0 then mag % 2 ^ 23 else (2 ^ 23 + mag % 2 ^ 23) * 2 ^ (mag / 2 ^ 23 - 1)

/-- The magnitude of `a` in units of 2^-149. -/
def f32Units (a : F32) : Nat := magUnits (f32Mag a)

/-- The value of `a` in units of 2^-149, with its sign; both zeros are 0. -/
def f32Int (a : F32) : Int := if f32Sign a then -(f32Units a : Int) else (f32Units a : Int)

/-- The whole number nearest to `n / d`, ties to even. -/
def nearestEven (n d : Nat) : Nat :=
  if 2 * (n % d) < d then n / d
  else if 2 * (n % d) = d then n / d + (n / d) % 2
  else n / d + 1

/-- How many places the last kept bit of a value of `t` whole units stands above one unit: 24 significant bits are kept. -/
def roundShift (t : Nat) : Nat := t.log2 - 23

/-- Bits 30:0 of the binary32 value nearest to `n / d` units of 2^-149, ties to even significand (R82).
A carry out of the 24 kept bits moves into the exponent field by itself; past the largest finite value it is infinity. -/
def roundUnits (n d : Nat) : Nat :=
  let k := roundShift (n / d)
  min (k * 2 ^ 23 + nearestEven n (d * 2 ^ k)) f32InfMag

/-- `f32_of_u32(n)` (R83), for `0 <= n < 2^32`. -/
def f32OfU32 (n : Nat) : F32 := f32Pack false (roundUnits (n * 2 ^ 149) 1)

/-- `f32_mul(a, b)` (R84, R82). The NaN and infinity cases are IEEE's and unreachable under an admitted configuration
(R96; assumption 13). -/
def f32Mul (a b : F32) : F32 :=
  let sign := f32Sign a ^^ f32Sign b
  if f32IsNaN a || f32IsNaN b then f32QNaN
  else if f32IsInf a || f32IsInf b then
    if f32Units a = 0 || f32Units b = 0 then f32QNaN else f32Pack sign f32InfMag
  else f32Pack sign (roundUnits (f32Units a * f32Units b) (2 ^ 149))

/-- `f32_div(a, b)` (R84, R82). R84 applies it only with `b` finite and greater than zero; the other cases are IEEE's
(assumption 13). -/
def f32Div (a b : F32) : F32 :=
  let sign := f32Sign a ^^ f32Sign b
  if f32IsNaN a || f32IsNaN b then f32QNaN
  else if f32IsInf a then
    if f32IsInf b then f32QNaN else f32Pack sign f32InfMag
  else if f32IsInf b then f32Pack sign 0
  else if f32Units b = 0 then
    if f32Units a = 0 then f32QNaN else f32Pack sign f32InfMag
  else f32Pack sign (roundUnits (f32Units a * 2 ^ 149) (f32Units b))

/-- `f32_sub(a, b)` (R84, R82). R84 applies it only with `a >= b`; the other cases are IEEE's (assumption 13).
An exact zero is +0, but for (-0) - (+0). -/
def f32Sub (a b : F32) : F32 :=
  if f32IsNaN a || f32IsNaN b then f32QNaN
  else if f32IsInf a then
    if f32IsInf b && (f32Sign a == f32Sign b) then f32QNaN else f32Pack (f32Sign a) f32InfMag
  else if f32IsInf b then f32Pack (!f32Sign b) f32InfMag
  else
    let d := f32Int a - f32Int b
    if d = 0 then f32Pack (f32Sign a && !f32Sign b) 0
    else f32Pack (d < 0) (roundUnits d.natAbs 1)

/-- `f32_lt(a, b)`: ordered, -0 equals +0, false if either is NaN (R85). -/
def f32Lt (a b : F32) : Bool := !f32IsNaN a && !f32IsNaN b && decide (f32Int a < f32Int b)

/-- `f32_gt(a, b)` (R85). -/
def f32Gt (a b : F32) : Bool := f32Lt b a

/-- `a <= b`, ordered: used only to say which configurations are admitted (00_scope.md R6). -/
def f32Le (a b : F32) : Bool := !f32IsNaN a && !f32IsNaN b && decide (f32Int a ≤ f32Int b)

/-- `trunc_i32(a)`: the fractional part discarded, toward zero; no value for a NaN, an infinity or a magnitude of 2^31
or more, which R86 leaves undefined. -/
def truncI32 (a : F32) : Option Int :=
  let m : Nat := f32Units a / 2 ^ 149
  if f32IsNaN a || f32IsInf a || decide (2 ^ 31 ≤ m) then none
  else some (if f32Sign a then -(m : Int) else (m : Int))

end Sys2Proof.Machine
end

