-- ==== Sys2Proof/Machine/Params.lean ====
section
/-! DEFINITION. What 00_scope.md R5 derives from the configuration, and which configurations R6 admits. -/

namespace Sys2Proof.Machine

/-- `L = CHANNELS * SPC`, the length of SB (R5, R17). -/
def bufLen (c : Config) : Nat := c.channels * c.spc

/-- `KV`, one rounded division at build time (R5, R87). -/
def kv (c : Config) : F32 := f32Div c.fullScaleVoltage c.adcFullScaleCount

/-- `KI`, one rounded division at build time (R5, R87). -/
def ki (c : Config) : F32 := f32Div c.fullScaleCurrent c.adcFullScaleCount

/-- `DUTY_MAX`, not a parameter (R5). -/
def dutyMax : Nat := 1000

/-- 2^-32 as binary32: the lower bound R6 sets on the scale factors. -/
def scaleMin : F32 := 0x2F800000#32

/-- 2^32 as binary32: the upper bound R6 sets on the scale factors. -/
def scaleMax : F32 := 0x4F800000#32

/-- "finite and greater than zero" (R6). -/
def finitePos (a : F32) : Bool := f32Finite a && f32Lt 0#32 a

/-- "2^-32 <= a <= 2^32" (R6). -/
def scaleOk (a : F32) : Bool := f32Le scaleMin a && f32Le a scaleMax

/-- The sizes and indices of R6. -/
def sizesOk (c : Config) : Bool :=
  decide (1 ≤ c.channels) && decide (1 ≤ c.spc) && decide (1 ≤ c.n)
    && decide (bufLen c ≤ 65536) && decide (c.n ≤ 65536)
    && decide (c.voltageChannel < c.channels) && decide (c.currentChannel < c.channels)

/-- The widths of R6, and "samplesPerChannel x max-code must fit". -/
def widthsOk (c : Config) : Bool :=
  decide (c.adcBits = 12) && decide (c.sampleW = 16) && decide (c.tw = 16) && decide (c.accW = 32)
    && decide (c.spc * (2 ^ c.sampleW - 1) < 2 ^ c.accW) && decide (c.n * (2 ^ c.tw - 1) < 2 ^ c.accW)

/-- The binary32 constants of R6. -/
def constantsOk (c : Config) : Bool :=
  finitePos c.adcFullScaleCount && finitePos c.fullScaleVoltage && finitePos c.fullScaleCurrent
    && finitePos c.msConversionFactor && finitePos c.currentMin && finitePos c.currentMax
    && f32Lt c.currentMin c.currentMax
    && scaleOk (kv c) && scaleOk (ki c) && scaleOk c.msConversionFactor

/-- RESET_SB and RESET_PH give one value per slot (R5, R36; assumption 19). -/
def resetContentsOk (c : Config) : Bool :=
  decide (c.resetSB.length = bufLen c) && decide (c.resetPH.length = c.n)

/-- A configuration is admitted only if all of R6 holds; a model refuses any other (R6, U9). -/
def admitted (c : Config) : Bool := sizesOk c && widthsOk c && constantsOk c && resetContentsOk c

end Sys2Proof.Machine
end

