-- ==== Sys2Proof/Machine/Slots.lean ====
section
/-! DEFINITION. The two slot-indexed memories of 20_memory.md R37: their form and the whole-slot accesses of R39 to R41. -/

namespace Sys2Proof.Machine

/-- A memory of `n` slots: one (index, value) pair for each index 0 to n-1, in rising order. An index that is not listed
is a slot the hardware does not have (assumption 7). -/
abbrev Memory := List (Nat × Slot)

/-- The canonical form of a memory of `n` slots: the listed indices are exactly 0, 1, ..., n-1 in this order, so equal
memories are equal lists. -/
def Memory.wf (n : Nat) (m : Memory) : Bool := decide (m.map Prod.fst = List.range n)

/-- `MemRead(m, i, 1)` (R39): the value of slot `i`, none if there is no such slot. It changes nothing (R41). -/
def Memory.read (m : Memory) (i : Nat) : Option Slot := m.lookup i

/-- `MemWrite(m, i, 1, v)` (R40): slot `i` takes the value `v`, whole. -/
def Memory.write (m : Memory) (i : Nat) (v : Slot) : Memory :=
  m.map fun c => if c.1 = i then (i, v) else c

/-- The memory whose slots hold the listed values, slot 0 first. -/
def Memory.ofValues (vs : List Slot) : Memory := (List.range vs.length).zip vs

end Sys2Proof.Machine
end

