-- ==== Sys2Proof/Machine/State.lean ====
section
/-! DEFINITION. The state of the block: every item of 10_state.md R13, the edge detectors of R33, the configuration, and
the model's two own fields (the environment's offers and the responses presented). -/

namespace Sys2Proof.Machine

/-- `INITST` (R19). Code 3 is never taken and cannot be written down here (assumption 16). -/
inductive InitSt where
  /-- Code 0: INIT not yet issued. -/
  | uninit
  /-- Code 1: INIT issued, waiting for the ready flag. -/
  | calibrating
  /-- Code 2: conversions run. -/
  | running
  deriving DecidableEq, Repr

/-- `STAGE` (R30). Codes 5 to 7 are never taken and cannot be written down here (assumption 16). -/
inductive Stage where
  /-- Code 0: no command in flight. -/
  | idle
  /-- Code 1: first or only summation loop. -/
  | sum1
  /-- Code 2: second summation loop, `POWR` only. -/
  | sum2
  /-- Code 3: `INIT` waiting for `CAL_RDY`. -/
  | waitcal
  /-- Code 4: compute the result, write the outputs, complete. -/
  | fin
  deriving DecidableEq, Repr

/-- A response presented to the host (R32): an output, kept in the history. -/
structure Response where
  /-- `rsp_err`. -/
  err : Bool
  /-- `rsp_data`. -/
  data : Word
  deriving DecidableEq, Repr

/-- The input pins of one clock (R33). -/
structure Pins where
  /-- `rst`. -/
  rst : Bool
  /-- `cmd_valid`. -/
  cmdValid : Bool
  /-- `cmd[31:0]`. -/
  cmd : Word
  /-- `cal_rdy_in`. -/
  calRdyIn : Bool
  /-- `adc_valid`. -/
  adcValid : Bool
  /-- `adc_data[11:0]`. -/
  adcData : Sample
  /-- `ref_in`. -/
  refIn : Bool
  /-- `dly_in`. -/
  dlyIn : Bool
  /-- `tick`. -/
  tick : Bool
  deriving DecidableEq, Repr

/-- What the environment offers next: one agent step of R14, a reset (R123), or all pins of one clock (R112, R137).
An offer that is not enabled has no effect (assumption 2). -/
inductive Offer where
  /-- HOST presents a command word. -/
  | issue (w : Word)
  /-- SEQ takes its step. -/
  | seq
  /-- CAL: calibration is done. -/
  | calDone
  /-- DMA: one conversion result. -/
  | conv (v : Sample)
  /-- REF: a reference edge. -/
  | refEdge
  /-- DLY: a delayed edge. -/
  | dlyEdge
  /-- TMR: one timer tick. -/
  | tick
  /-- Reset. -/
  | rst
  /-- One clock with these pins; `seqGo` says whether the sequencer takes its step in it (U19). -/
  | clock (p : Pins) (seqGo : Bool)
  deriving DecidableEq, Repr

/-- Why the model stops. None of these is a fault of the hardware; a reachable state meets none of them. -/
inductive Fault where
  /-- Raised by a sum, by `Conv` and by `DlyEdge` when the index names no slot (R38: it never does). Safe. -/
  | noSuchSlot
  /-- Raised by a command in a stage that is not in its row of R30. Safe. -/
  | stageNotOfCommand
  /-- Raised by the sequencer when it is busy and OP is a reserved opcode. Safe. -/
  | noCommandInFlight
  deriving DecidableEq, Repr

/-- What the model gives no meaning. -/
inductive Refusal where
  /-- Raised by `exec` for an instruction without a meaning: none is left. Safe. -/
  | notModelled (mnemonic : String)
  /-- Raised by the step when the configuration is not admitted (R6, U9). Safe. -/
  | configNotAdmitted
  /-- Raised by `ADJI` when the ramp value is outside the domain of trunc_i32 (R86): unreachable under an admitted
  configuration (R101). Safe. -/
  | truncUndefined
  deriving DecidableEq, Repr

/-- The state. Field by field, in the order of R13; then R33's flip-flops; then the configuration (assumption 3) and the
model's own fields (assumptions 1 and 14). -/
structure State where
  /-- `SB` (R17). -/
  sb : Memory
  /-- `WP` (R18). -/
  wp : BitVec 16
  /-- `INITST` (R19). -/
  initst : InitSt
  /-- `CAL_RDY` (R20). -/
  calRdy : Bool
  /-- `PH` (R21). -/
  ph : Memory
  /-- `PCUR` (R22). -/
  pcur : BitVec 16
  /-- `TCNT` (R23). -/
  tcnt : BitVec 16
  /-- `TEN` (R24): false is Idle, true is Timing. -/
  ten : Bool
  /-- `CCR` (R25). -/
  ccr : BitVec 10
  /-- `RESULT` (R26). -/
  result : Word
  /-- `FAULT` (R27). -/
  fault : Bool
  /-- `FCAUSE` (R27). -/
  fcause : BitVec 3
  /-- `OP` (R28). -/
  op : BitVec 4
  /-- `IMM` (R28). -/
  imm : BitVec 16
  /-- `ACC` (R29). -/
  acc : Word
  /-- `IDX` (R29). -/
  idx : BitVec 16
  /-- `STAGE` (R30). -/
  stage : Stage
  /-- `FT0` (R31). -/
  ft0 : F32
  /-- The previous clock's `ref_in` (R33). -/
  refPrev : Bool
  /-- The previous clock's `dly_in` (R33). -/
  dlyPrev : Bool
  /-- The configuration: not state (R13), carried here and written by no step. -/
  cfg : Config
  /-- The responses presented so far, newest first (R32). -/
  history : List Response
  /-- What the environment offers next, in order (R14, R15). -/
  offers : List Offer
  deriving DecidableEq, Repr

/-- The state after reset under a configuration (R36, R123): nothing presented yet and nothing offered. -/
def State.resetOf (c : Config) : State where
  sb := Memory.ofValues c.resetSB
  wp := 0#16
  initst := .uninit
  calRdy := false
  ph := Memory.ofValues c.resetPH
  pcur := 0#16
  tcnt := 0#16
  ten := false
  ccr := 0#10
  result := 0#32
  fault := false
  fcause := 0#3
  op := 0#4
  imm := 0#16
  acc := 0#32
  idx := 0#16
  stage := .idle
  ft0 := 0#32
  refPrev := true
  dlyPrev := true
  cfg := c
  history := []
  offers := []

/-- The machine right after reset, in REFCFG with the memories' contents free (R36; assumptions 4 and 5). -/
def State.reset : State := State.resetOf Config.refcfg

end Sys2Proof.Machine
end

