-- ==== Sys2Proof/Machine/Ops.lean ====
section
/-! DEFINITION. The named operations the meanings share: the outcome of a step, taking the fault IllegalCommand,
issuing and completing a command, the summation step, reset. -/

namespace Sys2Proof.Machine

/-- What one step of the block answers. -/
abbrev Result := Host.Outcome State Fault Refusal

/-- One step after another: the second sees the state the first left (60_exceptions.md R112). -/
def andThen (r : Result) (f : State → Result) : Result :=
  match r with
  | .next s => f s
  | .fault e => .fault e
  | .refused e => .refused e

/-- Cause code 1, ReservedOpcode (60_exceptions.md R107). -/
def causeReservedOpcode : BitVec 3 := 1#3

/-- Cause code 2, ReservedField (R107). -/
def causeReservedField : BitVec 3 := 2#3

/-- Cause code 3, ChannelRange (R107). -/
def causeChannelRange : BitVec 3 := 3#3

/-- Cause code 4, InitRepeated (R107). -/
def causeInitRepeated : BitVec 3 := 4#3

/-- `raise IllegalCommand(cause)` (60_exceptions.md R106): the one synchronous fault of the hardware. It keeps the first
cause since reset, sets the sticky flag, presents the response (1, 0) and changes nothing else; there is no handler, no
saved register and no return (R113, R114). -/
def raiseIllegal (cause : BitVec 3) (s : State) : State :=
  { s with
    fcause := if s.fault then s.fcause else cause
    fault := true
    history := ⟨true, 0#32⟩ :: s.history }

/-- The last lines of `Issue` (30_encoding.md R54) for a legal command: latch it and enter its first stage. -/
def issue (opc : BitVec 4) (imm : BitVec 16) (first : Stage) (s : State) : State :=
  { s with op := opc, imm := imm, acc := 0#32, idx := 0#16, stage := first }

/-- `Complete(v)` (10_state.md R32): the response is (0, v). -/
def complete (v : Word) (s : State) : State :=
  { s with result := v, stage := .idle, history := ⟨false, v⟩ :: s.history }

/-- `SumStep` (40_acquisition.md R62): add the slot read to ACC and advance IDX; after the last of `len` slots, IDX is 0
and `last` says what becomes of the sum and which stage follows. -/
def sumStep (e : Option Slot) (len : Nat) (last : Word → State → State) (s : State) : Result :=
  match e with
  | none => .fault .noSuchSlot
  | some v =>
    let acc := s.acc + v.zeroExtend 32
    if s.idx.toNat + 1 < len then .next { s with acc := acc, idx := s.idx + 1#16 }
    else .next (last acc { s with idx := 0#16 })

/-- The end of a sum whose result FIN uses: `ACC <- acc; STAGE <- FIN` (R62). -/
def toFin (acc : Word) (s : State) : State := { s with acc := acc, stage := .fin }

/-- `Avg(s, n)` (42_measurement.md R88): both converted, then one floating-point division. DESIGN CHOICE, unsafe: for sums
of 2^24 or more the conversion may round, so that the value lies one rounding outside the ranges that R45, R68, R88 and
R96 give; the formula is followed (assumption 24). -/
def avg (sum : Word) (n : Nat) : F32 := f32Div (f32OfU32 sum.toNat) (f32OfU32 n)

/-- Reset (70_reset_and_hazards.md R123): every item of state takes its reset value, and the flip-flops take 1. The
configuration stays; the responses already presented and the offers are not the block's to reset (assumption 14). -/
def resetBlock (s : State) : State :=
  { State.resetOf s.cfg with history := s.history, offers := s.offers }

/-- A command word, given as a number, is the next thing the host presents, to an idle block: the one place where the
machine takes its next instruction from (10_state.md R14; assumption 10). -/
def placeWord (nbits w : Nat) (s : State) : State :=
  { s with stage := .idle, offers := .issue (BitVec.ofNat 32 (w % 2 ^ nbits)) :: s.offers }

end Sys2Proof.Machine
end

