-- ==== Sys2Proof/Machine/Flags.lean ====
section
/-! DEFINITION. The flags and status views. The block has no condition codes (10_state.md R34): its flags are FAULT,
CAL_RDY and TEN, the enabling conditions of R14, and the output ports of R33. -/

namespace Sys2Proof.Machine

/-- `CalDone` is enabled (R14, R64). -/
def calDoneEnabled (s : State) : Bool := decide (s.initst = .calibrating) && !s.calRdy

/-- `Conv` is enabled (R14, R65). -/
def convEnabled (s : State) : Bool := decide (s.initst = .running)

/-- `Tick` is enabled (R14, R74). -/
def tickEnabled (s : State) : Bool := s.ten

/-- `Issue` is enabled (R14, R54): port `cmd_ready`. -/
def cmdReady (s : State) : Bool := decide (s.stage = .idle)

/-- A step of SEQ is enabled (R14): it is not while INIT is held (R108). -/
def seqEnabled (s : State) : Bool :=
  decide (s.stage ≠ .idle) && (decide (s.stage ≠ .waitcal) || s.calRdy)

/-- Port `busy` (R30, R33). -/
def busyPort (s : State) : Bool := decide (s.stage ≠ .idle)

/-- Port `fault` (R27, R33). -/
def faultPort (s : State) : Bool := s.fault

/-- Port `cal_start` (R19, R33). -/
def calStartPort (s : State) : Bool := decide (s.initst = .calibrating)

/-- Port `acq_run` (R19, R33). -/
def acqRunPort (s : State) : Bool := decide (s.initst = .running)

/-- Port `tmr_en` (R24, R33). -/
def tmrEnPort (s : State) : Bool := s.ten

/-- Port `pwm_cmp[9:0]` (R25, R33). -/
def pwmCmpPort (s : State) : BitVec 10 := s.ccr

/-- Ports `rsp_valid`, `rsp_err`, `rsp_data` in the step from `s` to `t`: the response that step presented, if it
presented one (R32, R33). -/
def rspPort (s t : State) : Option Response :=
  if s.history.length < t.history.length then t.history.head? else none

/-- The 2-bit code of INITST (R19). -/
def initCode : InitSt → BitVec 2
  | .uninit => 0#2
  | .calibrating => 1#2
  | .running => 2#2

/-- The 3-bit code of STAGE (R30). -/
def stageCode : Stage → BitVec 3
  | .idle => 0#3
  | .sum1 => 1#3
  | .sum2 => 2#3
  | .waitcal => 3#3
  | .fin => 4#3

end Sys2Proof.Machine
end

