-- ==== Sys2Proof/Machine/Operands.lean ====
section
/-! DEFINITION. The operand forms of 30_encoding.md R52 and the two slot operands of 40_acquisition.md R62. -/

namespace Sys2Proof.Machine

/-- Format C: `ch = zext_32(IMM)` (R52). -/
def chOperand (imm : BitVec 16) : Nat := imm.toNat

/-- Format D: `d = sext_32(IMM)`, -32768 to 32767 (R52). -/
def dutyOperand (imm : BitVec 16) : Int := imm.toInt

/-- `index = channel + i * channel_count` (20_memory.md R38). -/
def sbIndex (c : Config) (ch i : Nat) : Nat := ch + i * c.channels

/-- The slot a sum over channel `ch` reads next (R62). -/
def channelSlot (ch : Nat) (s : State) : Option Slot := s.sb.read (sbIndex s.cfg ch s.idx.toNat)

/-- The slot a sum over the delay history reads next (R62). -/
def delaySlot (s : State) : Option Slot := s.ph.read s.idx.toNat

end Sys2Proof.Machine
end

