-- ==== Sys2Proof/Machine/Acquisition.lean ====
section
/-! DEFINITION. The Sample Buffer unit (40_acquisition.md): the commands INIT and RDAVG, the events CalDone and Conv.
A command's meaning is its next atomic step: `Issue` when the block is idle, the sequencer's step in every other stage
(assumption 8). -/

namespace Sys2Proof.Machine

/-- `INIT` (R63, R54): issue, or cause 4 if it has been issued before; held in WAITCAL while `CAL_RDY` is 0 (R108). -/
def execInit (s : State) : Result :=
  match s.stage with
  | .idle =>
    if s.initst = .uninit then .next { issue 1#4 0#16 .waitcal s with initst := .calibrating }
    else .next (raiseIllegal causeInitRepeated s)
  | .waitcal => if s.calRdy then .next { s with initst := .running, stage := .fin } else .next s
  | .fin => .next (complete 0#32 s)
  | .sum1 => .fault .stageNotOfCommand
  | .sum2 => .fault .stageNotOfCommand

/-- `RDAVG ch` (R66, R57): issue, or cause 3 if the channel is not configured; the sum over channel IMM; the average. -/
def execRdavg (ch : Slot) (s : State) : Result :=
  match s.stage with
  | .idle =>
    if chOperand ch < s.cfg.channels then .next (issue 2#4 ch .sum1 s)
    else .next (raiseIllegal causeChannelRange s)
  | .sum1 => sumStep (channelSlot (chOperand s.imm) s) s.cfg.spc toFin s
  | .fin => .next (complete (avg s.acc s.cfg.spc) s)
  | .sum2 => .fault .stageNotOfCommand
  | .waitcal => .fault .stageNotOfCommand

/-- Event `CalDone` (R64); no effect where it is not enabled. -/
def calDone (s : State) : State := if calDoneEnabled s then { s with calRdy := true } else s

/-- Event `Conv(v)` (R65): the result goes to the next slot and the cursor wraps; ignored where it is not enabled. -/
def conv (v : Sample) (s : State) : Result :=
  if convEnabled s then
    match s.sb.read s.wp.toNat with
    | none => .fault .noSuchSlot
    | some _ => .next
        { s with
          sb := s.sb.write s.wp.toNat (v.zeroExtend 16)
          wp := BitVec.ofNat 16 ((s.wp.toNat + 1) % bufLen s.cfg) }
  else .next s

end Sys2Proof.Machine
end

