-- ==== Sys2Proof/Machine/Measurement.lean ====
section
/-! DEFINITION. The Measurement Engine (42_measurement.md): VOLT, CURR, POWR, PHMS. -/

namespace Sys2Proof.Machine

/-- The voltage of a sum over the voltage channel (R89): average times KV. -/
def volts (c : Config) (sum : Word) : F32 := f32Mul (avg sum c.spc) (kv c)

/-- The current of a sum over the current channel (R90): average times KI. -/
def amperes (c : Config) (sum : Word) : F32 := f32Mul (avg sum c.spc) (ki c)

/-- The end of the first sum of `POWR` (R62, R91): `FT0` takes the voltage, `ACC` is cleared, the second sum follows. -/
def toSum2 (acc : Word) (s : State) : State :=
  { s with ft0 := volts s.cfg acc, acc := 0#32, stage := .sum2 }

/-- `VOLT` (R89). -/
def execVolt (s : State) : Result :=
  match s.stage with
  | .idle => .next (issue 4#4 0#16 .sum1 s)
  | .sum1 => sumStep (channelSlot s.cfg.voltageChannel s) s.cfg.spc toFin s
  | .fin => .next (complete (volts s.cfg s.acc) s)
  | .sum2 => .fault .stageNotOfCommand
  | .waitcal => .fault .stageNotOfCommand

/-- `CURR` (R90). -/
def execCurr (s : State) : Result :=
  match s.stage with
  | .idle => .next (issue 5#4 0#16 .sum1 s)
  | .sum1 => sumStep (channelSlot s.cfg.currentChannel s) s.cfg.spc toFin s
  | .fin => .next (complete (amperes s.cfg s.acc) s)
  | .sum2 => .fault .stageNotOfCommand
  | .waitcal => .fault .stageNotOfCommand

/-- `POWR` (R91): the voltage channel in SUM1, the current channel in SUM2, one multiplication. -/
def execPowr (s : State) : Result :=
  match s.stage with
  | .idle => .next (issue 6#4 0#16 .sum1 s)
  | .sum1 => sumStep (channelSlot s.cfg.voltageChannel s) s.cfg.spc toSum2 s
  | .sum2 => sumStep (channelSlot s.cfg.currentChannel s) s.cfg.spc toFin s
  | .fin => .next (complete (f32Mul s.ft0 (amperes s.cfg s.acc)) s)
  | .waitcal => .fault .stageNotOfCommand

/-- `PHMS` (R92): the mean in ticks, divided by the ticks per millisecond. -/
def execPhms (s : State) : Result :=
  match s.stage with
  | .idle => .next (issue 7#4 0#16 .sum1 s)
  | .sum1 => sumStep (delaySlot s) s.cfg.n toFin s
  | .fin => .next (complete (f32Div (avg s.acc s.cfg.n) s.cfg.msConversionFactor) s)
  | .sum2 => .fault .stageNotOfCommand
  | .waitcal => .fault .stageNotOfCommand

end Sys2Proof.Machine
end

