-- ==== Sys2Proof/Machine/Actuation.lean ====
section
/-! DEFINITION. The Actuation Controller (43_actuation.md): SETD, ADJI. -/

namespace Sys2Proof.Machine

/-- `Clamp(d)` (R99): a DutyCycle, an integer in [0, 1000]. -/
def clamp (d : Int) : Nat := if d < 0 then 0 else if (dutyMax : Int) < d then dutyMax else d.toNat

/-- 1000.0 as binary32 (R101). -/
def f32Thousand : F32 := 0x447A0000#32

/-- The untruncated ramp value of R101: subtract, multiply by 1000, divide by the span, each rounded. -/
def rampValue (c : Config) (i : F32) : F32 :=
  f32Div (f32Mul (f32Sub i c.currentMin) f32Thousand) (f32Sub c.currentMax c.currentMin)

/-- `DutyMap(i)` (R101): off below CURRENT_MIN, 1000 above CURRENT_MAX, the truncated ramp between. No value where
trunc_i32 has none (R86). -/
def dutyMap (c : Config) (i : F32) : Option Int :=
  if f32Lt i c.currentMin then some 0
  else if f32Gt i c.currentMax then some dutyMax
  else truncI32 (rampValue c i)

/-- The end of `SETD` and of `ADJI`: the duty is programmed and returned (R98, R100). -/
def program (duty : Nat) (s : State) : State :=
  complete (BitVec.ofNat 32 duty) { s with ccr := BitVec.ofNat 10 duty }

/-- The mapped duty goes through the clamp (R100); where trunc_i32 has no value there is none to program (R86). -/
def programMapped (duty : Option Int) (s : State) : Result :=
  match duty with
  | none => .refused .truncUndefined
  | some d => .next (program (clamp d) s)

/-- `SETD d` (R98): no sum; the clamped operand is programmed. It never fails. -/
def execSetd (d : Slot) (s : State) : Result :=
  match s.stage with
  | .idle => .next (issue 8#4 d .fin s)
  | .fin => .next (program (clamp (dutyOperand s.imm)) s)
  | .sum1 => .fault .stageNotOfCommand
  | .sum2 => .fault .stageNotOfCommand
  | .waitcal => .fault .stageNotOfCommand

/-- `ADJI` (R100): the current of a fresh sum, mapped, clamped, programmed. -/
def execAdji (s : State) : Result :=
  match s.stage with
  | .idle => .next (issue 9#4 0#16 .sum1 s)
  | .sum1 => sumStep (channelSlot s.cfg.currentChannel s) s.cfg.spc toFin s
  | .fin => programMapped (dutyMap s.cfg (amperes s.cfg s.acc)) s
  | .sum2 => .fault .stageNotOfCommand
  | .waitcal => .fault .stageNotOfCommand

end Sys2Proof.Machine
end

