-- ==== Sys2Proof/Machine/PhaseCapture.lean ====
section
/-! DEFINITION. The Phase Capture Engine (41_phase_capture.md): the events RefEdge, DlyEdge and Tick, the command PHAVG. -/

namespace Sys2Proof.Machine

/-- Event `RefEdge` (R72): reset and start the timer, from Idle and from Timing. -/
def refEdge (s : State) : State := { s with tcnt := 0#16, ten := true }

/-- Event `DlyEdge` (R73): in Timing the whole count is captured at the cursor, the cursor advances modulo N and the
timer stops with its value kept; in Idle nothing happens (D21; assumption 22). -/
def dlyEdge (s : State) : Result :=
  if s.ten then
    match s.ph.read s.pcur.toNat with
    | none => .fault .noSuchSlot
    | some _ => .next
        { s with
          ph := s.ph.write s.pcur.toNat s.tcnt
          pcur := BitVec.ofNat 16 ((s.pcur.toNat + 1) % s.cfg.n)
          ten := false }
  else .next s

/-- Event `Tick` (R74): one count, wrapping modulo 65536; no effect while the timer is stopped. -/
def tick (s : State) : State := if tickEnabled s then { s with tcnt := s.tcnt + 1#16 } else s

/-- `PHAVG` (R77): issue; the sum over all N slots of PH; the mean in ticks. -/
def execPhavg (s : State) : Result :=
  match s.stage with
  | .idle => .next (issue 3#4 0#16 .sum1 s)
  | .sum1 => sumStep (delaySlot s) s.cfg.n toFin s
  | .fin => .next (complete (avg s.acc s.cfg.n) s)
  | .sum2 => .fault .stageNotOfCommand
  | .waitcal => .fault .stageNotOfCommand

end Sys2Proof.Machine
end

