-- ==== Sys2Proof/Machine/Dispatch.lean ====
section
/-! DEFINITION. exec: each command's arm calls its meaning. -/

namespace Sys2Proof.Machine

/-- The next atomic step of command `i`: `Issue` of `i` when the block is idle, the sequencer's step of `i` in flight in
every other stage (30_encoding.md R54, 10_state.md R30; assumption 8). -/
def exec (i : Instr) (s : State) : Host.Outcome State Fault Refusal :=
  match i with
  | .init => Sys2Proof.Machine.execInit s
  | .rdavg ch => Sys2Proof.Machine.execRdavg ch s
  | .phavg => Sys2Proof.Machine.execPhavg s
  | .volt => Sys2Proof.Machine.execVolt s
  | .curr => Sys2Proof.Machine.execCurr s
  | .powr => Sys2Proof.Machine.execPowr s
  | .phms => Sys2Proof.Machine.execPhms s
  | .setd d => Sys2Proof.Machine.execSetd d s
  | .adji => Sys2Proof.Machine.execAdji s

end Sys2Proof.Machine
end

