-- ==== Sys2Proof/Machine/Agents.lean ====
section
/-! DEFINITION. The agents of 10_state.md R14: the host's Issue, the sequencer, the clock-level order of 60_exceptions.md
R112, and which agent the environment lets step next. -/

namespace Sys2Proof.Machine

/-- The cause code of a word that is no command (60_exceptions.md R107). -/
def causeOf : DecodeError → BitVec 3
  | .reservedOpcode => causeReservedOpcode
  | .reservedField => causeReservedField

/-- HOST presents a word (30_encoding.md R54): decoded and issued, or IllegalCommand, when the block is idle; not taken
and without effect otherwise (70_reset_and_hazards.md R132). -/
def issueWord (w : Word) (s : State) : Result :=
  if cmdReady s then
    match decode w with
    | .command i => exec i s
    | .illegal e => .next (raiseIllegal (causeOf e) s)
  else .next s

/-- The command in flight, from the registers OP and IMM (R28). -/
def inFlight (s : State) : Option Instr := instrOfFields s.op s.imm

/-- SEQ: one step of the command in flight (R14, R30); nothing when the block is idle. -/
def seqStep (s : State) : Result :=
  if cmdReady s then .next s
  else
    match inFlight s with
    | none => .fault .noCommandInFlight
    | some i => exec i s

/-- A step taken only if its pin says so. -/
def whenPin (pin : Bool) (f : State → Result) (s : State) : Result := if pin then f s else .next s

/-- The flip-flops take this clock's inputs (R33). -/
def latchEdges (p : Pins) (s : State) : State := { s with refPrev := p.refIn, dlyPrev := p.dlyIn }

/-- The sequencer's or the host's turn in a clock: "one SEQ step, or Issue(cmd)" (R112, R33). Which one is decided by
`cmd_ready`; the sequencer may also take none (R137). -/
def clockTurn (p : Pins) (seqGo : Bool) (s : State) : Result :=
  if cmdReady s then whenPin p.cmdValid (issueWord p.cmd) s else whenPin seqGo seqStep s

/-- One clock (R112, R137, R33): with `rst` the reset and no step (R123); otherwise CalDone, Conv, RefEdge, DlyEdge,
Tick, and then the sequencer or the host, each seeing the state left by the one before. -/
def clockStep (p : Pins) (seqGo : Bool) (s : State) : Result :=
  if p.rst then .next (resetBlock s)
  else
    let s := if p.calRdyIn then calDone s else s
    andThen (whenPin p.adcValid (conv p.adcData) s) fun s =>
    let s := if p.refIn && !s.refPrev then refEdge s else s
    andThen (whenPin (p.dlyIn && !s.dlyPrev) dlyEdge s) fun s =>
    let s := if p.tick then tick s else s
    andThen (clockTurn p seqGo s) fun s => .next (latchEdges p s)

/-- What an offer of the environment does (R14, R33, R123). -/
def takeOffer (o : Offer) (s : State) : Result :=
  match o with
  | .issue w => issueWord w s
  | .seq => seqStep s
  | .calDone => .next (calDone s)
  | .conv v => conv v s
  | .refEdge => .next (refEdge s)
  | .dlyEdge => dlyEdge s
  | .tick => .next (tick s)
  | .rst => .next (resetBlock s)
  | .clock p seqGo => clockStep p seqGo s

/-- The next step of the run (R15): the next offer of the environment, or the sequencer's step when the environment
offers nothing (R16: an enabled sequencer step is eventually taken). -/
def takeTurn (s : State) : Result :=
  match s.offers with
  | [] => seqStep s
  | o :: os => takeOffer o { s with offers := os }

end Sys2Proof.Machine
end

