-- ==== Sys2Proof/Machine/Step.lean ====
section
/-! DEFINITION. One step of the machine. -/

namespace Sys2Proof.Machine

/-- One step (10_state.md R15): a configuration that is not admitted has no meaning (00_scope.md R6). -/
def step (s : State) : Host.Outcome State Fault Refusal :=
  if admitted s.cfg then takeTurn s else .refused .configNotAdmitted

/-- `s` with the word `w` presented next by the host, to an idle block: the next step issues it (assumption 10). -/
def State.withFetchWord (s : State) (nbits w : Nat) : State := placeWord nbits w s

end Sys2Proof.Machine
end

