-- ==== Sys2Proof/WellFormed.lean ====
section
/-! DEFINITION. Which commands are well formed under a configuration: the operand constraints of 30_encoding.md R51. -/

namespace Sys2Proof

/-- R51: the channel of `RDAVG` is below `CHANNELS`; every duty request is legal; the other commands have no operand.
An ill-formed `RDAVG` is the one R57 makes illegal with cause 3. -/
def Instr.wf (c : Config) : Instr → Bool
  | .init => true
  | .rdavg ch => decide (ch.toNat < c.channels)
  | .phavg => true
  | .volt => true
  | .curr => true
  | .powr => true
  | .phms => true
  | .setd _ => true
  | .adji => true

end Sys2Proof
end

