-- ==== Sys2Proof/Safety.lean ====
section
/-! DEFINITION. The terms in which claims speak of runs: several steps, the invariant of the reachable states
(70_reset_and_hazards.md R139), a finished, good or stuck point (R127, R108), the sequencer steps a command has left
(10_state.md R30), and bounds on slots and sums (20_memory.md R45). -/

namespace Sys2Proof.Machine

/-- `k` steps of the machine, stopping at the first fault or refusal. -/
def runSteps : Nat → State → Result
  | 0, s => .next s
  | k + 1, s => andThen (step s) (runSteps k)

/-- The stages of a command after its issue (R30). -/
def stageOfCommand : Instr → Stage → Bool
  | _, .idle => false
  | .init, st => decide (st = .waitcal) || decide (st = .fin)
  | .setd _, st => decide (st = .fin)
  | .powr, st => decide (st = .sum1) || decide (st = .sum2) || decide (st = .fin)
  | .rdavg _, st => decide (st = .sum1) || decide (st = .fin)
  | .phavg, st => decide (st = .sum1) || decide (st = .fin)
  | .volt, st => decide (st = .sum1) || decide (st = .fin)
  | .curr, st => decide (st = .sum1) || decide (st = .fin)
  | .phms, st => decide (st = .sum1) || decide (st = .fin)
  | .adji, st => decide (st = .sum1) || decide (st = .fin)

/-- `LEN` of a command's sums (40_acquisition.md R62); 0 for a command without a sum. -/
def sumLen (c : Config) : Instr → Nat
  | .init => 0
  | .setd _ => 0
  | .phavg => c.n
  | .phms => c.n
  | .rdavg _ => c.spc
  | .volt => c.spc
  | .curr => c.spc
  | .powr => c.spc
  | .adji => c.spc

/-- The stage is one of the two summation loops. -/
def summing (st : Stage) : Bool := decide (st = .sum1) || decide (st = .sum2)

/-- What holds of command `i` in flight in state `s`: its stage is one of its row of R30, its operand is well formed,
and ACC and IDX are those of a sum in progress (R29): after IDX slots in a loop, after all of them in FIN. -/
structure InFlightOk (i : Instr) (s : State) : Prop where
  /-- OP and IMM hold `i` (R28). -/
  latched : inFlight s = some i
  /-- The stage is one of `i`'s (R30). -/
  stageOk : stageOfCommand i s.stage = true
  /-- `i` was legal when it was issued (R57). -/
  operandOk : i.wf s.cfg = true
  /-- In a loop IDX counts the slots read; outside it is 0 (R62). -/
  idxOk : if summing s.stage then s.idx.toNat < sumLen s.cfg i else s.idx = 0#16
  /-- ACC is at most the slots read, each at most 65535; so it never overflows (R29). -/
  accOk : s.acc.toNat ≤ (if summing s.stage then s.idx.toNat else sumLen s.cfg i) * 65535
  /-- After the first loop of POWR, FT0 holds a voltage (R31, R91). -/
  ft0Ok : i = .powr → s.stage ≠ .sum1 → ∃ sum : Word, sum.toNat ≤ s.cfg.spc * 65535 ∧ s.ft0 = volts s.cfg sum

/-- The invariant of the reachable states: R139, the canonical form of the memories, and the sequencer's own state. -/
structure Inv (s : State) : Prop where
  /-- The configuration is admitted (R6). -/
  cfgOk : admitted s.cfg = true
  /-- SB has its L slots (R17). -/
  sbOk : s.sb.wf (bufLen s.cfg) = true
  /-- PH has its N slots (R21). -/
  phOk : s.ph.wf s.cfg.n = true
  /-- `WP < L` (R139). -/
  wpOk : s.wp.toNat < bufLen s.cfg
  /-- `PCUR < N` (R139). -/
  pcurOk : s.pcur.toNat < s.cfg.n
  /-- `CCR <= 1000` (R139). -/
  ccrOk : s.ccr.toNat ≤ 1000
  /-- `CAL_RDY = 1` if `INITST = RUNNING` (R139). -/
  calOk : s.initst = .running → s.calRdy = true
  /-- Calibration is not done before it was asked for (R64). -/
  uncalOk : s.initst = .uninit → s.calRdy = false
  /-- `FCAUSE = 0` exactly when `FAULT = 0` (R139). -/
  causeOk : s.fcause = 0#3 ↔ s.fault = false
  /-- Codes 5 to 7 are never stored (R107). -/
  codeOk : s.fcause.toNat ≤ 4
  /-- Every slot of SB that has been written since reset is at most 4095 (R139): a slot either holds its reset content
  or a conversion result. -/
  slotsOk : ∀ j v, s.sb.read j = some v → s.cfg.resetSB[j]? = some v ∨ v.toNat ≤ 4095
  /-- INIT is held exactly while INITST is CALIBRATING (R63). -/
  waitOk : s.initst = .calibrating ↔ s.stage = .waitcal
  /-- With no command in flight IDX is 0 (R62). -/
  idleOk : s.stage = .idle → s.idx = 0#16
  /-- A busy sequencer has a command in flight. -/
  flightOk : s.stage ≠ .idle → ∃ i, InFlightOk i s

/-- An offer in which the host presents a word: by itself, or at the pins of a clock that is not a reset (10_state.md
R14, R33; in a clock with `rst` no agent takes a step, R123). -/
def presentsWord : Offer → Bool
  | .issue _ => true
  | .clock p _ => p.cmdValid && !p.rst
  | .seq => false
  | .calDone => false
  | .conv _ => false
  | .refEdge => false
  | .dlyEdge => false
  | .tick => false
  | .rst => false

/-- The host issues nothing further: no offer still to come presents a word (R127; assumption 1). -/
def hostDone (s : State) : Bool := !s.offers.any presentsWord

/-- A finished point of a run (R127): no command is in flight and the host issues nothing further. The events may go
on, and so may resets. -/
def finished (s : State) : Bool := decide (s.stage = .idle) && hostDone s

/-- A good point (R127): finished, and no fault recorded. -/
def good (s : State) : Bool := finished s && !s.fault

/-- INIT is held (R108, R127): stuck until CalDone, which is not a fault. -/
def held (s : State) : Bool := decide (s.stage = .waitcal) && !s.calRdy

/-- The SEQ steps the command in flight has left (R30). -/
def seqLeft (s : State) : Nat :=
  match s.stage, inFlight s with
  | .idle, _ => 0
  | _, none => 0
  | .waitcal, some _ => 2
  | .fin, some _ => 1
  | .sum2, some i => sumLen s.cfg i - s.idx.toNat + 1
  | .sum1, some .powr => (s.cfg.spc - s.idx.toNat) + s.cfg.spc + 1
  | .sum1, some i => sumLen s.cfg i - s.idx.toNat + 1

/-- An offer that resets the block (R123). -/
def isReset : Offer → Bool
  | .rst => true
  | .clock p _ => p.rst
  | .issue _ => false
  | .seq => false
  | .calDone => false
  | .conv _ => false
  | .refEdge => false
  | .dlyEdge => false
  | .tick => false

/-- The next step is not a reset. -/
def noReset (s : State) : Bool := !(s.offers.head?.any isReset)

/-- The sum of the slots of channel `ch`, exactly (R62, R66): samples 0 to k-1. A slot that does not exist counts 0. -/
def channelSum (c : Config) (m : Memory) (ch : Nat) : Nat → Nat
  | 0 => 0
  | k + 1 => channelSum c m ch k + ((m.read (sbIndex c ch k)).getD 0#16).toNat

/-- The sum of the first k slots of the delay history, exactly (R62, R77). -/
def delaySum (m : Memory) : Nat → Nat
  | 0 => 0
  | k + 1 => delaySum m k + ((m.read k).getD 0#16).toNat

/-- Every slot of the delay history lies in [lo, hi]. -/
def DelaysWithin (lo hi : Nat) (s : State) : Prop :=
  ∀ j v, s.ph.read j = some v → lo ≤ v.toNat ∧ v.toNat ≤ hi

/-- Every slot of channel `ch` lies in [lo, hi]. -/
def ChannelWithin (lo hi ch : Nat) (s : State) : Prop :=
  ∀ k v, k < s.cfg.spc → s.sb.read (sbIndex s.cfg ch k) = some v → lo ≤ v.toNat ∧ v.toNat ≤ hi

/-- The channel that a command's sum in this stage reads, if it sums a channel (R62). -/
def channelOf (c : Config) : Instr → Stage → Option Nat
  | .rdavg ch, _ => some ch.toNat
  | .volt, _ => some c.voltageChannel
  | .curr, _ => some c.currentChannel
  | .adji, _ => some c.currentChannel
  | .powr, .sum1 => some c.voltageChannel
  | .powr, _ => some c.currentChannel
  | .init, _ => none
  | .phavg, _ => none
  | .phms, _ => none
  | .setd _, _ => none

/-- How many slots are in ACC: IDX of them in a loop, all of them in FIN. -/
def slotsRead (i : Instr) (s : State) : Nat := if summing s.stage then s.idx.toNat else sumLen s.cfg i

/-- The sum over the delay history lies between `lo` and `hi` times the slots read so far. -/
def DelaySumWithin (lo hi : Nat) (s : State) : Prop :=
  ∀ i, s.stage ≠ .idle → inFlight s = some i → i = .phavg ∨ i = .phms →
    lo * slotsRead i s ≤ s.acc.toNat ∧ s.acc.toNat ≤ hi * slotsRead i s

/-- The sum over channel `ch` lies between `lo` and `hi` times the slots read so far. -/
def ChannelSumWithin (lo hi ch : Nat) (s : State) : Prop :=
  ∀ i, s.stage ≠ .idle → inFlight s = some i → channelOf s.cfg i s.stage = some ch →
    lo * slotsRead i s ≤ s.acc.toNat ∧ s.acc.toNat ≤ hi * slotsRead i s

/-- An offer of one of the five asynchronous events (00_scope.md R12, 60_exceptions.md R109). -/
def isEvent : Offer → Bool
  | .calDone => true
  | .conv _ => true
  | .refEdge => true
  | .dlyEdge => true
  | .tick => true
  | .issue _ => false
  | .seq => false
  | .rst => false
  | .clock _ _ => false

/-- An offer that is neither an edge, a reset nor a whole clock: between two edges these leave the capture to the ticks
(41_phase_capture.md R75). -/
def betweenEdges : Offer → Bool
  | .issue _ => true
  | .seq => true
  | .calDone => true
  | .conv _ => true
  | .tick => true
  | .refEdge => false
  | .dlyEdge => false
  | .rst => false
  | .clock _ _ => false

/-- An offer that brings neither the ready flag nor a reset: INIT stays held (60_exceptions.md R108). -/
def keepsHeld : Offer → Bool
  | .calDone => false
  | .rst => false
  | .clock p _ => !p.calRdyIn && !p.rst
  | .issue _ => true
  | .seq => true
  | .conv _ => true
  | .refEdge => true
  | .dlyEdge => true
  | .tick => true

/-- The event-level steps of one clock, in the order of 60_exceptions.md R112; an edge is a pin that is 1 and was 0 in
the previous clock (10_state.md R33), and the last step is the sequencer's or the host's. -/
def clockEvents (p : Pins) (seqGo : Bool) (s : State) : List Offer :=
  (if p.calRdyIn then [.calDone] else [])
    ++ (if p.adcValid then [.conv p.adcData] else [])
    ++ (if p.refIn && !s.refPrev then [.refEdge] else [])
    ++ (if p.dlyIn && !s.dlyPrev then [.dlyEdge] else [])
    ++ (if p.tick then [.tick] else [])
    ++ (if s.stage = .idle then (if p.cmdValid then [.issue p.cmd] else []) else (if seqGo then [.seq] else []))

/-- `r` is the finite binary32 value nearest to `num / den` units of 2^-149, and of two equally near ones the one with
the even significand (42_measurement.md R82). -/
def NearestTo (r : F32) (num : Int) (den : Nat) : Prop :=
  f32Finite r = true ∧ ∀ c, f32Finite c = true →
    (f32Int r * den - num).natAbs ≤ (f32Int c * den - num).natAbs ∧
    ((f32Int r * den - num).natAbs = (f32Int c * den - num).natAbs → f32Int c ≠ f32Int r → r.toNat % 2 = 0)

end Sys2Proof.Machine
end

