-- ==== Sys2Proof/Certificates/Slice0/Obligations.lean ====
section
/-! DEFINITION. The statements for the provers: what the numbered rules of the spec say the block does. -/

open Sys2Proof Sys2Proof.Machine

/-! ## Reset -/

/-- R36: the reset values, for every configuration; an index that is no slot reads as nothing
(R37; the model's own form of a memory, assumption 7). -/
def Obligations.ResetLeavesTheTable : Prop :=
  ∀ c : Config,
    (∀ i, (State.resetOf c).sb.read i = c.resetSB[i]?) ∧
    (∀ i, (State.resetOf c).ph.read i = c.resetPH[i]?) ∧
    (State.resetOf c).wp = 0#16 ∧ (State.resetOf c).initst = .uninit ∧ (State.resetOf c).calRdy = false ∧
    (State.resetOf c).pcur = 0#16 ∧ (State.resetOf c).tcnt = 0#16 ∧ (State.resetOf c).ten = false ∧
    (State.resetOf c).ccr = 0#10 ∧ (State.resetOf c).result = 0x00000000#32 ∧
    (State.resetOf c).fault = false ∧ (State.resetOf c).fcause = 0#3 ∧
    (State.resetOf c).op = 0#4 ∧ (State.resetOf c).imm = 0#16 ∧
    (State.resetOf c).acc = 0#32 ∧ (State.resetOf c).idx = 0#16 ∧
    (State.resetOf c).stage = .idle ∧ (State.resetOf c).ft0 = 0x00000000#32

/-- R123: a reset, as a step of its own or as a clock in which `rst` is 1, puts every item of state at its reset value
and takes no other step, so that a command in flight is abandoned without a response; the configuration stays. The
responses presented before and the later offers stay in the model's own two fields (assumptions 1, 14); the reset that is
a step of its own is assumption 6. -/
def Obligations.ResetRestoresEveryItem : Prop :=
  ∀ (s : State) (os : List Offer) (p : Pins) (go : Bool), admitted s.cfg = true → p.rst = true →
    s.offers = .rst :: os ∨ s.offers = .clock p go :: os →
    step s = .next { State.resetOf s.cfg with history := s.history, offers := os }

/-- R125: directly after reset CalDone, Conv, Tick and a SEQ step are not enabled, so offering one changes nothing, and
a delayed edge finds the timer Idle; a reference edge starts the timer. -/
def Obligations.AfterResetOnlyIssueAndEdges : Prop :=
  ∀ (c : Config) (v : Sample) (o : Offer), admitted c = true →
    (o = .calDone ∨ o = .conv v ∨ o = .tick ∨ o = .seq ∨ o = .dlyEdge →
      step { State.resetOf c with offers := [o] } = .next (State.resetOf c)) ∧
    step { State.resetOf c with offers := [.refEdge] } = .next { State.resetOf c with ten := true }

/-! ## Encoding, decoding, issuing -/

/-- Every command, with every operand, decodes from its encoding, and a word that decodes is the encoding of what it
decodes to: no operand bit is dropped and no two words are one command (R50, R52, R53). -/
def Obligations.DecodeAndEncodeAreInverse : Prop :=
  (∀ i : Instr, decode (encode i) = .command i) ∧ (∀ (w : Word) (i : Instr), decode w = .command i → encode i = w)

/-- R53: `match` and `mask` select the command; the operand is the low half of the word. -/
def Obligations.DecodeFollowsMatchAndMask : Prop :=
  ∀ (w : Word) (i : Instr), decode w = .command i ↔
    (w &&& 0xFFFFFFFF#32 = 0x10000000#32 ∧ i = .init) ∨
    (w &&& 0xFFFF0000#32 = 0x20000000#32 ∧ i = .rdavg (BitVec.ofNat 16 w.toNat)) ∨
    (w &&& 0xFFFFFFFF#32 = 0x30000000#32 ∧ i = .phavg) ∨
    (w &&& 0xFFFFFFFF#32 = 0x40000000#32 ∧ i = .volt) ∨
    (w &&& 0xFFFFFFFF#32 = 0x50000000#32 ∧ i = .curr) ∨
    (w &&& 0xFFFFFFFF#32 = 0x60000000#32 ∧ i = .powr) ∨
    (w &&& 0xFFFFFFFF#32 = 0x70000000#32 ∧ i = .phms) ∨
    (w &&& 0xFFFF0000#32 = 0x80000000#32 ∧ i = .setd (BitVec.ofNat 16 w.toNat)) ∨
    (w &&& 0xFFFFFFFF#32 = 0x90000000#32 ∧ i = .adji)

/-- Some words of 95_test_vectors.md V-ENC and V-FLT. -/
def Obligations.SomeWordsDecodeAsWritten : Prop :=
  decode 0x10000000#32 = .command .init ∧ decode 0x20000001#32 = .command (.rdavg 1#16) ∧
  decode 0x60000000#32 = .command .powr ∧ decode 0x8000FFFF#32 = .command (.setd 0xFFFF#16) ∧
  decode 0x00000000#32 = .illegal .reservedOpcode ∧ decode 0xA0010002#32 = .illegal .reservedOpcode ∧
  decode 0x40000001#32 = .illegal .reservedField ∧ decode 0x20010002#32 = .illegal .reservedField

/-- R54: `Issue(w)`, with its checks in the order written, on the fields of R50 as numbers; while a command is in flight
the word has no effect. -/
def Obligations.IssueChecksThenStarts : Prop :=
  ∀ (s : State) (w : Word) (os : List Offer), admitted s.cfg = true → s.offers = .issue w :: os →
    let opc := w.toNat / 2 ^ 28
    let rsv := w.toNat / 2 ^ 16 % 2 ^ 12
    let imm := w.toNat % 2 ^ 16
    let illegal : BitVec 3 → State := fun cause =>
      { s with
        offers := os
        fcause := if s.fault = false then cause else s.fcause
        fault := true
        history := ⟨true, 0x00000000#32⟩ :: s.history }
    step s = .next
      (if s.stage ≠ .idle then { s with offers := os }
       else if opc = 0 ∨ 10 ≤ opc then illegal 1#3
       else if rsv ≠ 0 then illegal 2#3
       else if opc ∈ [1, 3, 4, 5, 6, 7, 9] ∧ imm ≠ 0 then illegal 2#3
       else if opc = 2 ∧ s.cfg.channels ≤ imm then illegal 3#3
       else if opc = 1 ∧ s.initst ≠ .uninit then illegal 4#3
       else
        { s with
          offers := os
          op := BitVec.ofNat 4 opc
          imm := BitVec.ofNat 16 imm
          acc := 0#32
          idx := 0#16
          initst := if opc = 1 then .calibrating else s.initst
          stage := if opc = 1 then .waitcal else if opc = 8 then .fin else .sum1 })

/-- A step runs the decoded command: the host's word when the block is idle (also as the host's probe places it), the
command in flight when the sequencer steps, and the sequencer when nothing is offered (assumptions 1, 8, 10). -/
def Obligations.StepRunsTheCommand : Prop :=
  (∀ (s : State) (w : Word) (i : Instr) (os : List Offer), admitted s.cfg = true → s.stage = .idle →
    s.offers = .issue w :: os → decode w = .command i → step s = exec i { s with offers := os }) ∧
  (∀ (s : State) (w : Nat) (i : Instr), admitted s.cfg = true → decode (BitVec.ofNat 32 w) = .command i →
    step (s.withFetchWord 32 w) = exec i { s with stage := .idle }) ∧
  (∀ (s : State) (i : Instr) (os : List Offer), admitted s.cfg = true → s.stage ≠ .idle →
    s.offers = .seq :: os → instrOfFields s.op s.imm = some i → step s = exec i { s with offers := os }) ∧
  (∀ (s : State) (i : Instr), admitted s.cfg = true → s.stage ≠ .idle →
    s.offers = [] → instrOfFields s.op s.imm = some i → step s = exec i s)

/-- R6, U9: a configuration that is not admitted has no meaning; REFCFG is admitted. -/
def Obligations.OnlyAdmittedConfigurationsRun : Prop :=
  (∀ s : State, admitted s.cfg = false → step s = .refused .configNotAdmitted) ∧ admitted Config.refcfg = true

/-- R54, R28, R29: every legal command starts when the block is idle, and nothing else changes. -/
def Obligations.LegalCommandsStart : Prop :=
  ∀ (i : Instr) (s : State), s.stage = .idle → i.wf s.cfg = true → (i = .init → s.initst = .uninit) →
    exec i s = .next
      { s with
        op := opcodeOf i
        imm := immOf i
        acc := 0#32
        idx := 0#16
        initst := if i = .init then .calibrating else s.initst
        stage := if i = .init then .waitcal else if opcodeOf i = 8#4 then .fin else .sum1 }

/-- R57, R54, R63, R106, R107, R134: a channel outside the configuration is illegal with cause 3 (no slot is read, so
none need exist), a second INIT with cause 4 (INITST keeps its value); only the fault record changes, and the response
is (1, 0). -/
def Obligations.ChannelRangeAndSecondInitAreIllegal : Prop :=
  ∀ (i : Instr) (s : State) (cause : BitVec 3), s.stage = .idle →
    ((∃ ch : Slot, i = .rdavg ch ∧ s.cfg.channels ≤ ch.toNat) ∧ cause = 3#3) ∨
    ((i = .init ∧ s.initst ≠ .uninit) ∧ cause = 4#3) →
    exec i s = .next
      { s with
        fcause := if s.fault = false then cause else s.fcause
        fault := true
        history := ⟨true, 0x00000000#32⟩ :: s.history }

/-! ## The steps of a command in flight -/

/-- R62: `SumStep`, for every command that sums and both loops; the slot and LEN are those of R62's table. -/
def Obligations.SumStepAddsOneSlot : Prop :=
  ∀ (i : Instr) (s : State) (v : Slot) (len : Nat),
    let sb := fun ch => s.sb.read (ch + s.idx.toNat * s.cfg.channels)
    let ph := s.ph.read s.idx.toNat
    let acc := s.acc + v.zeroExtend 32
    ((∃ ch, i = .rdavg ch) ∧ s.stage = .sum1 ∧ sb s.imm.toNat = some v ∧ len = s.cfg.spc) ∨
    ((i = .volt ∨ i = .powr) ∧ s.stage = .sum1 ∧ sb s.cfg.voltageChannel = some v ∧ len = s.cfg.spc) ∨
    ((i = .curr ∨ i = .adji) ∧ s.stage = .sum1 ∧ sb s.cfg.currentChannel = some v ∧ len = s.cfg.spc) ∨
    (i = .powr ∧ s.stage = .sum2 ∧ sb s.cfg.currentChannel = some v ∧ len = s.cfg.spc) ∨
    ((i = .phavg ∨ i = .phms) ∧ s.stage = .sum1 ∧ ph = some v ∧ len = s.cfg.n) →
    exec i s = .next
      (if s.idx.toNat + 1 < len then { s with acc := acc, idx := s.idx + 1#16 }
       else if i = .powr ∧ s.stage = .sum1 then
        { s with
          idx := 0#16
          ft0 := f32Mul (f32Div (f32OfU32 acc.toNat) (f32OfU32 s.cfg.spc)) (kv s.cfg)
          acc := 0#32
          stage := .sum2 }
       else { s with idx := 0#16, acc := acc, stage := .fin })

/-- R63: WaitCalStep starts the conversions once the ready flag is set, and FinStep completes with 0. -/
def Obligations.InitWaitsThenCompletes : Prop :=
  ∀ s : State,
    (s.stage = .waitcal → s.calRdy = true → exec .init s = .next { s with initst := .running, stage := .fin }) ∧
    (s.stage = .waitcal → s.calRdy = false → exec .init s = .next s) ∧
    (s.stage = .fin →
      exec .init s = .next
        { s with result := 0x00000000#32, stage := .idle, history := ⟨false, 0x00000000#32⟩ :: s.history })

/-- R32, R66, R77, R89 to R92: the FIN step of the six measuring commands returns its formula and changes nothing else. -/
def Obligations.MeasuringCommandsReturnTheirFormula : Prop :=
  ∀ (s : State) (i : Instr) (v : F32), s.stage = .fin →
    let mean := fun n => f32Div (f32OfU32 s.acc.toNat) (f32OfU32 n)
    ((∃ ch, i = .rdavg ch) ∧ v = mean s.cfg.spc) ∨
    (i = .phavg ∧ v = mean s.cfg.n) ∨
    (i = .volt ∧ v = f32Mul (mean s.cfg.spc) (f32Div s.cfg.fullScaleVoltage s.cfg.adcFullScaleCount)) ∨
    (i = .curr ∧ v = f32Mul (mean s.cfg.spc) (f32Div s.cfg.fullScaleCurrent s.cfg.adcFullScaleCount)) ∨
    (i = .powr ∧
      v = f32Mul s.ft0 (f32Mul (mean s.cfg.spc) (f32Div s.cfg.fullScaleCurrent s.cfg.adcFullScaleCount))) ∨
    (i = .phms ∧ v = f32Div (mean s.cfg.n) s.cfg.msConversionFactor) →
    exec i s = .next { s with result := v, stage := .idle, history := ⟨false, v⟩ :: s.history }

/-- R98, R99: the FIN step of SETD programs and returns the clamped operand; no operand fails. -/
def Obligations.SetdProgramsTheClampedDuty : Prop :=
  ∀ (s : State) (d : Slot) (c : Nat), s.stage = .fin →
    (s.imm.toInt < 0 ∧ c = 0) ∨ (1000 < s.imm.toInt ∧ c = 1000) ∨
      (0 ≤ s.imm.toInt ∧ s.imm.toInt ≤ 1000 ∧ (c : Int) = s.imm.toInt) →
    exec (.setd d) s = .next
      { s with
        ccr := BitVec.ofNat 10 c
        result := BitVec.ofNat 32 c
        stage := .idle
        history := ⟨false, BitVec.ofNat 32 c⟩ :: s.history }

/-- R100, R101: the FIN step of ADJI, region by region of the map; the ramp is truncated. -/
def Obligations.AdjiProgramsTheMappedDuty : Prop :=
  ∀ (s : State) (c : Nat), s.stage = .fin →
    let i := f32Mul (f32Div (f32OfU32 s.acc.toNat) (f32OfU32 s.cfg.spc)) (ki s.cfg)
    let r := f32Div (f32Mul (f32Sub i s.cfg.currentMin) 0x447A0000#32) (f32Sub s.cfg.currentMax s.cfg.currentMin)
    (f32Lt i s.cfg.currentMin = true ∧ c = 0) ∨
    (f32Lt i s.cfg.currentMin = false ∧ f32Gt i s.cfg.currentMax = true ∧ c = 1000) ∨
    (f32Lt i s.cfg.currentMin = false ∧ f32Gt i s.cfg.currentMax = false ∧ c ≤ 1000 ∧ truncI32 r = some (c : Int)) →
    exec .adji s = .next
      { s with
        ccr := BitVec.ofNat 10 c
        result := BitVec.ofNat 32 c
        stage := .idle
        history := ⟨false, BitVec.ofNat 32 c⟩ :: s.history }

/-- R40, R77, R94, R103 and the owners of R13: what a step of a command leaves unchanged, in every state and stage. -/
def Obligations.CommandsLeaveTheUnitsAlone : Prop :=
  ∀ (i : Instr) (s t : State), exec i s = .next t →
    (∀ a, t.sb.read a = s.sb.read a) ∧ (∀ a, t.ph.read a = s.ph.read a) ∧
    t.wp = s.wp ∧ t.pcur = s.pcur ∧ t.tcnt = s.tcnt ∧ t.ten = s.ten ∧ t.calRdy = s.calRdy ∧
    t.refPrev = s.refPrev ∧ t.dlyPrev = s.dlyPrev ∧ t.cfg = s.cfg ∧ t.offers = s.offers ∧
    (t.initst ≠ s.initst → i = .init) ∧
    (t.ccr ≠ s.ccr → s.stage = .fin ∧ ((∃ d, i = .setd d) ∨ i = .adji)) ∧
    (t.result ≠ s.result → s.stage = .fin) ∧
    (t.ft0 ≠ s.ft0 → i = .powr ∧ s.stage = .sum1) ∧
    (t.fault ≠ s.fault ∨ t.fcause ≠ s.fcause → s.stage = .idle ∧ (i = .init ∨ ∃ ch, i = .rdavg ch)) ∧
    (t.op ≠ s.op ∨ t.imm ≠ s.imm → s.stage = .idle)

/-- R103: ADJI does not read CCR: in its FIN step the duty programmed is the same whatever CCR held, and in its other
steps CCR is carried along. -/
def Obligations.AdjiIgnoresThePriorDuty : Prop :=
  ∀ (s t : State) (x : BitVec 10), exec .adji s = .next t →
    exec .adji { s with ccr := x } = .next (if s.stage = .fin then t else { t with ccr := x })

/-! ## Whole commands, with no other agent stepping in between -/

/-- R66: RDAVG from issue to completion, when nothing else steps (assumption 1). -/
def Obligations.RdavgReturnsTheChannelMean : Prop :=
  ∀ (s : State) (ch : Slot), admitted s.cfg = true → s.sb.wf (bufLen s.cfg) = true → s.stage = .idle →
    ch.toNat < s.cfg.channels →
    let sum := channelSum s.cfg s.sb ch.toNat s.cfg.spc
    let v := f32Div (f32OfU32 sum) (f32OfU32 s.cfg.spc)
    runSteps (s.cfg.spc + 2) { s with offers := [.issue (encode (.rdavg ch))] } = .next
      { s with
        offers := [], op := 2#4, imm := ch, acc := BitVec.ofNat 32 sum, idx := 0#16,
        result := v, history := ⟨false, v⟩ :: s.history }

/-- R77: PHAVG from issue to completion, when nothing else steps (assumption 1). -/
def Obligations.PhavgReturnsTheHistoryMean : Prop :=
  ∀ s : State, admitted s.cfg = true → s.ph.wf s.cfg.n = true → s.stage = .idle →
    let sum := delaySum s.ph s.cfg.n
    let v := f32Div (f32OfU32 sum) (f32OfU32 s.cfg.n)
    runSteps (s.cfg.n + 2) { s with offers := [.issue (encode .phavg)] } = .next
      { s with
        offers := [], op := 3#4, imm := 0#16, acc := BitVec.ofNat 32 sum, idx := 0#16,
        result := v, history := ⟨false, v⟩ :: s.history }

/-- R89, R90: VOLT and CURR from issue to completion, when nothing else steps (assumption 1). -/
def Obligations.VoltAndCurrScaleTheMean : Prop :=
  ∀ (s : State) (i : Instr) (ch : Nat) (k : F32), admitted s.cfg = true → s.sb.wf (bufLen s.cfg) = true →
    s.stage = .idle →
    (i = .volt ∧ ch = s.cfg.voltageChannel ∧ k = kv s.cfg) ∨ (i = .curr ∧ ch = s.cfg.currentChannel ∧ k = ki s.cfg) →
    let sum := channelSum s.cfg s.sb ch s.cfg.spc
    let v := f32Mul (f32Div (f32OfU32 sum) (f32OfU32 s.cfg.spc)) k
    runSteps (s.cfg.spc + 2) { s with offers := [.issue (encode i)] } = .next
      { s with
        offers := [], op := opcodeOf i, imm := 0#16, acc := BitVec.ofNat 32 sum, idx := 0#16,
        result := v, history := ⟨false, v⟩ :: s.history }

/-- R91: POWR from issue to completion, when nothing else steps (assumption 1): the voltage of the first sum times the
current of the second, no phase angle. -/
def Obligations.PowrMultipliesVoltageAndCurrent : Prop :=
  ∀ s : State, admitted s.cfg = true → s.sb.wf (bufLen s.cfg) = true → s.stage = .idle →
    let vsum := channelSum s.cfg s.sb s.cfg.voltageChannel s.cfg.spc
    let isum := channelSum s.cfg s.sb s.cfg.currentChannel s.cfg.spc
    let v := f32Mul (f32Div (f32OfU32 vsum) (f32OfU32 s.cfg.spc)) (kv s.cfg)
    let i := f32Mul (f32Div (f32OfU32 isum) (f32OfU32 s.cfg.spc)) (ki s.cfg)
    runSteps (2 * s.cfg.spc + 2) { s with offers := [.issue (encode .powr)] } = .next
      { s with
        offers := [], op := 6#4, imm := 0#16, acc := BitVec.ofNat 32 isum, idx := 0#16, ft0 := v,
        result := f32Mul v i, history := ⟨false, f32Mul v i⟩ :: s.history }

/-- R92: PHMS from issue to completion, when nothing else steps (assumption 1): two rounded divisions. -/
def Obligations.PhmsConvertsTheHistoryMean : Prop :=
  ∀ s : State, admitted s.cfg = true → s.ph.wf s.cfg.n = true → s.stage = .idle →
    let sum := delaySum s.ph s.cfg.n
    let v := f32Div (f32Div (f32OfU32 sum) (f32OfU32 s.cfg.n)) s.cfg.msConversionFactor
    runSteps (s.cfg.n + 2) { s with offers := [.issue (encode .phms)] } = .next
      { s with
        offers := [], op := 7#4, imm := 0#16, acc := BitVec.ofNat 32 sum, idx := 0#16,
        result := v, history := ⟨false, v⟩ :: s.history }

/-- R54, R98, R99: SETD from issue to completion, for every operand, when nothing else steps (assumption 1). -/
def Obligations.SetdClampsEveryRequest : Prop :=
  ∀ (s : State) (d : Slot), admitted s.cfg = true → s.stage = .idle →
    let c : Nat := if d.toInt < 0 then 0 else if 1000 < d.toInt then 1000 else d.toInt.toNat
    runSteps 2 { s with offers := [.issue (encode (.setd d))] } = .next
      { s with
        offers := [], op := 8#4, imm := d, acc := 0#32, idx := 0#16,
        ccr := BitVec.ofNat 10 c, result := BitVec.ofNat 32 c, history := ⟨false, BitVec.ofNat 32 c⟩ :: s.history }

/-- R100, R101: ADJI from issue to completion, when nothing else steps (assumption 1): the duty is the map of the CURR
value, and it is a DutyCycle; it never stops. -/
def Obligations.AdjiMapsTheMeasuredCurrent : Prop :=
  ∀ s : State, admitted s.cfg = true → s.sb.wf (bufLen s.cfg) = true → s.stage = .idle →
    let sum := channelSum s.cfg s.sb s.cfg.currentChannel s.cfg.spc
    let i := f32Mul (f32Div (f32OfU32 sum) (f32OfU32 s.cfg.spc)) (ki s.cfg)
    ∃ c : Nat, c ≤ 1000 ∧ dutyMap s.cfg i = some (c : Int) ∧
      runSteps (s.cfg.spc + 2) { s with offers := [.issue (encode .adji)] } = .next
        { s with
          offers := [], op := 9#4, imm := 0#16, acc := BitVec.ofNat 32 sum, idx := 0#16,
          ccr := BitVec.ofNat 10 c, result := BitVec.ofNat 32 c, history := ⟨false, BitVec.ofNat 32 c⟩ :: s.history }

/-- R63, R64: INIT from issue to completion, when CalDone comes after `k` waiting steps. -/
def Obligations.InitRunsOnceCalibrated : Prop :=
  ∀ (s : State) (k : Nat), admitted s.cfg = true → s.stage = .idle → s.initst = .uninit → s.calRdy = false →
    runSteps (k + 4) { s with offers := .issue (encode .init) :: List.replicate k .seq ++ [.calDone] } = .next
      { s with
        offers := [], op := 1#4, imm := 0#16, acc := 0#32, idx := 0#16, initst := .running, calRdy := true,
        result := 0x00000000#32, history := ⟨false, 0x00000000#32⟩ :: s.history }

/-! ## Events -/

/-- R64: CalDone sets the ready flag where it is enabled and writes nothing else; offered elsewhere it has no effect. -/
def Obligations.CalDoneSetsTheReadyFlag : Prop :=
  ∀ (s : State) (os : List Offer), admitted s.cfg = true → s.offers = .calDone :: os →
    step s = .next
      (if s.initst = .calibrating ∧ s.calRdy = false then { s with offers := os, calRdy := true }
       else { s with offers := os })

/-- R65: Conv stores the zero-extended result in slot WP, every other slot keeps its value, and the cursor advances
modulo L; while INITST is not RUNNING the result is ignored. -/
def Obligations.ConvStoresInTheNextSlot : Prop :=
  ∀ (s : State) (v : Sample) (os : List Offer), admitted s.cfg = true → s.sb.wf (bufLen s.cfg) = true →
    s.wp.toNat < bufLen s.cfg → s.offers = .conv v :: os →
    (s.initst = .running →
      ∃ t, step s = .next t ∧
        t = { s with offers := os, sb := t.sb, wp := BitVec.ofNat 16 ((s.wp.toNat + 1) % bufLen s.cfg) } ∧
        t.sb.read s.wp.toNat = some (v.zeroExtend 16) ∧
        ∀ j, j ≠ s.wp.toNat → t.sb.read j = s.sb.read j) ∧
    (s.initst ≠ .running → step s = .next { s with offers := os })

/-- R65: conversions land in the slots in order, wrapping: after any number of them from WP = 0 the last L are in the
slots of their numbers modulo L, slots not reached keep their contents, and WP counts modulo L. -/
def Obligations.ConversionsFillTheRing : Prop :=
  ∀ (s : State) (vs : List Sample), admitted s.cfg = true → s.sb.wf (bufLen s.cfg) = true → s.initst = .running →
    s.wp = 0#16 → s.offers = vs.map .conv →
    ∃ t, runSteps vs.length s = .next t ∧ t.wp.toNat = vs.length % bufLen s.cfg ∧
      (∀ k v, vs[k]? = some v → vs.length ≤ k + bufLen s.cfg →
        t.sb.read (k % bufLen s.cfg) = some (v.zeroExtend 16)) ∧
      (∀ j, vs.length ≤ j → t.sb.read j = s.sb.read j)

/-- R72: RefEdge, from Idle and from Timing, in every state. -/
def Obligations.RefEdgeRestartsTheTimer : Prop :=
  ∀ (s : State) (os : List Offer), admitted s.cfg = true → s.offers = .refEdge :: os →
    step s = .next { s with offers := os, tcnt := 0#16, ten := true }

/-- R73: DlyEdge: in Timing the whole count is captured at the cursor, the cursor advances modulo N, the timer stops and
keeps its count; in Idle nothing happens. -/
def Obligations.DlyEdgeCapturesAndStops : Prop :=
  ∀ (s : State) (os : List Offer), admitted s.cfg = true → s.ph.wf s.cfg.n = true → s.pcur.toNat < s.cfg.n →
    s.offers = .dlyEdge :: os →
    (s.ten = true →
      ∃ t, step s = .next t ∧
        t = { s with offers := os, ph := t.ph, pcur := BitVec.ofNat 16 ((s.pcur.toNat + 1) % s.cfg.n), ten := false } ∧
        t.ph.read s.pcur.toNat = some s.tcnt ∧
        ∀ j, j ≠ s.pcur.toNat → t.ph.read j = s.ph.read j) ∧
    (s.ten = false → step s = .next { s with offers := os })

/-- R74: Tick counts modulo 65536 while the timer is enabled and writes nothing else; otherwise it has no effect. -/
def Obligations.TickCountsModulo65536 : Prop :=
  ∀ (s : State) (os : List Offer), admitted s.cfg = true → s.offers = .tick :: os →
    ∃ t, step s = .next t ∧ t = { s with offers := os, tcnt := t.tcnt } ∧
      t.tcnt.toNat = if s.ten = true then (s.tcnt.toNat + 1) % 65536 else s.tcnt.toNat

/-- R75: a measurement stores exactly one sample, the number of ticks between its two edges modulo 65536, whatever else
happens between; a second reference edge discards it; a delayed edge without a reference edge before it stores nothing. -/
def Obligations.MeasurementCountsTheTicks : Prop :=
  ∀ (s : State) (mid os : List Offer), Inv s → mid.all betweenEdges = true →
    (s.offers = .refEdge :: mid ++ .dlyEdge :: os →
      ∃ t, runSteps (mid.length + 2) s = .next t ∧ t.offers = os ∧ t.ten = false ∧
        t.pcur.toNat = (s.pcur.toNat + 1) % s.cfg.n ∧
        t.ph.read s.pcur.toNat = some (BitVec.ofNat 16 (mid.count .tick)) ∧
        ∀ j, j ≠ s.pcur.toNat → t.ph.read j = s.ph.read j) ∧
    (s.offers = .refEdge :: mid ++ .refEdge :: os →
      ∃ t, runSteps (mid.length + 2) s = .next t ∧ t.ph = s.ph ∧ t.pcur = s.pcur ∧ t.tcnt = 0#16 ∧ t.ten = true) ∧
    (s.ten = false → s.offers = mid ++ .dlyEdge :: os →
      ∃ t, runSteps (mid.length + 1) s = .next t ∧ t.ph = s.ph ∧ t.pcur = s.pcur ∧ t.tcnt = s.tcnt ∧ t.ten = false)

/-- R113: no event touches the sequencer's registers, the result, the fault record, the duty or the responses. -/
def Obligations.EventsLeaveTheSequencerAlone : Prop :=
  ∀ (s t : State) (o : Offer) (os : List Offer) (v : Sample), s.offers = o :: os →
    o = .calDone ∨ o = .conv v ∨ o = .refEdge ∨ o = .dlyEdge ∨ o = .tick → step s = .next t →
    t.op = s.op ∧ t.imm = s.imm ∧ t.stage = s.stage ∧ t.idx = s.idx ∧ t.acc = s.acc ∧ t.ft0 = s.ft0 ∧
    t.result = s.result ∧ t.fault = s.fault ∧ t.fcause = s.fcause ∧ t.ccr = s.ccr ∧ t.history = s.history ∧
    t.initst = s.initst ∧ t.cfg = s.cfg ∧ t.offers = os

/-! ## The clock level -/

/-- R112, R137: one clock is the event-level steps of its active pins, in the fixed order, each seeing the state left by
the one before, and then the flip-flops take the pins: every clock is one of the interleavings. The offer of a clock, and
its choice whether the sequencer moves, are assumption 15. -/
def Obligations.ClockIsItsEventsInOrder : Prop :=
  ∀ (s : State) (p : Pins) (go : Bool) (os : List Offer), admitted s.cfg = true → p.rst = false →
    s.offers = .clock p go :: os →
    step s = andThen (runSteps (clockEvents p go s).length { s with offers := clockEvents p go s ++ os })
      fun u => .next { u with refPrev := p.refIn, dlyPrev := p.dlyIn }

/-- R112: coincident edges record a delay of 0; a tick in the clock of a reference edge counts after the reset; a tick in
the clock of a captured delayed edge is not captured and not counted; a slot read in the clock of a write to it returns
the new value. -/
def Obligations.CoincidentEventsTakeTheFixedOrder : Prop :=
  ∀ (s : State) (p : Pins) (go : Bool) (os : List Offer), Inv s → p.rst = false → s.offers = .clock p go :: os →
    (p.refIn = true → s.refPrev = false → p.dlyIn = true → s.dlyPrev = false →
      ∃ t, step s = .next t ∧ t.ph.read s.pcur.toNat = some 0#16 ∧ t.ten = false) ∧
    (p.refIn = true → s.refPrev = false → (p.dlyIn = false ∨ s.dlyPrev = true) → p.tick = true →
      ∃ t, step s = .next t ∧ t.tcnt = 1#16 ∧ t.ten = true) ∧
    (s.ten = true → (p.refIn = false ∨ s.refPrev = true) → p.dlyIn = true → s.dlyPrev = false → p.tick = true →
      ∃ t, step s = .next t ∧ t.ph.read s.pcur.toNat = some s.tcnt ∧ t.tcnt = s.tcnt) ∧
    (s.initst = .running → p.adcValid = true → go = true → s.stage = .sum1 → inFlight s = some .volt →
      s.wp.toNat = s.cfg.voltageChannel + s.idx.toNat * s.cfg.channels → s.idx.toNat + 1 < s.cfg.spc →
      ∃ t, step s = .next t ∧ t.acc = s.acc + p.adcData.zeroExtend 32)

/-! ## Rules of the whole machine -/

/-- R139: the reset state of every admitted configuration meets the invariant. -/
def Obligations.ResetMeetsTheInvariant : Prop := ∀ c : Config, admitted c = true → Inv (State.resetOf c)

/-- R139: every step keeps the invariant of the reachable states. -/
def Obligations.EveryStepKeepsTheInvariant : Prop := ∀ s t : State, Inv s → step s = .next t → Inv t

/-- R105: nothing stops the block: in a state that meets the invariant every step answers a next state. -/
def Obligations.TheBlockNeverStops : Prop := ∀ s : State, Inv s → ∃ t, step s = .next t

/-- R30, R16: after its issue a command has the SEQ steps of R30's table left; each enabled SEQ step takes one off, and
no event and no refused word changes the number. A SEQ step that is not enabled leaves the state as it is by
assumption 2. -/
def Obligations.CommandsTakeTheirNumberOfSteps : Prop :=
  ∀ s t : State, Inv s →
    (∀ i, s.stage = .idle → i.wf s.cfg = true → (i = .init → s.initst = .uninit) → exec i s = .next t →
      seqLeft t = if i = .init then 2 else if i = .powr then 2 * s.cfg.spc + 1 else sumLen s.cfg i + 1) ∧
    (seqEnabled s = true → seqStep s = .next t → seqLeft s = seqLeft t + 1) ∧
    (seqEnabled s = false → seqStep s = .next t → t = s) ∧
    (∀ o os, s.offers = o :: os → isEvent o = true ∨ ((∃ w, o = .issue w) ∧ s.stage ≠ .idle) → step s = .next t →
      seqLeft t = seqLeft s)

/-- R108: while CalDone does not come, INIT stays held for ever: no fault, no response, no command is taken. -/
def Obligations.InitIsHeldWithoutCalDone : Prop :=
  ∀ (k : Nat) (s : State), Inv s → held s = true → s.offers.all keepsHeld = true →
    ∃ t, runSteps k s = .next t ∧ held t = true ∧ t.initst = .calibrating ∧ t.fault = s.fault ∧ t.fcause = s.fcause ∧
      t.history = s.history ∧ t.result = s.result ∧ t.op = s.op

/-- R27, R106: FAULT is sticky and FCAUSE keeps the first cause until reset. -/
def Obligations.FaultIsStickyUntilReset : Prop :=
  ∀ s t : State, step s = .next t → noReset s = true → s.fault = true → t.fault = true ∧ t.fcause = s.fcause

/-- R19, R70: INITST never moves back without a reset: nothing stops the conversions. -/
def Obligations.AcquisitionNeverStops : Prop :=
  ∀ s t : State, step s = .next t → noReset s = true → (initCode s.initst).toNat ≤ (initCode t.initst).toNat

/-- R32, R106, R140: a step presents at most one response: (0, RESULT) when the command in flight completes, (1, 0) when
an illegal command is refused. -/
def Obligations.AtMostOneResponsePerStep : Prop :=
  ∀ s t : State, step s = .next t →
    t.history = s.history ∨
    (t.history = ⟨false, t.result⟩ :: s.history ∧ s.stage = .fin ∧ t.stage = .idle) ∨
    (t.history = ⟨true, 0x00000000#32⟩ :: s.history ∧ s.stage = .idle ∧ t.stage = .idle ∧ t.fault = true)

/-- R13: only an item's owner writes it, in every event-level step that is not a reset. -/
def Obligations.OnlyTheOwnerWritesAnItem : Prop :=
  ∀ (s t : State) (o : Offer) (os : List Offer), s.offers = o :: os → step s = .next t → o ≠ .rst →
    (∀ p go, o ≠ .clock p go) →
    (t.sb ≠ s.sb ∨ t.wp ≠ s.wp → ∃ v, o = .conv v) ∧
    (t.calRdy ≠ s.calRdy → o = .calDone) ∧
    (t.ph ≠ s.ph ∨ t.pcur ≠ s.pcur → o = .dlyEdge) ∧
    (t.tcnt ≠ s.tcnt → o = .refEdge ∨ o = .tick) ∧
    (t.ten ≠ s.ten → o = .refEdge ∨ o = .dlyEdge) ∧
    (t.fault ≠ s.fault ∨ t.fcause ≠ s.fcause ∨ t.op ≠ s.op ∨ t.imm ≠ s.imm → ∃ w, o = .issue w) ∧
    (t.ccr ≠ s.ccr ∨ t.result ≠ s.result ∨ t.ft0 ≠ s.ft0 → o = .seq) ∧
    (t.initst ≠ s.initst ∨ t.acc ≠ s.acc ∨ t.idx ≠ s.idx ∨ t.stage ≠ s.stage → o = .seq ∨ ∃ w, o = .issue w)

/-- R5, R13: no step writes the configuration. -/
def Obligations.ConfigurationIsNeverWritten : Prop := ∀ s t : State, step s = .next t → t.cfg = s.cfg

/-! ## The races -/

/-- R79, R45: however captures fall between the reads, the sum over the history stays between the bounds the slots keep
during the run. -/
def Obligations.HistoryRaceStaysInRange : Prop :=
  ∀ (lo hi k : Nat) (s u : State), Inv s → s.stage = .idle →
    (∀ j v, j ≤ k → runSteps j s = .next v → DelaysWithin lo hi v) → runSteps k s = .next u → DelaySumWithin lo hi u

/-- R68, R45: the same for a channel of the sample buffer and the conversions. -/
def Obligations.SampleRaceStaysInRange : Prop :=
  ∀ (lo hi ch k : Nat) (s u : State), Inv s → s.stage = .idle →
    (∀ j v, j ≤ k → runSteps j s = .next v → ChannelWithin lo hi ch v) → runSteps k s = .next u →
    ChannelSumWithin lo hi ch u

/-- R79: an average of an exactly converted sum lies between the bounds of its slots. -/
def Obligations.AverageLiesBetweenItsBounds : Prop :=
  ∀ (lo hi n : Nat) (sum : Word), 1 ≤ n → lo * n ≤ sum.toNat → sum.toNat ≤ hi * n → sum.toNat < 2 ^ 24 → n < 2 ^ 24 →
    hi < 2 ^ 24 →
    f32Le (f32OfU32 lo) (avg sum n) = true ∧ f32Le (avg sum n) (f32OfU32 hi) = true

/-! ## Numbers -/

/-- R82, R84: product, quotient and difference are the finite value nearest to the exact one, ties to even. -/
def Obligations.ArithmeticIsCorrectlyRounded : Prop :=
  ∀ a b : F32, f32Finite a = true → f32Finite b = true →
    (f32Finite (f32Mul a b) = true → NearestTo (f32Mul a b) (f32Int a * f32Int b) (2 ^ 149)) ∧
    (f32Finite (f32Div a b) = true → 0 < f32Int b → NearestTo (f32Div a b) (f32Int a * 2 ^ 149) (f32Int b).toNat) ∧
    (f32Finite (f32Sub a b) = true → NearestTo (f32Sub a b) (f32Int a - f32Int b) 1)

/-- R83: the value nearest to the unsigned integer, ties to even, never negative; exact below 2^24, and whenever the
bits below the 24 leading ones are zero. -/
def Obligations.IntegersConvertToTheNearest : Prop :=
  ∀ n : Nat, n < 2 ^ 32 →
    NearestTo (f32OfU32 n) ((n : Int) * 2 ^ 149) 1 ∧ f32Sign (f32OfU32 n) = false ∧
    (∀ m k, n = m * 2 ^ k → m < 2 ^ 24 → f32Int (f32OfU32 n) = (n : Int) * 2 ^ 149)

/-- R67, R79: the average of identical values is exactly that value while the sum is below 2^24. -/
def Obligations.UniformAverageIsExact : Prop :=
  ∀ v n : Nat, 1 ≤ n → v ≤ 65535 → v * n < 2 ^ 24 → avg (BitVec.ofNat 32 (v * n)) n = f32OfU32 v

/-- R93: volts and amperes never decrease with the sum, are 0 for the sum 0, and the product of a full-scale count that is
a power of two with its factor is the physical maximum. -/
def Obligations.ScalingIsMonotoneAndExactAtTheEnds : Prop :=
  ∀ (c : Config) (a b : Word), admitted c = true → a.toNat ≤ b.toNat →
    f32Le (volts c a) (volts c b) = true ∧ f32Le (amperes c a) (amperes c b) = true ∧
    volts c 0#32 = 0x00000000#32 ∧ amperes c 0#32 = 0x00000000#32 ∧
    ((∃ k, f32Units c.adcFullScaleCount = 2 ^ k) →
      f32Mul c.adcFullScaleCount (kv c) = c.fullScaleVoltage ∧ f32Mul c.adcFullScaleCount (ki c) = c.fullScaleCurrent)

/-- R96: in every state that meets the invariant, a measuring command completes with a finite value that is not negative
and is at most 2^96. -/
def Obligations.MeasuredValuesAreFinite : Prop :=
  ∀ (s t : State) (i : Instr), Inv s → s.stage = .fin → inFlight s = some i →
    i ≠ .init → (∀ d, i ≠ .setd d) → i ≠ .adji → exec i s = .next t →
    f32Finite t.result = true ∧ f32Sign t.result = false ∧ f32Units t.result ≤ 2 ^ 96 * 2 ^ 149

/-- R88 says Avg is at most 65535.0. It is, while the sum converts exactly (assumption 24). -/
def Obligations.AverageIsAtMost65535 : Prop :=
  ∀ (sum : Word) (n : Nat), 1 ≤ n → n ≤ 256 → sum.toNat ≤ n * 65535 →
    f32Finite (avg sum n) = true ∧ f32Sign (avg sum n) = false ∧ f32Le (avg sum n) 0x477FFF00#32 = true

/-- R88's bound for every admitted size: it is not so, since the conversion of a sum of 2^24 or more may round up
(assumption 24). -/
def Obligations.AverageIsAtMost65535AtEverySize : Prop :=
  ∀ (sum : Word) (n : Nat), 1 ≤ n → n ≤ 65536 → sum.toNat ≤ n * 65535 → f32Le (avg sum n) 0x477FFF00#32 = true

/-- R101, R99: the map is a DutyCycle for the current of every sum, so the clamp of ADJI never changes it and trunc_i32
is always defined. -/
def Obligations.DutyMapIsADutyCycle : Prop :=
  ∀ (c : Config) (sum : Word), admitted c = true →
    ∃ d : Nat, d ≤ 1000 ∧ dutyMap c (amperes c sum) = some (d : Int) ∧ clamp (d : Int) = d

/-- R102 (a): at CURRENT_MIN the duty is 0 in every admitted configuration. -/
def Obligations.DutyIsZeroAtCurrentMin : Prop :=
  ∀ c : Config, admitted c = true → dutyMap c c.currentMin = some 0

/-- R102 (b), V-ADJI-C: at CURRENT_MAX the duty is 1000 in REFCFG, and 999 for the pair of R102. -/
def Obligations.DutyAtCurrentMaxFollowsTheFormula : Prop :=
  dutyMap Config.refcfg Config.refcfg.currentMax = some 1000 ∧
  dutyMap { Config.refcfg with currentMin := 0x41372218#32, currentMax := 0x426AD6F2#32 } 0x426AD6F2#32 = some 999

/-- R87: the scale constants are the rounded quotients of the configured ones (computed where they are used, assumption
20); both in REFCFG, where they are exact. -/
def Obligations.ScaleConstantsAreTheQuotients : Prop :=
  (∀ c : Config, kv c = f32Div c.fullScaleVoltage c.adcFullScaleCount ∧
    ki c = f32Div c.fullScaleCurrent c.adcFullScaleCount) ∧
  kv Config.refcfg = 0x3D660000#32 ∧ ki Config.refcfg = 0x3B200000#32 ∧
  f32Int 0x3D660000#32 * 2 ^ 12 = 230 * 2 ^ 149 ∧ f32Int 0x3B200000#32 * 2 ^ 12 = 10 * 2 ^ 149
end

