-- ==== Sys2Proof/Laws/Slots.lean ====
section
/-! SUPPORT. The laws of the two memories: a read after a write, and that every operation keeps the canonical form. -/

namespace Sys2Proof.Machine

theorem lookup_write (m : Memory) (i j : Nat) (v : Slot) :
    (m.write i v).lookup j = if j = i then (m.lookup j).map (fun _ => v) else m.lookup j := by
  unfold Memory.write
  induction m with
  | nil => simp
  | cons c m ih =>
    obtain ⟨k, x⟩ := c
    by_cases hjk : j = k
    · subst hjk
      by_cases hji : j = i
      · subst hji; simp
      · simp [hji]
    · have hb : (j == k) = false := by simpa using hjk
      have hb' : (j == (if k = i then (i, v) else (k, x)).1) = false := by
        by_cases hki : k = i <;> simp [hki] <;> first | exact hki ▸ hjk | exact hjk
      rw [List.map_cons, List.lookup_cons, hb', List.lookup_cons, hb]
      exact ih

/-- A read after a write to the same slot gives the value written, if the slot exists. -/
theorem read_write_same (m : Memory) (i : Nat) (v : Slot) :
    (m.write i v).read i = (m.read i).map fun _ => v := by
  simp [Memory.read, lookup_write]

/-- A write leaves every other slot alone. -/
theorem read_write_other (m : Memory) (i j : Nat) (v : Slot) (h : j ≠ i) :
    (m.write i v).read j = m.read j := by
  simp [Memory.read, lookup_write, h]

@[simp] theorem write_keys (m : Memory) (i : Nat) (v : Slot) :
    (m.write i v).map Prod.fst = m.map Prod.fst := by
  unfold Memory.write
  rw [List.map_map]
  apply List.map_congr_left
  intro c _
  by_cases h : c.1 = i <;> simp [h]

/-- A write keeps the canonical form. -/
@[simp] theorem write_wf (n : Nat) (m : Memory) (i : Nat) (v : Slot) : (m.write i v).wf n = m.wf n := by
  simp [Memory.wf]

/-- The memory made of listed values is canonical. -/
theorem ofValues_wf (vs : List Slot) : (Memory.ofValues vs).wf vs.length = true := by
  simp [Memory.wf, Memory.ofValues, List.map_fst_zip]

theorem lookup_isSome_iff (m : Memory) (i : Nat) : (m.lookup i).isSome = true ↔ i ∈ m.map Prod.fst := by
  induction m with
  | nil => simp
  | cons c m ih =>
    obtain ⟨k, x⟩ := c
    by_cases h : i = k
    · subst h; simp
    · have hb : (i == k) = false := by simpa using h
      simp only [List.lookup_cons, hb, List.map_cons, List.mem_cons, h, false_or]
      exact ih

/-- In a canonical memory of `n` slots exactly the indices below `n` can be read. -/
theorem read_isSome_iff (n : Nat) (m : Memory) (h : m.wf n = true) (i : Nat) :
    (m.read i).isSome = true ↔ i < n := by
  have hk : m.map Prod.fst = List.range n := by simpa [Memory.wf] using h
  unfold Memory.read
  rw [lookup_isSome_iff, hk, List.mem_range]

theorem exists_read (n : Nat) (m : Memory) (h : m.wf n = true) (i : Nat) (hi : i < n) :
    ∃ v, m.read i = some v :=
  Option.isSome_iff_exists.mp ((read_isSome_iff n m h i).mpr hi)

/-- What is read is listed. -/
theorem mem_of_read (m : Memory) (j : Nat) (v : Slot) (h : m.read j = some v) : (j, v) ∈ m := by
  unfold Memory.read at h
  induction m with
  | nil => cases h
  | cons c m ih =>
    obtain ⟨k, x⟩ := c
    rw [List.lookup_cons] at h
    by_cases hb : j = k
    · subst hb
      rw [beq_self_eq_true] at h
      cases h
      exact List.mem_cons_self
    · rw [show (j == k) = false by simpa using hb] at h
      exact List.mem_cons_of_mem _ (ih h)

theorem lookup_zip_range' (vs : List Slot) (k i : Nat) :
    ((List.range' k vs.length).zip vs).lookup (k + i) = vs[i]? := by
  induction vs generalizing k i with
  | nil => simp
  | cons v vs ih =>
    simp only [List.length_cons, List.range'_succ, List.zip_cons_cons, List.lookup_cons]
    cases i with
    | zero => simp
    | succ i =>
      have hb : (k + (i + 1) == k) = false := by simp
      simp only [hb]
      have := ih (k + 1) i
      rw [show k + (i + 1) = k + 1 + i by omega]
      simpa using this

/-- The memory made of listed values holds the i-th of them in slot i, and has no other slot. -/
@[simp] theorem read_ofValues (vs : List Slot) (i : Nat) : (Memory.ofValues vs).read i = vs[i]? := by
  have := lookup_zip_range' vs 0 i
  simpa [Memory.read, Memory.ofValues, List.range_eq_range'] using this

end Sys2Proof.Machine
end

