-- ==== Sys2Proof/Laws/State.lean ====
section
/-! SUPPORT. What each update of the state leaves in each field: one lemma per field per update, so that no proof unfolds a
record update. -/

namespace Sys2Proof.Machine

@[simp] theorem issue_sb (o : BitVec 4) (m : BitVec 16) (f : Stage) (s : State) : (issue o m f s).sb = s.sb := rfl
@[simp] theorem issue_wp (o : BitVec 4) (m : BitVec 16) (f : Stage) (s : State) : (issue o m f s).wp = s.wp := rfl
@[simp] theorem issue_initst (o : BitVec 4) (m : BitVec 16) (f : Stage) (s : State) : (issue o m f s).initst = s.initst := rfl
@[simp] theorem issue_calRdy (o : BitVec 4) (m : BitVec 16) (f : Stage) (s : State) : (issue o m f s).calRdy = s.calRdy := rfl
@[simp] theorem issue_ph (o : BitVec 4) (m : BitVec 16) (f : Stage) (s : State) : (issue o m f s).ph = s.ph := rfl
@[simp] theorem issue_pcur (o : BitVec 4) (m : BitVec 16) (f : Stage) (s : State) : (issue o m f s).pcur = s.pcur := rfl
@[simp] theorem issue_tcnt (o : BitVec 4) (m : BitVec 16) (f : Stage) (s : State) : (issue o m f s).tcnt = s.tcnt := rfl
@[simp] theorem issue_ten (o : BitVec 4) (m : BitVec 16) (f : Stage) (s : State) : (issue o m f s).ten = s.ten := rfl
@[simp] theorem issue_ccr (o : BitVec 4) (m : BitVec 16) (f : Stage) (s : State) : (issue o m f s).ccr = s.ccr := rfl
@[simp] theorem issue_result (o : BitVec 4) (m : BitVec 16) (f : Stage) (s : State) : (issue o m f s).result = s.result := rfl
@[simp] theorem issue_fault (o : BitVec 4) (m : BitVec 16) (f : Stage) (s : State) : (issue o m f s).fault = s.fault := rfl
@[simp] theorem issue_fcause (o : BitVec 4) (m : BitVec 16) (f : Stage) (s : State) : (issue o m f s).fcause = s.fcause := rfl
@[simp] theorem issue_op (o : BitVec 4) (m : BitVec 16) (f : Stage) (s : State) : (issue o m f s).op = o := rfl
@[simp] theorem issue_imm (o : BitVec 4) (m : BitVec 16) (f : Stage) (s : State) : (issue o m f s).imm = m := rfl
@[simp] theorem issue_acc (o : BitVec 4) (m : BitVec 16) (f : Stage) (s : State) : (issue o m f s).acc = 0#32 := rfl
@[simp] theorem issue_idx (o : BitVec 4) (m : BitVec 16) (f : Stage) (s : State) : (issue o m f s).idx = 0#16 := rfl
@[simp] theorem issue_stage (o : BitVec 4) (m : BitVec 16) (f : Stage) (s : State) : (issue o m f s).stage = f := rfl
@[simp] theorem issue_ft0 (o : BitVec 4) (m : BitVec 16) (f : Stage) (s : State) : (issue o m f s).ft0 = s.ft0 := rfl
@[simp] theorem issue_refPrev (o : BitVec 4) (m : BitVec 16) (f : Stage) (s : State) : (issue o m f s).refPrev = s.refPrev := rfl
@[simp] theorem issue_dlyPrev (o : BitVec 4) (m : BitVec 16) (f : Stage) (s : State) : (issue o m f s).dlyPrev = s.dlyPrev := rfl
@[simp] theorem issue_cfg (o : BitVec 4) (m : BitVec 16) (f : Stage) (s : State) : (issue o m f s).cfg = s.cfg := rfl
@[simp] theorem issue_history (o : BitVec 4) (m : BitVec 16) (f : Stage) (s : State) : (issue o m f s).history = s.history := rfl
@[simp] theorem issue_offers (o : BitVec 4) (m : BitVec 16) (f : Stage) (s : State) : (issue o m f s).offers = s.offers := rfl

@[simp] theorem complete_sb (v : Word) (s : State) : (complete v s).sb = s.sb := rfl
@[simp] theorem complete_wp (v : Word) (s : State) : (complete v s).wp = s.wp := rfl
@[simp] theorem complete_initst (v : Word) (s : State) : (complete v s).initst = s.initst := rfl
@[simp] theorem complete_calRdy (v : Word) (s : State) : (complete v s).calRdy = s.calRdy := rfl
@[simp] theorem complete_ph (v : Word) (s : State) : (complete v s).ph = s.ph := rfl
@[simp] theorem complete_pcur (v : Word) (s : State) : (complete v s).pcur = s.pcur := rfl
@[simp] theorem complete_tcnt (v : Word) (s : State) : (complete v s).tcnt = s.tcnt := rfl
@[simp] theorem complete_ten (v : Word) (s : State) : (complete v s).ten = s.ten := rfl
@[simp] theorem complete_ccr (v : Word) (s : State) : (complete v s).ccr = s.ccr := rfl
@[simp] theorem complete_result (v : Word) (s : State) : (complete v s).result = v := rfl
@[simp] theorem complete_fault (v : Word) (s : State) : (complete v s).fault = s.fault := rfl
@[simp] theorem complete_fcause (v : Word) (s : State) : (complete v s).fcause = s.fcause := rfl
@[simp] theorem complete_op (v : Word) (s : State) : (complete v s).op = s.op := rfl
@[simp] theorem complete_imm (v : Word) (s : State) : (complete v s).imm = s.imm := rfl
@[simp] theorem complete_acc (v : Word) (s : State) : (complete v s).acc = s.acc := rfl
@[simp] theorem complete_idx (v : Word) (s : State) : (complete v s).idx = s.idx := rfl
@[simp] theorem complete_stage (v : Word) (s : State) : (complete v s).stage = .idle := rfl
@[simp] theorem complete_ft0 (v : Word) (s : State) : (complete v s).ft0 = s.ft0 := rfl
@[simp] theorem complete_refPrev (v : Word) (s : State) : (complete v s).refPrev = s.refPrev := rfl
@[simp] theorem complete_dlyPrev (v : Word) (s : State) : (complete v s).dlyPrev = s.dlyPrev := rfl
@[simp] theorem complete_cfg (v : Word) (s : State) : (complete v s).cfg = s.cfg := rfl
@[simp] theorem complete_history (v : Word) (s : State) : (complete v s).history = ⟨false, v⟩ :: s.history := rfl
@[simp] theorem complete_offers (v : Word) (s : State) : (complete v s).offers = s.offers := rfl

@[simp] theorem raiseIllegal_sb (c : BitVec 3) (s : State) : (raiseIllegal c s).sb = s.sb := rfl
@[simp] theorem raiseIllegal_wp (c : BitVec 3) (s : State) : (raiseIllegal c s).wp = s.wp := rfl
@[simp] theorem raiseIllegal_initst (c : BitVec 3) (s : State) : (raiseIllegal c s).initst = s.initst := rfl
@[simp] theorem raiseIllegal_calRdy (c : BitVec 3) (s : State) : (raiseIllegal c s).calRdy = s.calRdy := rfl
@[simp] theorem raiseIllegal_ph (c : BitVec 3) (s : State) : (raiseIllegal c s).ph = s.ph := rfl
@[simp] theorem raiseIllegal_pcur (c : BitVec 3) (s : State) : (raiseIllegal c s).pcur = s.pcur := rfl
@[simp] theorem raiseIllegal_tcnt (c : BitVec 3) (s : State) : (raiseIllegal c s).tcnt = s.tcnt := rfl
@[simp] theorem raiseIllegal_ten (c : BitVec 3) (s : State) : (raiseIllegal c s).ten = s.ten := rfl
@[simp] theorem raiseIllegal_ccr (c : BitVec 3) (s : State) : (raiseIllegal c s).ccr = s.ccr := rfl
@[simp] theorem raiseIllegal_result (c : BitVec 3) (s : State) : (raiseIllegal c s).result = s.result := rfl
@[simp] theorem raiseIllegal_fault (c : BitVec 3) (s : State) : (raiseIllegal c s).fault = true := rfl
@[simp] theorem raiseIllegal_fcause (c : BitVec 3) (s : State) : (raiseIllegal c s).fcause = if s.fault then s.fcause else c := rfl
@[simp] theorem raiseIllegal_op (c : BitVec 3) (s : State) : (raiseIllegal c s).op = s.op := rfl
@[simp] theorem raiseIllegal_imm (c : BitVec 3) (s : State) : (raiseIllegal c s).imm = s.imm := rfl
@[simp] theorem raiseIllegal_acc (c : BitVec 3) (s : State) : (raiseIllegal c s).acc = s.acc := rfl
@[simp] theorem raiseIllegal_idx (c : BitVec 3) (s : State) : (raiseIllegal c s).idx = s.idx := rfl
@[simp] theorem raiseIllegal_stage (c : BitVec 3) (s : State) : (raiseIllegal c s).stage = s.stage := rfl
@[simp] theorem raiseIllegal_ft0 (c : BitVec 3) (s : State) : (raiseIllegal c s).ft0 = s.ft0 := rfl
@[simp] theorem raiseIllegal_refPrev (c : BitVec 3) (s : State) : (raiseIllegal c s).refPrev = s.refPrev := rfl
@[simp] theorem raiseIllegal_dlyPrev (c : BitVec 3) (s : State) : (raiseIllegal c s).dlyPrev = s.dlyPrev := rfl
@[simp] theorem raiseIllegal_cfg (c : BitVec 3) (s : State) : (raiseIllegal c s).cfg = s.cfg := rfl
@[simp] theorem raiseIllegal_history (c : BitVec 3) (s : State) : (raiseIllegal c s).history = ⟨true, 0#32⟩ :: s.history := rfl
@[simp] theorem raiseIllegal_offers (c : BitVec 3) (s : State) : (raiseIllegal c s).offers = s.offers := rfl

@[simp] theorem toFin_sb (a : Word) (s : State) : (toFin a s).sb = s.sb := rfl
@[simp] theorem toFin_wp (a : Word) (s : State) : (toFin a s).wp = s.wp := rfl
@[simp] theorem toFin_initst (a : Word) (s : State) : (toFin a s).initst = s.initst := rfl
@[simp] theorem toFin_calRdy (a : Word) (s : State) : (toFin a s).calRdy = s.calRdy := rfl
@[simp] theorem toFin_ph (a : Word) (s : State) : (toFin a s).ph = s.ph := rfl
@[simp] theorem toFin_pcur (a : Word) (s : State) : (toFin a s).pcur = s.pcur := rfl
@[simp] theorem toFin_tcnt (a : Word) (s : State) : (toFin a s).tcnt = s.tcnt := rfl
@[simp] theorem toFin_ten (a : Word) (s : State) : (toFin a s).ten = s.ten := rfl
@[simp] theorem toFin_ccr (a : Word) (s : State) : (toFin a s).ccr = s.ccr := rfl
@[simp] theorem toFin_result (a : Word) (s : State) : (toFin a s).result = s.result := rfl
@[simp] theorem toFin_fault (a : Word) (s : State) : (toFin a s).fault = s.fault := rfl
@[simp] theorem toFin_fcause (a : Word) (s : State) : (toFin a s).fcause = s.fcause := rfl
@[simp] theorem toFin_op (a : Word) (s : State) : (toFin a s).op = s.op := rfl
@[simp] theorem toFin_imm (a : Word) (s : State) : (toFin a s).imm = s.imm := rfl
@[simp] theorem toFin_acc (a : Word) (s : State) : (toFin a s).acc = a := rfl
@[simp] theorem toFin_idx (a : Word) (s : State) : (toFin a s).idx = s.idx := rfl
@[simp] theorem toFin_stage (a : Word) (s : State) : (toFin a s).stage = .fin := rfl
@[simp] theorem toFin_ft0 (a : Word) (s : State) : (toFin a s).ft0 = s.ft0 := rfl
@[simp] theorem toFin_refPrev (a : Word) (s : State) : (toFin a s).refPrev = s.refPrev := rfl
@[simp] theorem toFin_dlyPrev (a : Word) (s : State) : (toFin a s).dlyPrev = s.dlyPrev := rfl
@[simp] theorem toFin_cfg (a : Word) (s : State) : (toFin a s).cfg = s.cfg := rfl
@[simp] theorem toFin_history (a : Word) (s : State) : (toFin a s).history = s.history := rfl
@[simp] theorem toFin_offers (a : Word) (s : State) : (toFin a s).offers = s.offers := rfl

@[simp] theorem toSum2_sb (a : Word) (s : State) : (toSum2 a s).sb = s.sb := rfl
@[simp] theorem toSum2_wp (a : Word) (s : State) : (toSum2 a s).wp = s.wp := rfl
@[simp] theorem toSum2_initst (a : Word) (s : State) : (toSum2 a s).initst = s.initst := rfl
@[simp] theorem toSum2_calRdy (a : Word) (s : State) : (toSum2 a s).calRdy = s.calRdy := rfl
@[simp] theorem toSum2_ph (a : Word) (s : State) : (toSum2 a s).ph = s.ph := rfl
@[simp] theorem toSum2_pcur (a : Word) (s : State) : (toSum2 a s).pcur = s.pcur := rfl
@[simp] theorem toSum2_tcnt (a : Word) (s : State) : (toSum2 a s).tcnt = s.tcnt := rfl
@[simp] theorem toSum2_ten (a : Word) (s : State) : (toSum2 a s).ten = s.ten := rfl
@[simp] theorem toSum2_ccr (a : Word) (s : State) : (toSum2 a s).ccr = s.ccr := rfl
@[simp] theorem toSum2_result (a : Word) (s : State) : (toSum2 a s).result = s.result := rfl
@[simp] theorem toSum2_fault (a : Word) (s : State) : (toSum2 a s).fault = s.fault := rfl
@[simp] theorem toSum2_fcause (a : Word) (s : State) : (toSum2 a s).fcause = s.fcause := rfl
@[simp] theorem toSum2_op (a : Word) (s : State) : (toSum2 a s).op = s.op := rfl
@[simp] theorem toSum2_imm (a : Word) (s : State) : (toSum2 a s).imm = s.imm := rfl
@[simp] theorem toSum2_acc (a : Word) (s : State) : (toSum2 a s).acc = 0#32 := rfl
@[simp] theorem toSum2_idx (a : Word) (s : State) : (toSum2 a s).idx = s.idx := rfl
@[simp] theorem toSum2_stage (a : Word) (s : State) : (toSum2 a s).stage = .sum2 := rfl
@[simp] theorem toSum2_ft0 (a : Word) (s : State) : (toSum2 a s).ft0 = volts s.cfg a := by
  simp only [toSum2]
@[simp] theorem toSum2_refPrev (a : Word) (s : State) : (toSum2 a s).refPrev = s.refPrev := rfl
@[simp] theorem toSum2_dlyPrev (a : Word) (s : State) : (toSum2 a s).dlyPrev = s.dlyPrev := rfl
@[simp] theorem toSum2_cfg (a : Word) (s : State) : (toSum2 a s).cfg = s.cfg := rfl
@[simp] theorem toSum2_history (a : Word) (s : State) : (toSum2 a s).history = s.history := rfl
@[simp] theorem toSum2_offers (a : Word) (s : State) : (toSum2 a s).offers = s.offers := rfl

@[simp] theorem program_sb (d : Nat) (s : State) : (program d s).sb = s.sb := rfl
@[simp] theorem program_wp (d : Nat) (s : State) : (program d s).wp = s.wp := rfl
@[simp] theorem program_initst (d : Nat) (s : State) : (program d s).initst = s.initst := rfl
@[simp] theorem program_calRdy (d : Nat) (s : State) : (program d s).calRdy = s.calRdy := rfl
@[simp] theorem program_ph (d : Nat) (s : State) : (program d s).ph = s.ph := rfl
@[simp] theorem program_pcur (d : Nat) (s : State) : (program d s).pcur = s.pcur := rfl
@[simp] theorem program_tcnt (d : Nat) (s : State) : (program d s).tcnt = s.tcnt := rfl
@[simp] theorem program_ten (d : Nat) (s : State) : (program d s).ten = s.ten := rfl
@[simp] theorem program_ccr (d : Nat) (s : State) : (program d s).ccr = BitVec.ofNat 10 d := rfl
@[simp] theorem program_result (d : Nat) (s : State) : (program d s).result = BitVec.ofNat 32 d := rfl
@[simp] theorem program_fault (d : Nat) (s : State) : (program d s).fault = s.fault := rfl
@[simp] theorem program_fcause (d : Nat) (s : State) : (program d s).fcause = s.fcause := rfl
@[simp] theorem program_op (d : Nat) (s : State) : (program d s).op = s.op := rfl
@[simp] theorem program_imm (d : Nat) (s : State) : (program d s).imm = s.imm := rfl
@[simp] theorem program_acc (d : Nat) (s : State) : (program d s).acc = s.acc := rfl
@[simp] theorem program_idx (d : Nat) (s : State) : (program d s).idx = s.idx := rfl
@[simp] theorem program_stage (d : Nat) (s : State) : (program d s).stage = .idle := rfl
@[simp] theorem program_ft0 (d : Nat) (s : State) : (program d s).ft0 = s.ft0 := rfl
@[simp] theorem program_refPrev (d : Nat) (s : State) : (program d s).refPrev = s.refPrev := rfl
@[simp] theorem program_dlyPrev (d : Nat) (s : State) : (program d s).dlyPrev = s.dlyPrev := rfl
@[simp] theorem program_cfg (d : Nat) (s : State) : (program d s).cfg = s.cfg := rfl
@[simp] theorem program_history (d : Nat) (s : State) : (program d s).history = ⟨false, BitVec.ofNat 32 d⟩ :: s.history := rfl
@[simp] theorem program_offers (d : Nat) (s : State) : (program d s).offers = s.offers := rfl

@[simp] theorem refEdge_sb (s : State) : (refEdge s).sb = s.sb := rfl
@[simp] theorem refEdge_wp (s : State) : (refEdge s).wp = s.wp := rfl
@[simp] theorem refEdge_initst (s : State) : (refEdge s).initst = s.initst := rfl
@[simp] theorem refEdge_calRdy (s : State) : (refEdge s).calRdy = s.calRdy := rfl
@[simp] theorem refEdge_ph (s : State) : (refEdge s).ph = s.ph := rfl
@[simp] theorem refEdge_pcur (s : State) : (refEdge s).pcur = s.pcur := rfl
@[simp] theorem refEdge_tcnt (s : State) : (refEdge s).tcnt = 0#16 := rfl
@[simp] theorem refEdge_ten (s : State) : (refEdge s).ten = true := rfl
@[simp] theorem refEdge_ccr (s : State) : (refEdge s).ccr = s.ccr := rfl
@[simp] theorem refEdge_result (s : State) : (refEdge s).result = s.result := rfl
@[simp] theorem refEdge_fault (s : State) : (refEdge s).fault = s.fault := rfl
@[simp] theorem refEdge_fcause (s : State) : (refEdge s).fcause = s.fcause := rfl
@[simp] theorem refEdge_op (s : State) : (refEdge s).op = s.op := rfl
@[simp] theorem refEdge_imm (s : State) : (refEdge s).imm = s.imm := rfl
@[simp] theorem refEdge_acc (s : State) : (refEdge s).acc = s.acc := rfl
@[simp] theorem refEdge_idx (s : State) : (refEdge s).idx = s.idx := rfl
@[simp] theorem refEdge_stage (s : State) : (refEdge s).stage = s.stage := rfl
@[simp] theorem refEdge_ft0 (s : State) : (refEdge s).ft0 = s.ft0 := rfl
@[simp] theorem refEdge_refPrev (s : State) : (refEdge s).refPrev = s.refPrev := rfl
@[simp] theorem refEdge_dlyPrev (s : State) : (refEdge s).dlyPrev = s.dlyPrev := rfl
@[simp] theorem refEdge_cfg (s : State) : (refEdge s).cfg = s.cfg := rfl
@[simp] theorem refEdge_history (s : State) : (refEdge s).history = s.history := rfl
@[simp] theorem refEdge_offers (s : State) : (refEdge s).offers = s.offers := rfl

@[simp] theorem latchEdges_sb (p : Pins) (s : State) : (latchEdges p s).sb = s.sb := rfl
@[simp] theorem latchEdges_wp (p : Pins) (s : State) : (latchEdges p s).wp = s.wp := rfl
@[simp] theorem latchEdges_initst (p : Pins) (s : State) : (latchEdges p s).initst = s.initst := rfl
@[simp] theorem latchEdges_calRdy (p : Pins) (s : State) : (latchEdges p s).calRdy = s.calRdy := rfl
@[simp] theorem latchEdges_ph (p : Pins) (s : State) : (latchEdges p s).ph = s.ph := rfl
@[simp] theorem latchEdges_pcur (p : Pins) (s : State) : (latchEdges p s).pcur = s.pcur := rfl
@[simp] theorem latchEdges_tcnt (p : Pins) (s : State) : (latchEdges p s).tcnt = s.tcnt := rfl
@[simp] theorem latchEdges_ten (p : Pins) (s : State) : (latchEdges p s).ten = s.ten := rfl
@[simp] theorem latchEdges_ccr (p : Pins) (s : State) : (latchEdges p s).ccr = s.ccr := rfl
@[simp] theorem latchEdges_result (p : Pins) (s : State) : (latchEdges p s).result = s.result := rfl
@[simp] theorem latchEdges_fault (p : Pins) (s : State) : (latchEdges p s).fault = s.fault := rfl
@[simp] theorem latchEdges_fcause (p : Pins) (s : State) : (latchEdges p s).fcause = s.fcause := rfl
@[simp] theorem latchEdges_op (p : Pins) (s : State) : (latchEdges p s).op = s.op := rfl
@[simp] theorem latchEdges_imm (p : Pins) (s : State) : (latchEdges p s).imm = s.imm := rfl
@[simp] theorem latchEdges_acc (p : Pins) (s : State) : (latchEdges p s).acc = s.acc := rfl
@[simp] theorem latchEdges_idx (p : Pins) (s : State) : (latchEdges p s).idx = s.idx := rfl
@[simp] theorem latchEdges_stage (p : Pins) (s : State) : (latchEdges p s).stage = s.stage := rfl
@[simp] theorem latchEdges_ft0 (p : Pins) (s : State) : (latchEdges p s).ft0 = s.ft0 := rfl
@[simp] theorem latchEdges_refPrev (p : Pins) (s : State) : (latchEdges p s).refPrev = p.refIn := rfl
@[simp] theorem latchEdges_dlyPrev (p : Pins) (s : State) : (latchEdges p s).dlyPrev = p.dlyIn := rfl
@[simp] theorem latchEdges_cfg (p : Pins) (s : State) : (latchEdges p s).cfg = s.cfg := rfl
@[simp] theorem latchEdges_history (p : Pins) (s : State) : (latchEdges p s).history = s.history := rfl
@[simp] theorem latchEdges_offers (p : Pins) (s : State) : (latchEdges p s).offers = s.offers := rfl

@[simp] theorem resetBlock_sb (s : State) : (resetBlock s).sb = Memory.ofValues s.cfg.resetSB := rfl
@[simp] theorem resetBlock_wp (s : State) : (resetBlock s).wp = 0#16 := rfl
@[simp] theorem resetBlock_initst (s : State) : (resetBlock s).initst = .uninit := rfl
@[simp] theorem resetBlock_calRdy (s : State) : (resetBlock s).calRdy = false := rfl
@[simp] theorem resetBlock_ph (s : State) : (resetBlock s).ph = Memory.ofValues s.cfg.resetPH := rfl
@[simp] theorem resetBlock_pcur (s : State) : (resetBlock s).pcur = 0#16 := rfl
@[simp] theorem resetBlock_tcnt (s : State) : (resetBlock s).tcnt = 0#16 := rfl
@[simp] theorem resetBlock_ten (s : State) : (resetBlock s).ten = false := rfl
@[simp] theorem resetBlock_ccr (s : State) : (resetBlock s).ccr = 0#10 := rfl
@[simp] theorem resetBlock_result (s : State) : (resetBlock s).result = 0#32 := rfl
@[simp] theorem resetBlock_fault (s : State) : (resetBlock s).fault = false := rfl
@[simp] theorem resetBlock_fcause (s : State) : (resetBlock s).fcause = 0#3 := rfl
@[simp] theorem resetBlock_op (s : State) : (resetBlock s).op = 0#4 := rfl
@[simp] theorem resetBlock_imm (s : State) : (resetBlock s).imm = 0#16 := rfl
@[simp] theorem resetBlock_acc (s : State) : (resetBlock s).acc = 0#32 := rfl
@[simp] theorem resetBlock_idx (s : State) : (resetBlock s).idx = 0#16 := rfl
@[simp] theorem resetBlock_stage (s : State) : (resetBlock s).stage = .idle := rfl
@[simp] theorem resetBlock_ft0 (s : State) : (resetBlock s).ft0 = 0#32 := rfl
@[simp] theorem resetBlock_refPrev (s : State) : (resetBlock s).refPrev = true := rfl
@[simp] theorem resetBlock_dlyPrev (s : State) : (resetBlock s).dlyPrev = true := rfl
@[simp] theorem resetBlock_cfg (s : State) : (resetBlock s).cfg = s.cfg := rfl
@[simp] theorem resetBlock_history (s : State) : (resetBlock s).history = s.history := rfl
@[simp] theorem resetBlock_offers (s : State) : (resetBlock s).offers = s.offers := rfl

@[simp] theorem placeWord_sb (b w : Nat) (s : State) : (placeWord b w s).sb = s.sb := rfl
@[simp] theorem placeWord_wp (b w : Nat) (s : State) : (placeWord b w s).wp = s.wp := rfl
@[simp] theorem placeWord_initst (b w : Nat) (s : State) : (placeWord b w s).initst = s.initst := rfl
@[simp] theorem placeWord_calRdy (b w : Nat) (s : State) : (placeWord b w s).calRdy = s.calRdy := rfl
@[simp] theorem placeWord_ph (b w : Nat) (s : State) : (placeWord b w s).ph = s.ph := rfl
@[simp] theorem placeWord_pcur (b w : Nat) (s : State) : (placeWord b w s).pcur = s.pcur := rfl
@[simp] theorem placeWord_tcnt (b w : Nat) (s : State) : (placeWord b w s).tcnt = s.tcnt := rfl
@[simp] theorem placeWord_ten (b w : Nat) (s : State) : (placeWord b w s).ten = s.ten := rfl
@[simp] theorem placeWord_ccr (b w : Nat) (s : State) : (placeWord b w s).ccr = s.ccr := rfl
@[simp] theorem placeWord_result (b w : Nat) (s : State) : (placeWord b w s).result = s.result := rfl
@[simp] theorem placeWord_fault (b w : Nat) (s : State) : (placeWord b w s).fault = s.fault := rfl
@[simp] theorem placeWord_fcause (b w : Nat) (s : State) : (placeWord b w s).fcause = s.fcause := rfl
@[simp] theorem placeWord_op (b w : Nat) (s : State) : (placeWord b w s).op = s.op := rfl
@[simp] theorem placeWord_imm (b w : Nat) (s : State) : (placeWord b w s).imm = s.imm := rfl
@[simp] theorem placeWord_acc (b w : Nat) (s : State) : (placeWord b w s).acc = s.acc := rfl
@[simp] theorem placeWord_idx (b w : Nat) (s : State) : (placeWord b w s).idx = s.idx := rfl
@[simp] theorem placeWord_stage (b w : Nat) (s : State) : (placeWord b w s).stage = .idle := rfl
@[simp] theorem placeWord_ft0 (b w : Nat) (s : State) : (placeWord b w s).ft0 = s.ft0 := rfl
@[simp] theorem placeWord_refPrev (b w : Nat) (s : State) : (placeWord b w s).refPrev = s.refPrev := rfl
@[simp] theorem placeWord_dlyPrev (b w : Nat) (s : State) : (placeWord b w s).dlyPrev = s.dlyPrev := rfl
@[simp] theorem placeWord_cfg (b w : Nat) (s : State) : (placeWord b w s).cfg = s.cfg := rfl
@[simp] theorem placeWord_history (b w : Nat) (s : State) : (placeWord b w s).history = s.history := rfl
@[simp] theorem placeWord_offers (b w : Nat) (s : State) : (placeWord b w s).offers = .issue (BitVec.ofNat 32 (w % 2 ^ b)) :: s.offers := rfl

@[simp] theorem calDone_sb (s : State) : (calDone s).sb = s.sb := by
  unfold calDone; cases h : calDoneEnabled s <;> simp
@[simp] theorem calDone_wp (s : State) : (calDone s).wp = s.wp := by
  unfold calDone; cases h : calDoneEnabled s <;> simp
@[simp] theorem calDone_initst (s : State) : (calDone s).initst = s.initst := by
  unfold calDone; cases h : calDoneEnabled s <;> simp
@[simp] theorem calDone_calRdy (s : State) : (calDone s).calRdy = (calDoneEnabled s || s.calRdy) := by
  unfold calDone; cases h : calDoneEnabled s <;> simp
@[simp] theorem calDone_ph (s : State) : (calDone s).ph = s.ph := by
  unfold calDone; cases h : calDoneEnabled s <;> simp
@[simp] theorem calDone_pcur (s : State) : (calDone s).pcur = s.pcur := by
  unfold calDone; cases h : calDoneEnabled s <;> simp
@[simp] theorem calDone_tcnt (s : State) : (calDone s).tcnt = s.tcnt := by
  unfold calDone; cases h : calDoneEnabled s <;> simp
@[simp] theorem calDone_ten (s : State) : (calDone s).ten = s.ten := by
  unfold calDone; cases h : calDoneEnabled s <;> simp
@[simp] theorem calDone_ccr (s : State) : (calDone s).ccr = s.ccr := by
  unfold calDone; cases h : calDoneEnabled s <;> simp
@[simp] theorem calDone_result (s : State) : (calDone s).result = s.result := by
  unfold calDone; cases h : calDoneEnabled s <;> simp
@[simp] theorem calDone_fault (s : State) : (calDone s).fault = s.fault := by
  unfold calDone; cases h : calDoneEnabled s <;> simp
@[simp] theorem calDone_fcause (s : State) : (calDone s).fcause = s.fcause := by
  unfold calDone; cases h : calDoneEnabled s <;> simp
@[simp] theorem calDone_op (s : State) : (calDone s).op = s.op := by
  unfold calDone; cases h : calDoneEnabled s <;> simp
@[simp] theorem calDone_imm (s : State) : (calDone s).imm = s.imm := by
  unfold calDone; cases h : calDoneEnabled s <;> simp
@[simp] theorem calDone_acc (s : State) : (calDone s).acc = s.acc := by
  unfold calDone; cases h : calDoneEnabled s <;> simp
@[simp] theorem calDone_idx (s : State) : (calDone s).idx = s.idx := by
  unfold calDone; cases h : calDoneEnabled s <;> simp
@[simp] theorem calDone_stage (s : State) : (calDone s).stage = s.stage := by
  unfold calDone; cases h : calDoneEnabled s <;> simp
@[simp] theorem calDone_ft0 (s : State) : (calDone s).ft0 = s.ft0 := by
  unfold calDone; cases h : calDoneEnabled s <;> simp
@[simp] theorem calDone_refPrev (s : State) : (calDone s).refPrev = s.refPrev := by
  unfold calDone; cases h : calDoneEnabled s <;> simp
@[simp] theorem calDone_dlyPrev (s : State) : (calDone s).dlyPrev = s.dlyPrev := by
  unfold calDone; cases h : calDoneEnabled s <;> simp
@[simp] theorem calDone_cfg (s : State) : (calDone s).cfg = s.cfg := by
  unfold calDone; cases h : calDoneEnabled s <;> simp
@[simp] theorem calDone_history (s : State) : (calDone s).history = s.history := by
  unfold calDone; cases h : calDoneEnabled s <;> simp
@[simp] theorem calDone_offers (s : State) : (calDone s).offers = s.offers := by
  unfold calDone; cases h : calDoneEnabled s <;> simp

@[simp] theorem tick_sb (s : State) : (tick s).sb = s.sb := by
  unfold tick; cases h : tickEnabled s <;> simp
@[simp] theorem tick_wp (s : State) : (tick s).wp = s.wp := by
  unfold tick; cases h : tickEnabled s <;> simp
@[simp] theorem tick_initst (s : State) : (tick s).initst = s.initst := by
  unfold tick; cases h : tickEnabled s <;> simp
@[simp] theorem tick_calRdy (s : State) : (tick s).calRdy = s.calRdy := by
  unfold tick; cases h : tickEnabled s <;> simp
@[simp] theorem tick_ph (s : State) : (tick s).ph = s.ph := by
  unfold tick; cases h : tickEnabled s <;> simp
@[simp] theorem tick_pcur (s : State) : (tick s).pcur = s.pcur := by
  unfold tick; cases h : tickEnabled s <;> simp
@[simp] theorem tick_tcnt (s : State) : (tick s).tcnt = if tickEnabled s then s.tcnt + 1#16 else s.tcnt := by
  unfold tick; cases h : tickEnabled s <;> simp
@[simp] theorem tick_ten (s : State) : (tick s).ten = s.ten := by
  unfold tick; cases h : tickEnabled s <;> simp
@[simp] theorem tick_ccr (s : State) : (tick s).ccr = s.ccr := by
  unfold tick; cases h : tickEnabled s <;> simp
@[simp] theorem tick_result (s : State) : (tick s).result = s.result := by
  unfold tick; cases h : tickEnabled s <;> simp
@[simp] theorem tick_fault (s : State) : (tick s).fault = s.fault := by
  unfold tick; cases h : tickEnabled s <;> simp
@[simp] theorem tick_fcause (s : State) : (tick s).fcause = s.fcause := by
  unfold tick; cases h : tickEnabled s <;> simp
@[simp] theorem tick_op (s : State) : (tick s).op = s.op := by
  unfold tick; cases h : tickEnabled s <;> simp
@[simp] theorem tick_imm (s : State) : (tick s).imm = s.imm := by
  unfold tick; cases h : tickEnabled s <;> simp
@[simp] theorem tick_acc (s : State) : (tick s).acc = s.acc := by
  unfold tick; cases h : tickEnabled s <;> simp
@[simp] theorem tick_idx (s : State) : (tick s).idx = s.idx := by
  unfold tick; cases h : tickEnabled s <;> simp
@[simp] theorem tick_stage (s : State) : (tick s).stage = s.stage := by
  unfold tick; cases h : tickEnabled s <;> simp
@[simp] theorem tick_ft0 (s : State) : (tick s).ft0 = s.ft0 := by
  unfold tick; cases h : tickEnabled s <;> simp
@[simp] theorem tick_refPrev (s : State) : (tick s).refPrev = s.refPrev := by
  unfold tick; cases h : tickEnabled s <;> simp
@[simp] theorem tick_dlyPrev (s : State) : (tick s).dlyPrev = s.dlyPrev := by
  unfold tick; cases h : tickEnabled s <;> simp
@[simp] theorem tick_cfg (s : State) : (tick s).cfg = s.cfg := by
  unfold tick; cases h : tickEnabled s <;> simp
@[simp] theorem tick_history (s : State) : (tick s).history = s.history := by
  unfold tick; cases h : tickEnabled s <;> simp
@[simp] theorem tick_offers (s : State) : (tick s).offers = s.offers := by
  unfold tick; cases h : tickEnabled s <;> simp

end Sys2Proof.Machine
end

