-- ==== Sys2Proof/Laws/Ops.lean ====
section
/-! SUPPORT. One lemma for each shared operation that says everything it can do. -/

namespace Sys2Proof.Machine

@[simp] theorem andThen_next (s : State) (f : State → Result) : andThen (.next s) f = f s := rfl
@[simp] theorem andThen_fault (e : Fault) (f : State → Result) : andThen (.fault e) f = .fault e := rfl
@[simp] theorem andThen_refused (e : Refusal) (f : State → Result) : andThen (.refused e) f = .refused e := rfl

theorem andThen_eq_next {r : Result} {f : State → Result} {t : State} :
    andThen r f = .next t ↔ ∃ s, r = .next s ∧ f s = .next t := by
  cases r <;> simp

theorem andThen_assoc (r : Result) (f g : State → Result) :
    andThen (andThen r f) g = andThen r fun s => andThen (f s) g := by
  cases r <;> rfl

@[simp] theorem runSteps_zero (s : State) : runSteps 0 s = .next s := rfl
theorem runSteps_succ (k : Nat) (s : State) : runSteps (k + 1) s = andThen (step s) (runSteps k) := rfl

/-- Steps compose. -/
theorem runSteps_add (j k : Nat) (s : State) : runSteps (j + k) s = andThen (runSteps j s) (runSteps k) := by
  induction j generalizing s with
  | zero => simp
  | succ j ih =>
    rw [Nat.succ_add, runSteps_succ, runSteps_succ, andThen_assoc]
    cases step s <;> simp [ih]

@[simp] theorem sumStep_none (len : Nat) (last : Word → State → State) (s : State) :
    sumStep none len last s = .fault .noSuchSlot := rfl

theorem sumStep_some (v : Slot) (len : Nat) (last : Word → State → State) (s : State) :
    sumStep (some v) len last s = .next
      (if s.idx.toNat + 1 < len then { s with acc := s.acc + v.zeroExtend 32, idx := s.idx + 1#16 }
       else last (s.acc + v.zeroExtend 32) { s with idx := 0#16 }) := by
  simp only [sumStep]
  split <;> rfl

/-- What a summation step can do: read one slot that exists, and go on or end. -/
theorem sumStep_eq_next {e : Option Slot} {len : Nat} {last : Word → State → State} {s t : State}
    (h : sumStep e len last s = .next t) :
    ∃ v, e = some v ∧
      ((s.idx.toNat + 1 < len ∧ t = { s with acc := s.acc + v.zeroExtend 32, idx := s.idx + 1#16 }) ∨
       (len ≤ s.idx.toNat + 1 ∧ t = last (s.acc + v.zeroExtend 32) { s with idx := 0#16 })) := by
  cases e with
  | none => simp at h
  | some v =>
    rw [sumStep_some] at h
    refine ⟨v, rfl, ?_⟩
    by_cases hlt : s.idx.toNat + 1 < len
    · rw [if_pos hlt] at h; exact .inl ⟨hlt, by cases h; rfl⟩
    · rw [if_neg hlt] at h; exact .inr ⟨by omega, by cases h; rfl⟩

/-- The slot that command `i` reads in a summation step (40_acquisition.md R62). -/
def operandSlot (i : Instr) (s : State) : Option Slot :=
  match i with
  | .init => none
  | .setd _ => none
  | .phavg => delaySlot s
  | .phms => delaySlot s
  | .rdavg _ => channelSlot (chOperand s.imm) s
  | .volt => channelSlot s.cfg.voltageChannel s
  | .curr => channelSlot s.cfg.currentChannel s
  | .adji => channelSlot s.cfg.currentChannel s
  | .powr => channelSlot (if s.stage = .sum1 then s.cfg.voltageChannel else s.cfg.currentChannel) s

/-- The value a measuring command completes with (R66, R77, R89 to R92). -/
def measuredValue (i : Instr) (s : State) : F32 :=
  match i with
  | .rdavg _ => avg s.acc s.cfg.spc
  | .phavg => avg s.acc s.cfg.n
  | .volt => volts s.cfg s.acc
  | .curr => amperes s.cfg s.acc
  | .powr => f32Mul s.ft0 (amperes s.cfg s.acc)
  | .phms => f32Div (avg s.acc s.cfg.n) s.cfg.msConversionFactor
  | .init => 0#32
  | .setd _ => 0#32
  | .adji => 0#32

/-- What one step of command `i` from `s` can lead to. -/
inductive CommandStep (i : Instr) (s : State) : State → Prop where
  | initStarts (hi : i = .init) (hs : s.stage = .idle) (hu : s.initst = .uninit) :
      CommandStep i s { issue 1#4 0#16 .waitcal s with initst := .calibrating }
  | starts (hi : i ≠ .init) (hs : s.stage = .idle) (hw : i.wf s.cfg = true) :
      CommandStep i s (issue (opcodeOf i) (immOf i) (if opcodeOf i = 8#4 then .fin else .sum1) s)
  | illegal (c : BitVec 3) (hs : s.stage = .idle)
      (hc : i = .init ∧ s.initst ≠ .uninit ∧ c = causeInitRepeated ∨ i.wf s.cfg = false ∧ c = causeChannelRange) :
      CommandStep i s (raiseIllegal c s)
  | waits (hi : i = .init) (hs : s.stage = .waitcal) (hr : s.calRdy = false) : CommandStep i s s
  | calibrated (hi : i = .init) (hs : s.stage = .waitcal) (hr : s.calRdy = true) :
      CommandStep i s { s with initst := .running, stage := .fin }
  | sums (v : Slot) (hs : summing s.stage = true) (hi : stageOfCommand i s.stage = true)
      (hv : operandSlot i s = some v) (hl : s.idx.toNat + 1 < sumLen s.cfg i) :
      CommandStep i s { s with acc := s.acc + v.zeroExtend 32, idx := s.idx + 1#16 }
  | sumEnds (v : Slot) (hs : summing s.stage = true) (hi : stageOfCommand i s.stage = true)
      (hv : operandSlot i s = some v) (hl : sumLen s.cfg i ≤ s.idx.toNat + 1) (hp : ¬(i = .powr ∧ s.stage = .sum1)) :
      CommandStep i s (toFin (s.acc + v.zeroExtend 32) { s with idx := 0#16 })
  | firstSumEnds (v : Slot) (hs : s.stage = .sum1) (hi : i = .powr)
      (hv : operandSlot i s = some v) (hl : sumLen s.cfg i ≤ s.idx.toNat + 1) :
      CommandStep i s (toSum2 (s.acc + v.zeroExtend 32) { s with idx := 0#16 })
  | completes (v : F32) (hs : s.stage = .fin) (hd : ∀ d, i ≠ .setd d) (ha : i ≠ .adji) (hv : v = measuredValue i s) :
      CommandStep i s (complete v s)
  | programs (d : Int) (hs : s.stage = .fin)
      (hd : (∃ e, i = .setd e) ∧ d = dutyOperand s.imm ∨ i = .adji ∧ dutyMap s.cfg (amperes s.cfg s.acc) = some d) :
      CommandStep i s (program (clamp d) s)

@[simp] theorem programMapped_some (d : Int) (s : State) :
    programMapped (some d) s = .next (program (clamp d) s) := rfl

theorem programMapped_eq_next {o : Option Int} {s t : State} (h : programMapped o s = .next t) :
    ∃ d, o = some d ∧ t = program (clamp d) s := by
  cases o with
  | none => cases h
  | some d => cases h; exact ⟨d, rfl, rfl⟩

theorem execInit_eq_next {s t : State} (h : execInit s = .next t) : CommandStep .init s t := by
  cases hs : s.stage <;> simp only [execInit, hs] at h
  case idle =>
    split at h <;> cases h
    · exact .initStarts rfl hs ‹_›
    · exact .illegal _ hs (.inl ⟨rfl, ‹_›, rfl⟩)
  case waitcal =>
    split at h <;> cases h
    · exact .calibrated rfl hs ‹_›
    · exact .waits rfl hs (by simp_all)
  case fin => cases h; exact .completes _ hs (by simp) (by simp) rfl
  all_goals cases h

theorem execRdavg_eq_next {ch : Slot} {s t : State} (h : execRdavg ch s = .next t) : CommandStep (.rdavg ch) s t := by
  cases hs : s.stage <;> simp only [execRdavg, hs] at h
  case idle =>
    split at h <;> cases h
    · exact .starts (by simp) hs (by simpa [Instr.wf, chOperand] using ‹_›)
    · exact .illegal _ hs (.inr ⟨by simp_all [Instr.wf, chOperand], rfl⟩)
  case sum1 =>
    obtain ⟨v, hv, ⟨hl, rfl⟩ | ⟨hl, rfl⟩⟩ := sumStep_eq_next h
    · exact .sums v (by simp [hs, summing]) (by simp [hs, stageOfCommand]) hv hl
    · exact .sumEnds v (by simp [hs, summing]) (by simp [hs, stageOfCommand]) hv hl (by simp)
  case fin => cases h; exact .completes _ hs (by simp) (by simp) (by simp only [measuredValue])
  all_goals cases h

theorem execSetd_eq_next {d : Slot} {s t : State} (h : execSetd d s = .next t) : CommandStep (.setd d) s t := by
  cases hs : s.stage <;> simp only [execSetd, hs] at h
  case idle => cases h; exact .starts (by simp) hs rfl
  case fin => cases h; exact .programs _ hs (.inl ⟨⟨d, rfl⟩, rfl⟩)
  all_goals cases h

theorem execPowr_eq_next {s t : State} (h : execPowr s = .next t) : CommandStep .powr s t := by
  cases hs : s.stage <;> simp only [execPowr, hs] at h
  case idle => cases h; exact .starts (by simp) hs rfl
  case sum1 =>
    obtain ⟨v, hv, ⟨hl, rfl⟩ | ⟨hl, rfl⟩⟩ := sumStep_eq_next h
    · exact .sums v (by simp [hs, summing]) (by simp [hs, stageOfCommand]) (by simp [operandSlot, hs, hv]) hl
    · exact .firstSumEnds v hs rfl (by simp [operandSlot, hs, hv]) hl
  case sum2 =>
    obtain ⟨v, hv, ⟨hl, rfl⟩ | ⟨hl, rfl⟩⟩ := sumStep_eq_next h
    · exact .sums v (by simp [hs, summing]) (by simp [hs, stageOfCommand]) (by simp [operandSlot, hs, hv]) hl
    · exact .sumEnds v (by simp [hs, summing]) (by simp [hs, stageOfCommand]) (by simp [operandSlot, hs, hv]) hl
        (by simp [hs])
  case fin => cases h; exact .completes _ hs (by simp) (by simp) (by simp only [measuredValue])
  all_goals cases h

theorem execAdji_eq_next {s t : State} (h : execAdji s = .next t) : CommandStep .adji s t := by
  cases hs : s.stage <;> simp only [execAdji, hs] at h
  case idle => cases h; exact .starts (by simp) hs rfl
  case sum1 =>
    obtain ⟨v, hv, ⟨hl, rfl⟩ | ⟨hl, rfl⟩⟩ := sumStep_eq_next h
    · exact .sums v (by simp [hs, summing]) (by simp [hs, stageOfCommand]) hv hl
    · exact .sumEnds v (by simp [hs, summing]) (by simp [hs, stageOfCommand]) hv hl (by simp)
  case fin =>
    obtain ⟨d, hd, rfl⟩ := programMapped_eq_next h
    exact .programs d hs (.inr ⟨rfl, hd⟩)
  all_goals cases h

theorem execPhavg_eq_next {s t : State} (h : execPhavg s = .next t) : CommandStep .phavg s t := by
  cases hs : s.stage <;> simp only [execPhavg, hs] at h
  case idle => cases h; exact .starts (by simp) hs rfl
  case sum1 =>
    obtain ⟨v, hv, ⟨hl, rfl⟩ | ⟨hl, rfl⟩⟩ := sumStep_eq_next h
    · exact .sums v (by simp [hs, summing]) (by simp [hs, stageOfCommand]) hv hl
    · exact .sumEnds v (by simp [hs, summing]) (by simp [hs, stageOfCommand]) hv hl (by simp)
  case fin => cases h; exact .completes _ hs (by simp) (by simp) (by simp only [measuredValue])
  all_goals cases h

theorem execVolt_eq_next {s t : State} (h : execVolt s = .next t) : CommandStep .volt s t := by
  cases hs : s.stage <;> simp only [execVolt, hs] at h
  case idle => cases h; exact .starts (by simp) hs rfl
  case sum1 =>
    obtain ⟨v, hv, ⟨hl, rfl⟩ | ⟨hl, rfl⟩⟩ := sumStep_eq_next h
    · exact .sums v (by simp [hs, summing]) (by simp [hs, stageOfCommand]) hv hl
    · exact .sumEnds v (by simp [hs, summing]) (by simp [hs, stageOfCommand]) hv hl (by simp)
  case fin => cases h; exact .completes _ hs (by simp) (by simp) (by simp only [measuredValue])
  all_goals cases h

theorem execCurr_eq_next {s t : State} (h : execCurr s = .next t) : CommandStep .curr s t := by
  cases hs : s.stage <;> simp only [execCurr, hs] at h
  case idle => cases h; exact .starts (by simp) hs rfl
  case sum1 =>
    obtain ⟨v, hv, ⟨hl, rfl⟩ | ⟨hl, rfl⟩⟩ := sumStep_eq_next h
    · exact .sums v (by simp [hs, summing]) (by simp [hs, stageOfCommand]) hv hl
    · exact .sumEnds v (by simp [hs, summing]) (by simp [hs, stageOfCommand]) hv hl (by simp)
  case fin => cases h; exact .completes _ hs (by simp) (by simp) (by simp only [measuredValue])
  all_goals cases h

theorem execPhms_eq_next {s t : State} (h : execPhms s = .next t) : CommandStep .phms s t := by
  cases hs : s.stage <;> simp only [execPhms, hs] at h
  case idle => cases h; exact .starts (by simp) hs rfl
  case sum1 =>
    obtain ⟨v, hv, ⟨hl, rfl⟩ | ⟨hl, rfl⟩⟩ := sumStep_eq_next h
    · exact .sums v (by simp [hs, summing]) (by simp [hs, stageOfCommand]) hv hl
    · exact .sumEnds v (by simp [hs, summing]) (by simp [hs, stageOfCommand]) hv hl (by simp)
  case fin => cases h; exact .completes _ hs (by simp) (by simp) (by simp only [measuredValue])
  all_goals cases h

/-- The inversion lemma of `exec`: a command's step is one of the above, whatever the state. -/
theorem exec_eq_next {i : Instr} {s t : State} (h : exec i s = .next t) : CommandStep i s t :=
  match i with
  | .init => execInit_eq_next h
  | .rdavg _ => execRdavg_eq_next h
  | .phavg => execPhavg_eq_next h
  | .volt => execVolt_eq_next h
  | .curr => execCurr_eq_next h
  | .powr => execPowr_eq_next h
  | .phms => execPhms_eq_next h
  | .setd _ => execSetd_eq_next h
  | .adji => execAdji_eq_next h

end Sys2Proof.Machine
end

