-- ==== Sys2Proof/Laws/Params.lean ====
section
/-! SUPPORT. What an admitted configuration gives a proof: each condition of 00_scope.md R6 by name. -/

namespace Sys2Proof.Machine

/-- The conditions of R6, unpacked. -/
structure AdmittedFacts (c : Config) : Prop where
  channels_pos : 1 ≤ c.channels
  spc_pos : 1 ≤ c.spc
  n_pos : 1 ≤ c.n
  bufLen_le : bufLen c ≤ 65536
  n_le : c.n ≤ 65536
  voltage_lt : c.voltageChannel < c.channels
  current_lt : c.currentChannel < c.channels
  spc_fits : c.spc * 65535 < 2 ^ 32
  n_fits : c.n * 65535 < 2 ^ 32
  count_ok : finitePos c.adcFullScaleCount = true
  voltage_ok : finitePos c.fullScaleVoltage = true
  current_ok : finitePos c.fullScaleCurrent = true
  factor_ok : finitePos c.msConversionFactor = true
  min_ok : finitePos c.currentMin = true
  max_ok : finitePos c.currentMax = true
  min_lt_max : f32Lt c.currentMin c.currentMax = true
  kv_ok : scaleOk (kv c) = true
  ki_ok : scaleOk (ki c) = true
  factor_scale : scaleOk c.msConversionFactor = true
  resetSB_length : c.resetSB.length = bufLen c
  resetPH_length : c.resetPH.length = c.n

theorem admitted_facts {c : Config} (h : admitted c = true) : AdmittedFacts c := by
  simp only [admitted, sizesOk, widthsOk, constantsOk, resetContentsOk, Bool.and_eq_true, decide_eq_true_eq] at h
  obtain ⟨⟨⟨⟨⟨⟨⟨⟨⟨h1, h2⟩, h3⟩, h4⟩, h5⟩, h6⟩, h7⟩, ⟨⟨⟨⟨⟨w1, w2⟩, w3⟩, w4⟩, w5⟩, w6⟩⟩,
    ⟨⟨⟨⟨⟨⟨⟨⟨⟨k1, k2⟩, k3⟩, k4⟩, k5⟩, k6⟩, k7⟩, k8⟩, k9⟩, k10⟩⟩, r1, r2⟩ := h
  have f1 : c.spc * 65535 < 2 ^ 32 := by
    rw [w2, w4] at w5; exact w5
  have f2 : c.n * 65535 < 2 ^ 32 := by
    rw [w3, w4] at w6; exact w6
  exact
    { channels_pos := h1
      spc_pos := h2
      n_pos := h3
      bufLen_le := h4
      n_le := h5
      voltage_lt := h6
      current_lt := h7
      spc_fits := f1
      n_fits := f2
      count_ok := k1
      voltage_ok := k2
      current_ok := k3
      factor_ok := k4
      min_ok := k5
      max_ok := k6
      min_lt_max := k7
      kv_ok := k8
      ki_ok := k9
      factor_scale := k10
      resetSB_length := r1
      resetPH_length := r2 }

/-- Every slot of a configured channel exists (20_memory.md R38). -/
theorem AdmittedFacts.slot_lt {c : Config} {ch i : Nat} (hch : ch < c.channels) (hi : i < c.spc) :
    ch + i * c.channels < bufLen c := by
  have h : (i + 1) * c.channels ≤ c.spc * c.channels := Nat.mul_le_mul_right _ hi
  rw [Nat.succ_mul] at h
  rw [bufLen, Nat.mul_comm c.channels]
  omega

end Sys2Proof.Machine
end

