-- ==== Sys2Proof/Laws/Agents.lean ====
section
/-! SUPPORT. One lemma for each agent's step that says everything it can do, and the inversion lemma of the step. -/

namespace Sys2Proof.Machine

/-- `Issue` of a word: not taken, illegal, or the first step of its command. -/
theorem issueWord_eq_next {w : Word} {s t : State} (h : issueWord w s = .next t) :
    (s.stage ≠ .idle ∧ t = s) ∨
    (s.stage = .idle ∧ ∃ e, decode w = .illegal e ∧ t = raiseIllegal (causeOf e) s) ∨
    (s.stage = .idle ∧ ∃ i, decode w = .command i ∧ exec i s = .next t) := by
  unfold issueWord cmdReady at h
  by_cases hs : s.stage = .idle
  · rw [decide_eq_true hs, if_pos rfl] at h
    cases hd : decode w with
    | command i => rw [hd] at h; exact .inr (.inr ⟨hs, i, rfl, h⟩)
    | illegal e => rw [hd] at h; cases h; exact .inr (.inl ⟨hs, e, rfl, rfl⟩)
  · rw [decide_eq_false hs, if_neg Bool.false_ne_true] at h
    cases h; exact .inl ⟨hs, rfl⟩

/-- A step of SEQ: nothing when idle, else a step of the command in flight. -/
theorem seqStep_eq_next {s t : State} (h : seqStep s = .next t) :
    (s.stage = .idle ∧ t = s) ∨ (s.stage ≠ .idle ∧ ∃ i, inFlight s = some i ∧ exec i s = .next t) := by
  unfold seqStep cmdReady at h
  by_cases hs : s.stage = .idle
  · rw [decide_eq_true hs, if_pos rfl] at h
    cases h; exact .inl ⟨hs, rfl⟩
  · rw [decide_eq_false hs, if_neg Bool.false_ne_true] at h
    cases hi : inFlight s with
    | none => rw [hi] at h; cases h
    | some i => rw [hi] at h; exact .inr ⟨hs, i, rfl, h⟩

/-- `Conv`: ignored, or one slot and the cursor. -/
theorem conv_eq_next {v : Sample} {s t : State} (h : conv v s = .next t) :
    (s.initst ≠ .running ∧ t = s) ∨
    (s.initst = .running ∧ (∃ x, s.sb.read s.wp.toNat = some x) ∧
      t = { s with
            sb := s.sb.write s.wp.toNat (v.zeroExtend 16)
            wp := BitVec.ofNat 16 ((s.wp.toNat + 1) % bufLen s.cfg) }) := by
  unfold conv convEnabled at h
  by_cases hs : s.initst = .running
  · rw [decide_eq_true hs, if_pos rfl] at h
    cases hr : s.sb.read s.wp.toNat with
    | none => rw [hr] at h; cases h
    | some x => rw [hr] at h; cases h; exact .inr ⟨hs, ⟨x, rfl⟩, rfl⟩
  · rw [decide_eq_false hs, if_neg Bool.false_ne_true] at h
    cases h; exact .inl ⟨hs, rfl⟩

/-- `DlyEdge`: ignored, or one slot, the cursor and the enable. -/
theorem dlyEdge_eq_next {s t : State} (h : dlyEdge s = .next t) :
    (s.ten = false ∧ t = s) ∨
    (s.ten = true ∧ (∃ x, s.ph.read s.pcur.toNat = some x) ∧
      t = { s with
            ph := s.ph.write s.pcur.toNat s.tcnt
            pcur := BitVec.ofNat 16 ((s.pcur.toNat + 1) % s.cfg.n)
            ten := false }) := by
  unfold dlyEdge at h
  by_cases hs : s.ten = true
  · rw [if_pos hs] at h
    cases hr : s.ph.read s.pcur.toNat with
    | none => rw [hr] at h; cases h
    | some x => rw [hr] at h; cases h; exact .inr ⟨hs, ⟨x, rfl⟩, rfl⟩
  · rw [if_neg hs] at h
    cases h; exact .inl ⟨by simpa using hs, rfl⟩

/-- `Conv` goes on wherever its slot exists. -/
theorem conv_goes_on (v : Sample) (s : State) (h : s.sb.wf (bufLen s.cfg) = true) (hw : s.wp.toNat < bufLen s.cfg) :
    ∃ t, conv v s = .next t := by
  obtain ⟨x, hx⟩ := exists_read _ _ h _ hw
  unfold conv
  split
  · rw [hx]; exact ⟨_, rfl⟩
  · exact ⟨_, rfl⟩

/-- `DlyEdge` goes on wherever its slot exists. -/
theorem dlyEdge_goes_on (s : State) (h : s.ph.wf s.cfg.n = true) (hp : s.pcur.toNat < s.cfg.n) :
    ∃ t, dlyEdge s = .next t := by
  obtain ⟨x, hx⟩ := exists_read _ _ h _ hp
  unfold dlyEdge
  split
  · rw [hx]; exact ⟨_, rfl⟩
  · exact ⟨_, rfl⟩

theorem whenPin_eq_next {pin : Bool} {f : State → Result} {s t : State} (h : whenPin pin f s = .next t) :
    (pin = true ∧ f s = .next t) ∨ (pin = false ∧ t = s) := by
  cases pin with
  | true => exact .inl ⟨rfl, h⟩
  | false => cases h; exact .inr ⟨rfl, rfl⟩

/-- The inversion lemma of `clockStep`: the reset, or the five events and the turn of sequencer or host in order. -/
theorem clockStep_eq_next {p : Pins} {go : Bool} {s t : State} (h : clockStep p go s = .next t) :
    (p.rst = true ∧ t = resetBlock s) ∨
    (p.rst = false ∧ ∃ s1 s2 s3 s4 s5 s6,
      s1 = (if p.calRdyIn then calDone s else s) ∧
      whenPin p.adcValid (conv p.adcData) s1 = .next s2 ∧
      s3 = (if p.refIn && !s2.refPrev then refEdge s2 else s2) ∧
      whenPin (p.dlyIn && !s3.dlyPrev) dlyEdge s3 = .next s4 ∧
      s5 = (if p.tick then tick s4 else s4) ∧
      clockTurn p go s5 = .next s6 ∧ t = latchEdges p s6) := by
  unfold clockStep at h
  cases hr : p.rst with
  | true => rw [hr, if_pos rfl] at h; cases h; exact .inl ⟨rfl, rfl⟩
  | false =>
    rw [hr, if_neg Bool.false_ne_true] at h
    obtain ⟨s2, h2, h⟩ := andThen_eq_next.mp h
    obtain ⟨s4, h4, h⟩ := andThen_eq_next.mp h
    obtain ⟨s6, h6, h⟩ := andThen_eq_next.mp h
    cases h
    exact .inr ⟨rfl, _, s2, _, s4, _, s6, rfl, h2, rfl, h4, rfl, h6, rfl⟩

theorem clockTurn_eq_next {p : Pins} {go : Bool} {s t : State} (h : clockTurn p go s = .next t) :
    t = s ∨ (s.stage = .idle ∧ issueWord p.cmd s = .next t) ∨ (s.stage ≠ .idle ∧ seqStep s = .next t) := by
  unfold clockTurn cmdReady at h
  by_cases hs : s.stage = .idle
  · rw [decide_eq_true hs, if_pos rfl] at h
    rcases whenPin_eq_next h with ⟨-, h⟩ | ⟨-, h⟩
    · exact .inr (.inl ⟨hs, h⟩)
    · exact .inl h
  · rw [decide_eq_false hs, if_neg Bool.false_ne_true] at h
    rcases whenPin_eq_next h with ⟨-, h⟩ | ⟨-, h⟩
    · exact .inr (.inr ⟨hs, h⟩)
    · exact .inl h

theorem step_of_admitted {s : State} (h : admitted s.cfg = true) : step s = takeTurn s := by
  unfold step; rw [if_pos h]

/-- The inversion lemma of the step: the configuration is admitted, and the next offer, or the sequencer, is served. -/
theorem step_eq_next {s t : State} (h : step s = .next t) :
    admitted s.cfg = true ∧
    ((s.offers = [] ∧ seqStep s = .next t) ∨
     ∃ o os, s.offers = o :: os ∧ takeOffer o { s with offers := os } = .next t) := by
  unfold step at h
  by_cases hc : admitted s.cfg = true
  · rw [if_pos hc] at h
    refine ⟨hc, ?_⟩
    unfold takeTurn at h
    cases ho : s.offers with
    | nil => rw [ho] at h; exact .inl ⟨rfl, h⟩
    | cons o os => rw [ho] at h; exact .inr ⟨o, os, rfl, h⟩
  · rw [if_neg hc] at h; cases h

/-- What every step that is not a reset does: a chain of the atomic steps of R14, whole clocks taken apart. A property
that each of them keeps is kept by every step. -/
theorem step_induction {P : State → Prop}
    (hoffers : ∀ s os, P s → P { s with offers := os })
    (hcal : ∀ s, P s → P (calDone s))
    (hconv : ∀ v s t, P s → conv v s = .next t → P t)
    (href : ∀ s, P s → P (refEdge s))
    (hdly : ∀ s t, P s → dlyEdge s = .next t → P t)
    (htick : ∀ s, P s → P (tick s))
    (hlatch : ∀ p s, P s → P (latchEdges p s))
    (hill : ∀ e s, s.stage = .idle → P s → P (raiseIllegal (causeOf e) s))
    (hissue : ∀ i s t, s.stage = .idle → P s → exec i s = .next t → P t)
    (hseq : ∀ i s t, s.stage ≠ .idle → inFlight s = some i → P s → exec i s = .next t → P t)
    (hrst : ∀ s, P s → P (resetBlock s))
    {s t : State} (hs : P s) (h : step s = .next t) : P t := by
  have issue : ∀ w s t, P s → issueWord w s = .next t → P t := by
    intro w s t hs h
    rcases issueWord_eq_next h with ⟨-, rfl⟩ | ⟨hi, e, -, rfl⟩ | ⟨hi, i, -, h⟩
    · exact hs
    · exact hill e s hi hs
    · exact hissue i s t hi hs h
  have seq : ∀ s t, P s → seqStep s = .next t → P t := by
    intro s t hs h
    rcases seqStep_eq_next h with ⟨-, rfl⟩ | ⟨hi, i, hf, h⟩
    · exact hs
    · exact hseq i s t hi hf hs h
  rcases step_eq_next h with ⟨-, ⟨-, h⟩ | ⟨o, os, -, h⟩⟩
  · exact seq s t hs h
  · have hs := hoffers s os hs
    cases o with
    | issue w => exact issue w _ t hs h
    | seq => exact seq _ t hs h
    | calDone => cases h; exact hcal _ hs
    | conv v => exact hconv v _ t hs h
    | refEdge => cases h; exact href _ hs
    | dlyEdge => exact hdly _ t hs h
    | tick => cases h; exact htick _ hs
    | rst => cases h; exact hrst _ hs
    | clock p go =>
      rcases clockStep_eq_next h with ⟨-, rfl⟩ | ⟨-, s1, s2, s3, s4, s5, s6, e1, h2, e3, h4, e5, h6, rfl⟩
      · exact hrst _ hs
      · have p1 : P s1 := by rw [e1]; split; exacts [hcal _ hs, hs]
        have p2 : P s2 := by
          rcases whenPin_eq_next h2 with ⟨-, h⟩ | ⟨-, rfl⟩
          exacts [hconv _ _ _ p1 h, p1]
        have p3 : P s3 := by rw [e3]; split; exacts [href _ p2, p2]
        have p4 : P s4 := by
          rcases whenPin_eq_next h4 with ⟨-, h⟩ | ⟨-, rfl⟩
          exacts [hdly _ _ p3 h, p3]
        have p5 : P s5 := by rw [e5]; split; exacts [htick _ p4, p4]
        apply hlatch
        rcases clockTurn_eq_next h6 with rfl | ⟨-, h⟩ | ⟨-, h⟩
        exacts [p5, issue _ _ _ p5 h, seq _ _ p5 h]

/-! The end of a run (70_reset_and_hazards.md R127). -/

/-- The fields that say whether a point is finished and good. -/
def endView (s : State) : Stage × List Offer × Bool := (s.stage, s.offers, s.fault)

theorem endView_calDone (s : State) : endView (calDone s) = endView s := by unfold calDone; split <;> rfl

theorem endView_tick (s : State) : endView (tick s) = endView s := by unfold tick; split <;> rfl

theorem endView_conv {v : Sample} {s t : State} (h : conv v s = .next t) : endView t = endView s := by
  rcases conv_eq_next h with ⟨-, rfl⟩ | ⟨-, -, rfl⟩ <;> rfl

theorem endView_dlyEdge {s t : State} (h : dlyEdge s = .next t) : endView t = endView s := by
  rcases dlyEdge_eq_next h with ⟨-, rfl⟩ | ⟨-, -, rfl⟩ <;> rfl

/-- A clock that is no reset and presents no word to an idle block. -/
theorem endView_clockStep {p : Pins} {go : Bool} {s t : State} (hr : p.rst = false) (hv : p.cmdValid = false)
    (hi : s.stage = .idle) (h : clockStep p go s = .next t) : endView t = endView s := by
  rcases clockStep_eq_next h with ⟨hp, -⟩ | ⟨-, s1, s2, s3, s4, s5, s6, e1, h2, e3, h4, e5, h6, rfl⟩
  · rw [hr] at hp; cases hp
  have v1 : endView s1 = endView s := by rw [e1]; split; exacts [endView_calDone s, rfl]
  have v2 : endView s2 = endView s := by
    rcases whenPin_eq_next h2 with ⟨-, h⟩ | ⟨-, rfl⟩
    exacts [(endView_conv h).trans v1, v1]
  have v3 : endView s3 = endView s := by rw [e3]; split; exacts [v2, v2]
  have v4 : endView s4 = endView s := by
    rcases whenPin_eq_next h4 with ⟨-, h⟩ | ⟨-, rfl⟩
    exacts [(endView_dlyEdge h).trans v3, v3]
  have v5 : endView s5 = endView s := by rw [e5]; split; exacts [(endView_tick s4).trans v4, v4]
  have i5 : cmdReady s5 = true := decide_eq_true ((congrArg Prod.fst v5).trans hi)
  unfold clockTurn at h6
  rw [if_pos i5, hv] at h6
  cases h6
  exact v5

/-- A finished point stays finished, and a good one good, under every further step (R127). -/
theorem finished_step {s t : State} (hf : finished s = true) (h : step s = .next t) :
    finished t = true ∧ (s.fault = false → t.fault = false) := by
  obtain ⟨hi, hd⟩ := Bool.and_eq_true_iff.mp hf
  have hi := of_decide_eq_true hi
  have same : ∀ {os}, (os.any presentsWord) = false → endView t = (Stage.idle, os, s.fault) →
      finished t = true ∧ (s.fault = false → t.fault = false) := by
    intro os ho hv
    have h1 : t.stage = .idle := congrArg Prod.fst hv
    have h2 : t.offers = os := congrArg (·.2.1) hv
    have h3 : t.fault = s.fault := congrArg (·.2.2) hv
    exact ⟨by simp [finished, hostDone, h1, h2, ho], fun hs => h3.trans hs⟩
  rcases step_eq_next h with ⟨-, ⟨ho, h⟩ | ⟨o, os, ho, h⟩⟩
  · rcases seqStep_eq_next h with ⟨-, rfl⟩ | ⟨hn, -⟩
    · exact ⟨hf, id⟩
    · exact absurd hi hn
  · unfold hostDone at hd
    rw [ho, List.any_cons, Bool.not_or, Bool.and_eq_true, Bool.not_eq_true', Bool.not_eq_true'] at hd
    obtain ⟨hw, hd⟩ := hd
    have hs : endView { s with offers := os } = (Stage.idle, os, s.fault) := by rw [← hi]; rfl
    have rst : t = resetBlock { s with offers := os } → finished t = true ∧ (s.fault = false → t.fault = false) := by
      rintro rfl
      exact ⟨by simp [finished, hostDone, resetBlock, State.resetOf, hd], fun _ => rfl⟩
    cases o with
    | issue w => cases hw
    | seq =>
      rcases seqStep_eq_next h with ⟨-, rfl⟩ | ⟨hn, -⟩
      · exact same hd hs
      · exact absurd hi hn
    | calDone => cases h; exact same hd ((endView_calDone _).trans hs)
    | conv v => exact same hd ((endView_conv h).trans hs)
    | refEdge => cases h; exact same hd hs
    | dlyEdge => exact same hd ((endView_dlyEdge h).trans hs)
    | tick => cases h; exact same hd ((endView_tick _).trans hs)
    | rst => cases h; exact rst rfl
    | clock p go =>
      have h : clockStep p go { s with offers := os } = .next t := h
      cases hr : p.rst with
      | true =>
        rcases clockStep_eq_next h with ⟨-, rfl⟩ | ⟨hp, -⟩
        · exact rst rfl
        · rw [hr] at hp; cases hp
      | false =>
        have hv : p.cmdValid = false := by simpa [presentsWord, hr] using hw
        exact same hd ((endView_clockStep (s := { s with offers := os }) hr hv hi h).trans hs)

/-- A busy block whose INIT is not held has an enabled step of the sequencer (R127, 10_state.md R14). -/
theorem seqEnabled_of_busy {s : State} (hb : s.stage ≠ .idle) (hh : held s = false) : seqEnabled s = true := by
  unfold held at hh
  unfold seqEnabled
  by_cases hw : s.stage = .waitcal <;> simp_all

end Sys2Proof.Machine
end

