-- ==== Sys2Proof/Laws/Float.lean ====
section
/-! SUPPORT. The laws of the binary32 rounding: which magnitudes are representable, that rounding is exact on them, and
that it is monotone. -/

namespace Sys2Proof.Machine

/-- A significand `m` with the last bit worth `2 ^ k` units, as bits 30:0. -/
theorem magUnits_join (k m : Nat) (hm : m ≤ 2 ^ 24) (h : k = 0 ∨ 2 ^ 23 ≤ m) :
    magUnits (k * 2 ^ 23 + m) = m * 2 ^ k := by
  unfold magUnits
  have hp : (0 : Nat) < 2 ^ 23 := by norm_num
  rcases Nat.lt_or_ge m (2 ^ 23) with h1 | h1
  · obtain rfl : k = 0 := h.resolve_right (by omega)
    have : (0 * 2 ^ 23 + m) / 2 ^ 23 = 0 := by omega
    rw [if_pos this]; omega
  · rcases Nat.lt_or_ge m (2 ^ 24) with h2 | h2
    · have e1 : (k * 2 ^ 23 + m) / 2 ^ 23 = k + 1 := by omega
      have e2 : (k * 2 ^ 23 + m) % 2 ^ 23 = m - 2 ^ 23 := by omega
      rw [e1, e2, if_neg (by omega), Nat.add_sub_cancel, Nat.add_sub_cancel' h1]
    · have e1 : (k * 2 ^ 23 + m) / 2 ^ 23 = k + 2 := by omega
      have e2 : (k * 2 ^ 23 + m) % 2 ^ 23 = 0 := by omega
      obtain rfl : m = 2 ^ 24 := by omega
      rw [e1, e2, if_neg (by omega)]
      rw [show k + 2 - 1 = k + 1 by omega, pow_succ]
      ring

/-- Every pattern of bits 30:0 is a significand with its shift. -/
theorem exists_join (mag : Nat) :
    ∃ k m, mag = k * 2 ^ 23 + m ∧ m < 2 ^ 24 ∧ (k = 0 ∨ 2 ^ 23 ≤ m) := by
  refine ⟨mag / 2 ^ 23 - 1, mag - (mag / 2 ^ 23 - 1) * 2 ^ 23, ?_, ?_, ?_⟩ <;> omega

/-- A greater pattern is a greater value. -/
theorem magUnits_strictMono {a b : Nat} (h : a < b) : magUnits a < magUnits b := by
  have step : ∀ a, magUnits a < magUnits (a + 1) := by
    intro a
    obtain ⟨k, m, rfl, hm, hk⟩ := exists_join a
    rw [magUnits_join k m hm.le hk, Nat.add_assoc, magUnits_join k (m + 1) (by omega) (by omega)]
    exact Nat.mul_lt_mul_of_pos_right (by omega) (by positivity)
  induction b, h using Nat.le_induction with
  | base => exact step a
  | succ b _ ih => exact ih.trans (step b)

theorem magUnits_le_iff {a b : Nat} : magUnits a ≤ magUnits b ↔ a ≤ b := by
  constructor
  · intro h; by_contra hc; exact absurd (magUnits_strictMono (Nat.lt_of_not_le hc)) (by omega)
  · intro h
    rcases Nat.lt_or_eq_of_le h with h | rfl
    · exact (magUnits_strictMono h).le
    · exact le_rfl

theorem magUnits_lt_iff {a b : Nat} : magUnits a < magUnits b ↔ a < b := by
  rw [← not_le, ← not_le, magUnits_le_iff]

theorem magUnits_inj {a b : Nat} : magUnits a = magUnits b ↔ a = b := by
  constructor
  · intro h; exact le_antisymm (magUnits_le_iff.mp h.le) (magUnits_le_iff.mp h.ge)
  · rintro rfl; rfl

@[simp] theorem magUnits_zero : magUnits 0 = 0 := by decide

/-- What `nearestEven` gives: twice the distance is at most the divisor, and on a tie the value is even. -/
theorem nearestEven_spec (n d : Nat) (hd : 0 < d) :
    2 * n ≤ (2 * nearestEven n d + 1) * d ∧ 2 * nearestEven n d * d ≤ 2 * n + d ∧
    (2 * n = (2 * nearestEven n d + 1) * d → nearestEven n d % 2 = 0) ∧
    (2 * nearestEven n d * d = 2 * n + d → nearestEven n d % 2 = 0) := by
  have hn : n = d * (n / d) + n % d := (Nat.div_add_mod n d).symm
  have hr : n % d < d := Nat.mod_lt n hd
  unfold nearestEven
  generalize n / d = q at *
  generalize n % d = r at *
  subst hn
  split
  · refine ⟨?_, ?_, ?_, ?_⟩
    · nlinarith
    · nlinarith
    · intro h; exfalso; nlinarith
    · intro h; exfalso; nlinarith
  · split
    · rename_i h1 h2
      rcases Nat.mod_two_eq_zero_or_one q with hq | hq
      · rw [hq]
        refine ⟨?_, ?_, fun _ => by omega, fun _ => by omega⟩ <;> nlinarith
      · rw [hq]
        refine ⟨?_, ?_, fun _ => by omega, fun _ => by omega⟩ <;> nlinarith
    · refine ⟨?_, ?_, ?_, ?_⟩
      · nlinarith
      · nlinarith
      · intro h; exfalso; nlinarith
      · intro h; exfalso
        have : 2 * r = d := by nlinarith
        contradiction

/-- The nearest whole number of a whole number is itself. -/
theorem nearestEven_mul (m d : Nat) (hd : 0 < d) : nearestEven (m * d) d = m := by
  unfold nearestEven
  simp [Nat.mul_div_cancel _ hd, hd]

/-- `nearestEven` is monotone in the quotient. -/
theorem nearestEven_mono {n d n' d' : Nat} (hd : 0 < d) (hd' : 0 < d') (h : n * d' ≤ n' * d) :
    nearestEven n d ≤ nearestEven n' d' := by
  obtain ⟨_, a2, _, a4⟩ := nearestEven_spec n d hd
  obtain ⟨b1, _, b3, _⟩ := nearestEven_spec n' d' hd'
  generalize nearestEven n d = x at *
  generalize nearestEven n' d' = y at *
  by_contra hc
  have hc : y + 1 ≤ x := by omega
  -- 2x - 1 <= 2n/d <= 2n'/d' <= 2y + 1, so x = y + 1 and both are ties
  have h1 : 2 * x * d * d' ≤ (2 * n + d) * d' := Nat.mul_le_mul_right _ a2
  have h2 : 2 * n' * d ≤ (2 * y + 1) * d' * d := Nat.mul_le_mul_right _ b1
  have h3 : (2 * x) * (d * d') ≤ (2 * y + 2) * (d * d') := by nlinarith
  have hdd : 0 < d * d' := Nat.mul_pos hd hd'
  have h4 : 2 * x ≤ 2 * y + 2 := Nat.le_of_mul_le_mul_right h3 hdd
  obtain rfl : x = y + 1 := by omega
  have e1 : 2 * n' = (2 * y + 1) * d' := by
    apply Nat.eq_of_mul_eq_mul_right hd
    nlinarith
  have e2 : 2 * (y + 1) * d = 2 * n + d := by
    apply Nat.eq_of_mul_eq_mul_right hd'
    nlinarith
  have := a4 e2
  have := b3 e1
  omega

/-- The shift of `roundUnits`: below 2^24 whole units none, else it leaves 24 bits. -/
theorem roundShift_spec (t : Nat) :
    t < 2 ^ 24 * 2 ^ roundShift t ∧ (roundShift t = 0 ∨ 2 ^ 23 * 2 ^ roundShift t ≤ t) := by
  unfold roundShift
  by_cases ht : t = 0
  · subst ht; simp
  have h1 : 2 ^ t.log2 ≤ t := Nat.log2_self_le ht
  have h2 : t < 2 ^ (t.log2 + 1) := Nat.lt_log2_self
  generalize t.log2 = l at *
  rcases Nat.lt_or_ge l 23 with h | h
  · rw [show l - 23 = 0 by omega]
    refine ⟨?_, .inl rfl⟩
    calc t < 2 ^ (l + 1) := h2
      _ ≤ 2 ^ 24 := Nat.pow_le_pow_right (by norm_num) (by omega)
      _ = _ := by simp
  · obtain ⟨j, rfl⟩ : ∃ j, l = 23 + j := ⟨l - 23, by omega⟩
    rw [Nat.add_sub_cancel_left]
    refine ⟨?_, .inr ?_⟩
    · rw [← pow_add]; convert h2 using 2; omega
    · rw [← pow_add]; exact h1

/-- The kept significand of `roundUnits`. -/
theorem roundUnits_significand (n d : Nat) (hd : 0 < d) :
    let k := roundShift (n / d)
    let m := nearestEven n (d * 2 ^ k)
    m ≤ 2 ^ 24 ∧ (k = 0 ∨ 2 ^ 23 ≤ m) := by
  intro k m
  obtain ⟨h1, h2⟩ := roundShift_spec (n / d)
  have hD : 0 < d * 2 ^ k := by positivity
  constructor
  · rw [← nearestEven_mul (2 ^ 24) (d * 2 ^ k) hD]
    apply nearestEven_mono hD hD
    apply Nat.mul_le_mul_right
    have : n < d * (2 ^ 24 * 2 ^ k) := by
      have := (Nat.div_lt_iff_lt_mul hd).mp h1
      rwa [Nat.mul_comm] at this
    calc n ≤ d * (2 ^ 24 * 2 ^ k) := this.le
      _ = 2 ^ 24 * (d * 2 ^ k) := by ring
  · rcases h2 with h2 | h2
    · exact .inl h2
    · right
      rw [← nearestEven_mul (2 ^ 23) (d * 2 ^ k) hD]
      apply nearestEven_mono hD hD
      apply Nat.mul_le_mul_right
      have : 2 ^ 23 * 2 ^ k * d ≤ n := (Nat.le_div_iff_mul_le hd).mp h2
      calc 2 ^ 23 * (d * 2 ^ k) = 2 ^ 23 * 2 ^ k * d := by ring
        _ ≤ n := this

/-- `roundUnits` in the form proofs use: the pattern before the clamp at infinity. -/
theorem roundUnits_eq (n d : Nat) (hd : 0 < d) :
    ∃ k m, roundUnits n d = min (k * 2 ^ 23 + m) f32InfMag ∧ m = nearestEven n (d * 2 ^ k) ∧
      m ≤ 2 ^ 24 ∧ (k = 0 ∨ 2 ^ 23 ≤ m) ∧ n < 2 ^ 24 * (d * 2 ^ k) ∧ (k = 0 ∨ 2 ^ 23 * (d * 2 ^ k) ≤ n) := by
  obtain ⟨h1, h2⟩ := roundShift_spec (n / d)
  obtain ⟨g1, g2⟩ := roundUnits_significand n d hd
  refine ⟨roundShift (n / d), _, rfl, rfl, g1, g2, ?_, ?_⟩
  · have := (Nat.div_lt_iff_lt_mul hd).mp h1
    calc n < 2 ^ 24 * 2 ^ roundShift (n / d) * d := this
      _ = _ := by ring
  · refine h2.imp id fun h2 => ?_
    have := (Nat.le_div_iff_mul_le hd).mp h2
    calc 2 ^ 23 * (d * 2 ^ roundShift (n / d)) = 2 ^ 23 * 2 ^ roundShift (n / d) * d := by ring
      _ ≤ n := this

theorem roundUnits_le_inf (n d : Nat) : roundUnits n d ≤ f32InfMag := min_le_right _ _

/-- Rounding is exact on a representable magnitude. -/
theorem roundUnits_exact (mag d : Nat) (hd : 0 < d) (hm : mag ≤ f32InfMag) :
    roundUnits (magUnits mag * d) d = mag := by
  obtain ⟨k, m, he, rfl, -, -, hlt, hge⟩ := roundUnits_eq (magUnits mag * d) d hd
  obtain ⟨k', m', rfl, hm', hk'⟩ := exists_join mag
  rw [magUnits_join k' m' hm'.le hk'] at *
  have hkk : k = k' := by
    have e : m' * 2 ^ k' < 2 ^ 24 * 2 ^ k := by
      apply Nat.lt_of_mul_lt_mul_right (a := d)
      calc m' * 2 ^ k' * d < 2 ^ 24 * (d * 2 ^ k) := hlt
        _ = _ := by ring
    have e' : k = 0 ∨ 2 ^ 23 * 2 ^ k ≤ m' * 2 ^ k' := by
      refine hge.imp id fun h => ?_
      apply Nat.le_of_mul_le_mul_right (c := d) _ hd
      calc 2 ^ 23 * 2 ^ k * d = 2 ^ 23 * (d * 2 ^ k) := by ring
        _ ≤ m' * 2 ^ k' * d := h
    rcases Nat.lt_trichotomy k k' with h | h | h
    · exfalso
      have hb : 2 ^ 23 ≤ m' := hk'.resolve_left (by omega)
      have : 2 ^ 24 * 2 ^ k ≤ 2 ^ 23 * 2 ^ k' := by
        rw [← pow_add, ← pow_add]; exact Nat.pow_le_pow_right (by norm_num) (by omega)
      have : 2 ^ 23 * 2 ^ k' ≤ m' * 2 ^ k' := Nat.mul_le_mul_right _ hb
      omega
    · exact h
    · exfalso
      have h0 := e'.resolve_left (by omega)
      have : m' * 2 ^ k' < 2 ^ 24 * 2 ^ k' := Nat.mul_lt_mul_of_pos_right hm' (by positivity)
      have : 2 ^ 24 * 2 ^ k' ≤ 2 ^ 23 * 2 ^ k := by
        rw [← pow_add, ← pow_add]; exact Nat.pow_le_pow_right (by norm_num) (by omega)
      omega
  subst hkk
  rw [he, show m' * 2 ^ k * d = m' * (d * 2 ^ k) by ring, nearestEven_mul _ _ (by positivity)]
  exact min_eq_left hm

/-- Rounding is monotone in the quotient. -/
theorem roundUnits_mono {n d n' d' : Nat} (hd : 0 < d) (hd' : 0 < d') (h : n * d' ≤ n' * d) :
    roundUnits n d ≤ roundUnits n' d' := by
  obtain ⟨k, m, e, hm, m1, m2, l1, l2⟩ := roundUnits_eq n d hd
  obtain ⟨k', m', e', hm', m1', m2', l1', l2'⟩ := roundUnits_eq n' d' hd'
  rw [e, e']
  apply min_le_min_right
  rcases Nat.lt_trichotomy k k' with hk | rfl | hk
  · have : 2 ^ 23 ≤ m' := m2'.resolve_left (by omega)
    have : (k + 1) * 2 ^ 23 ≤ k' * 2 ^ 23 := Nat.mul_le_mul_right _ hk
    omega
  · apply Nat.add_le_add_left
    rw [hm, hm']
    apply nearestEven_mono (by positivity) (by positivity)
    calc n * (d' * 2 ^ k) = n * d' * 2 ^ k := by ring
      _ ≤ n' * d * 2 ^ k := Nat.mul_le_mul_right _ h
      _ = n' * (d * 2 ^ k) := by ring
  · exfalso
    have l2 := l2.resolve_left (by omega)
    have hp : 2 ^ 24 * 2 ^ k' ≤ 2 ^ 23 * 2 ^ k := by
      rw [← pow_add, ← pow_add]; exact Nat.pow_le_pow_right (by norm_num) (by omega)
    have c1 : 2 ^ 23 * (d * 2 ^ k) * d' ≤ n * d' := Nat.mul_le_mul_right _ l2
    have c2 : n' * d < 2 ^ 24 * (d' * 2 ^ k') * d := Nat.mul_lt_mul_of_pos_right l1' hd
    have c3 : 2 ^ 24 * 2 ^ k' * (d * d') ≤ 2 ^ 23 * 2 ^ k * (d * d') := Nat.mul_le_mul_right _ hp
    nlinarith

/-- A quotient at most a representable magnitude rounds to at most it. -/
theorem roundUnits_le {n d mag : Nat} (hd : 0 < d) (hm : mag ≤ f32InfMag) (h : n ≤ magUnits mag * d) :
    roundUnits n d ≤ mag := by
  have := roundUnits_mono (n' := magUnits mag * d) hd hd (Nat.mul_le_mul_right d h)
  rwa [roundUnits_exact mag d hd hm] at this

/-- A quotient at least a representable magnitude rounds to at least it. -/
theorem le_roundUnits {n d mag : Nat} (hd : 0 < d) (hm : mag ≤ f32InfMag) (h : magUnits mag * d ≤ n) :
    mag ≤ roundUnits n d := by
  have := roundUnits_mono (n := magUnits mag * d) hd hd (Nat.mul_le_mul_right d h)
  rwa [roundUnits_exact mag d hd hm] at this

/-! Packing and unpacking. -/

theorem f32Mag_pack (sign : Bool) (mag : Nat) (h : mag < 2 ^ 31) : f32Mag (f32Pack sign mag) = mag := by
  cases sign <;> simp [f32Mag, f32Pack] <;> omega

theorem f32Sign_pack (sign : Bool) (mag : Nat) (h : mag < 2 ^ 31) : f32Sign (f32Pack sign mag) = sign := by
  cases sign <;> simp [f32Sign, f32Pack, BitVec.msb_eq_decide] <;> omega

theorem inf_lt : f32InfMag < 2 ^ 31 := by decide

@[simp] theorem f32Mag_pack_round (sign : Bool) (n d : Nat) :
    f32Mag (f32Pack sign (roundUnits n d)) = roundUnits n d :=
  f32Mag_pack _ _ (lt_of_le_of_lt (roundUnits_le_inf n d) inf_lt)

@[simp] theorem f32Sign_pack_round (sign : Bool) (n d : Nat) :
    f32Sign (f32Pack sign (roundUnits n d)) = sign :=
  f32Sign_pack _ _ (lt_of_le_of_lt (roundUnits_le_inf n d) inf_lt)

/-- A pattern is its sign and its bits 30:0. -/
theorem f32Pack_eta (a : F32) : f32Pack (f32Sign a) (f32Mag a) = a := by
  apply BitVec.eq_of_toNat_eq
  have := a.isLt
  simp only [f32Pack, f32Sign, f32Mag, BitVec.msb_eq_decide, BitVec.toNat_ofNat]
  by_cases h : 2 ^ (32 - 1) ≤ a.toNat
  · rw [decide_eq_true h, if_pos rfl]; omega
  · rw [decide_eq_false h, if_neg (by decide)]; omega

/-! What each operation is on finite values. -/

theorem f32Finite_iff (a : F32) : f32Finite a = true ↔ f32Mag a < f32InfMag := by simp [f32Finite]

theorem not_nan_of_finite {a : F32} (h : f32Finite a = true) : f32IsNaN a = false := by
  have := (f32Finite_iff a).mp h
  simp [f32IsNaN]; omega

theorem not_inf_of_finite {a : F32} (h : f32Finite a = true) : f32IsInf a = false := by
  have := (f32Finite_iff a).mp h
  simp [f32IsInf]; omega

theorem f32Mul_of_finite {a b : F32} (ha : f32Finite a = true) (hb : f32Finite b = true) :
    f32Mul a b = f32Pack (f32Sign a ^^ f32Sign b) (roundUnits (f32Units a * f32Units b) (2 ^ 149)) := by
  simp only [f32Mul, not_nan_of_finite ha, not_nan_of_finite hb, not_inf_of_finite ha, not_inf_of_finite hb,
    Bool.or_false, Bool.false_eq_true, if_false]

theorem f32Div_of_finite {a b : F32} (ha : f32Finite a = true) (hb : f32Finite b = true) (hz : f32Units b ≠ 0) :
    f32Div a b = f32Pack (f32Sign a ^^ f32Sign b) (roundUnits (f32Units a * 2 ^ 149) (f32Units b)) := by
  simp only [f32Div, not_nan_of_finite ha, not_nan_of_finite hb, not_inf_of_finite ha, not_inf_of_finite hb,
    Bool.or_false, Bool.false_eq_true, if_false, hz]

theorem f32Sub_of_finite {a b : F32} (ha : f32Finite a = true) (hb : f32Finite b = true) :
    f32Sub a b =
      if f32Int a - f32Int b = 0 then f32Pack (f32Sign a && !f32Sign b) 0
      else f32Pack (decide (f32Int a - f32Int b < 0)) (roundUnits (f32Int a - f32Int b).natAbs 1) := by
  simp only [f32Sub, not_nan_of_finite ha, not_nan_of_finite hb, not_inf_of_finite ha, not_inf_of_finite hb,
    Bool.or_false, Bool.false_eq_true, if_false]

theorem f32Units_pack_round (sign : Bool) (n d : Nat) :
    f32Units (f32Pack sign (roundUnits n d)) = magUnits (roundUnits n d) := by
  rw [f32Units, f32Mag_pack_round]

theorem f32Finite_pack_round (sign : Bool) (n d : Nat) :
    f32Finite (f32Pack sign (roundUnits n d)) = true ↔ roundUnits n d < f32InfMag := by
  rw [f32Finite_iff, f32Mag_pack_round]

theorem f32Int_of_pos {a : F32} (h : f32Sign a = false) : f32Int a = (f32Units a : Int) := by
  simp [f32Int, h]

theorem f32Int_natAbs (a : F32) : (f32Int a).natAbs = f32Units a := by
  unfold f32Int; split <;> simp

end Sys2Proof.Machine
end

