-- ==== Sys2Proof/Laws/Inv.lean ====
section
/-! SUPPORT. A check that runs, for showing that a concrete state meets the invariant, and that the reset memories are
canonical. -/

namespace Sys2Proof.Machine

/-- `InFlightOk` as a check; `vsum` is the sum whose voltage waits in FT0 after the first loop of POWR. -/
def flightCheck (vsum : Word) (s : State) : Bool :=
  match inFlight s with
  | none => false
  | some i =>
    stageOfCommand i s.stage && i.wf s.cfg
      && (if summing s.stage then decide (s.idx.toNat < sumLen s.cfg i) else decide (s.idx = 0#16))
      && decide (s.acc.toNat ≤ (if summing s.stage then s.idx.toNat else sumLen s.cfg i) * 65535)
      && (decide (i ≠ .powr) || decide (s.stage = .sum1)
        || (decide (vsum.toNat ≤ s.cfg.spc * 65535) && decide (s.ft0 = volts s.cfg vsum)))

/-- `Inv` as a check; `vsum` as in `flightCheck`. -/
def invCheck (vsum : Word) (s : State) : Bool :=
  admitted s.cfg && s.sb.wf (bufLen s.cfg) && s.ph.wf s.cfg.n
    && decide (s.wp.toNat < bufLen s.cfg) && decide (s.pcur.toNat < s.cfg.n) && decide (s.ccr.toNat ≤ 1000)
    && (decide (s.initst ≠ .running) || s.calRdy) && (decide (s.initst ≠ .uninit) || !s.calRdy)
    && decide (s.fcause = 0#3 ↔ s.fault = false) && decide (s.fcause.toNat ≤ 4)
    && (s.sb.all fun c => decide (s.cfg.resetSB[c.1]? = some c.2) || decide (c.2.toNat ≤ 4095))
    && decide (s.initst = .calibrating ↔ s.stage = .waitcal)
    && (if s.stage = .idle then decide (s.idx = 0#16) else flightCheck vsum s)

theorem flight_of_check {vsum : Word} {s : State} (h : flightCheck vsum s = true) : ∃ i, InFlightOk i s := by
  unfold flightCheck at h
  cases hi : inFlight s with
  | none => rw [hi] at h; cases h
  | some i =>
    rw [hi] at h
    simp only [Bool.and_eq_true] at h
    obtain ⟨⟨⟨⟨h1, h2⟩, h3⟩, h4⟩, h5⟩ := h
    refine ⟨i, hi, h1, h2, ?_, of_decide_eq_true h4, ?_⟩
    · cases hs : summing s.stage <;> rw [hs] at h3 <;> exact of_decide_eq_true h3
    · intro hp hn
      rcases Bool.or_eq_true_iff.mp h5 with h | h
      · rcases Bool.or_eq_true_iff.mp h with h | h
        · exact absurd hp (of_decide_eq_true h)
        · exact absurd (of_decide_eq_true h) hn
      · have h := Bool.and_eq_true_iff.mp h
        exact ⟨vsum, of_decide_eq_true h.1, of_decide_eq_true h.2⟩

/-- A state that passes the check meets the invariant. -/
theorem inv_of_check {vsum : Word} {s : State} (h : invCheck vsum s = true) : Inv s := by
  unfold invCheck at h
  simp only [Bool.and_eq_true] at h
  obtain ⟨⟨⟨⟨⟨⟨⟨⟨⟨⟨⟨⟨h1, h2⟩, h3⟩, h4⟩, h5⟩, h6⟩, h7⟩, h8⟩, h9⟩, h10⟩, h11⟩, h12⟩, h13⟩ := h
  exact
    { cfgOk := h1
      sbOk := h2
      phOk := h3
      wpOk := of_decide_eq_true h4
      pcurOk := of_decide_eq_true h5
      ccrOk := of_decide_eq_true h6
      calOk := fun hr => (Bool.or_eq_true_iff.mp h7).resolve_left fun h => of_decide_eq_true h hr
      uncalOk := fun hr => by
        have := (Bool.or_eq_true_iff.mp h8).resolve_left fun h => of_decide_eq_true h hr
        simpa using this
      causeOk := of_decide_eq_true h9
      codeOk := of_decide_eq_true h10
      slotsOk := fun j v hv => by
        have := List.all_eq_true.mp h11 (j, v) (mem_of_read _ _ _ hv)
        exact (Bool.or_eq_true_iff.mp this).imp of_decide_eq_true of_decide_eq_true
      waitOk := of_decide_eq_true h12
      idleOk := fun hs => by rw [if_pos hs] at h13; exact of_decide_eq_true h13
      flightOk := fun hs => by rw [if_neg hs] at h13; exact flight_of_check h13 }

/-- The memories of State.reset are canonical. -/
theorem reset_memories_wf : State.reset.sb.wf 8 = true ∧ State.reset.ph.wf 10 = true := by
  have hs : Config.refcfg.resetSB.length = 8 := by simp [Config.refcfg]
  have hp : Config.refcfg.resetPH.length = 10 := by simp [Config.refcfg]
  exact ⟨hs ▸ ofValues_wf Config.refcfg.resetSB, hp ▸ ofValues_wf Config.refcfg.resetPH⟩

end Sys2Proof.Machine
end

