-- ==== Sys2Proof/Laws/PerInstr.lean ====
section
/-! SUPPORT. One lemma per command about its encoding: the three fields of its word (30_encoding.md R50). -/

namespace Sys2Proof.Laws

/-- The fields of the word of `i`: its opcode, a zero reserved field, its immediate. -/
def Fields.Statement (i : Instr) : Prop :=
  opcField (encode i) = opcodeOf i ∧ rsvField (encode i) = 0#12 ∧ immField (encode i) = immOf i

/-- The number of a word made of an opcode, a zero reserved field and an immediate. -/
theorem Fields.toNat_append (o : BitVec 4) (m : Slot) :
    BitVec.toNat (w := 32) (o ++ (0#12 ++ m)) = o.toNat * 2 ^ 28 + m.toNat := by
  have h1 := BitVec.toNat_append o (0#12 ++ m)
  have h2 := BitVec.toNat_append (0#12) m
  have hm := m.isLt
  simp only [BitVec.toNat_ofNat, Nat.zero_mod, Nat.zero_shiftLeft, Nat.zero_or] at h2
  rw [h2, ← Nat.shiftLeft_add_eq_or_of_lt (by omega), Nat.shiftLeft_eq] at h1
  exact h1

theorem Fields.of_append (o : BitVec 4) (m : Slot) :
    opcField (o ++ (0#12 ++ m)) = o ∧ rsvField (o ++ (0#12 ++ m)) = 0#12 ∧ immField (o ++ (0#12 ++ m)) = m := by
  have h := Fields.toNat_append o m
  have := o.isLt
  have := m.isLt
  refine ⟨?_, ?_, ?_⟩ <;> apply BitVec.eq_of_toNat_eq <;>
    simp only [opcField, rsvField, immField, BitVec.extractLsb'_toNat, Nat.shiftRight_eq_div_pow, BitVec.toNat_ofNat] <;>
    omega

theorem Fields.init : Fields.Statement .init := Fields.of_append _ _
theorem Fields.rdavg (ch : Slot) : Fields.Statement (.rdavg ch) := Fields.of_append _ _
theorem Fields.phavg : Fields.Statement .phavg := Fields.of_append _ _
theorem Fields.volt : Fields.Statement .volt := Fields.of_append _ _
theorem Fields.curr : Fields.Statement .curr := Fields.of_append _ _
theorem Fields.powr : Fields.Statement .powr := Fields.of_append _ _
theorem Fields.phms : Fields.Statement .phms := Fields.of_append _ _
theorem Fields.setd (d : Slot) : Fields.Statement (.setd d) := Fields.of_append _ _
theorem Fields.adji : Fields.Statement .adji := Fields.of_append _ _

end Sys2Proof.Laws
end

