-- ==== Sys2Proof/Tests/Slice0.lean ====
section
/-! SUPPORT. The model's own tests. Expected values are those of 95_test_vectors.md (each test names its vector) or are
worked out by hand from a rule; a theorem witness_<statement> shows that the hypotheses of a statement can be met, for
each of its clauses. -/

namespace Sys2Proof.Tests

open Sys2Proof Sys2Proof.Machine

/-! ## Small states -/

/-- REFCFG with the reset contents of V-AVG's last rows and V-PH's fourth. -/
def cfg : Config :=
  { Config.refcfg with
    resetSB := [100#16, 9#16, 200#16, 9#16, 300#16, 9#16, 401#16, 9#16]
    resetPH := [1#16, 2#16, 3#16, 4#16, 5#16, 6#16, 7#16, 8#16, 9#16, 10#16] }

/-- After reset. -/
def s0 : State := State.resetOf cfg

/-- After reset, with these slots in SB. -/
def withSB (vs : List Slot) : State := { s0 with sb := Memory.ofValues vs }

/-- After reset, every voltage slot `v` and every current slot `i` (V-MEAS, V-ADJI). -/
def uniform (v i : Slot) : State := withSB [v, i, v, i, v, i, v, i]

/-- `i` in flight in stage `st`. -/
def flying (i : Instr) (st : Stage) (idx : Slot) (acc : Word) : State :=
  { s0 with op := opcodeOf i, imm := immOf i, stage := st, idx := idx, acc := acc }

/-- Conversions run. -/
def running : State := { s0 with initst := .running, calRdy := true }

/-- INIT is held. -/
def waiting : State := { flying .init .waitcal 0 0 with initst := .calibrating }

/-- `s` with these offers. -/
def offered (os : List Offer) (s : State) : State := { s with offers := os }

/-- All pins low. -/
def quiet : Pins where
  rst := false
  cmdValid := false
  cmd := 0
  calRdyIn := false
  adcValid := false
  adcData := 0
  refIn := false
  dlyIn := false
  tick := false

/-- What `f` shows of a next state. -/
def shows {α : Type} (f : State → α) (r : Result) : Option α :=
  match r with
  | .next t => some (f t)
  | .fault _ => none
  | .refused _ => none

/-- The answer is a next state that passes `f`. -/
def passes (f : State → Bool) (r : Result) : Bool := (shows f r).getD false

theorem next_of_passes {f : State → Bool} {r : Result} (h : passes f r = true) : ∃ t, r = .next t := by
  cases r with
  | next t => exact ⟨t, rfl⟩
  | fault e => cases h
  | refused e => cases h

/-- The answer is a next state. -/
def answers (r : Result) : Bool := passes (fun _ => true) r

/-- After the word is presented to `s`, and `k` steps of the sequencer: RESULT, CCR and STAGE. -/
def runWord (k : Nat) (w : Word) (s : State) : Option (Word × Nat × Stage) :=
  shows (fun t => (t.result, t.ccr.toNat, t.stage)) (runSteps (k + 1) (offered [.issue w] s))

/-! ## Well-formedness and admitted configurations: each check refuses an ill-formed term -/

theorem test_wf_refuses_channel_outside : Instr.wf Config.refcfg (.rdavg 2#16) = false := by decide
theorem test_wf_takes_last_channel : Instr.wf Config.refcfg (.rdavg 1#16) = true := by decide

/-- R6, size by size: no channel, no sample, no history, too many slots, too long a history, a channel number out of
range, twice. -/
theorem test_sizes_refused :
    ([{ cfg with channels := 0 }, { cfg with spc := 0 }, { cfg with n := 0 }, { cfg with channels := 2, spc := 32769 },
      { cfg with n := 65537 }, { cfg with voltageChannel := 2 }, { cfg with currentChannel := 2 }].map sizesOk)
      = [false, false, false, false, false, false, false] := by decide

/-- R6, width by width, and the accumulator bound. -/
theorem test_widths_refused :
    ([{ cfg with adcBits := 10 }, { cfg with sampleW := 12 }, { cfg with tw := 32 }, { cfg with accW := 64 },
      { cfg with spc := 65538 }, { cfg with n := 65538 }].map widthsOk)
      = [false, false, false, false, false, false] := by decide

/-- R6, constant by constant: zero, infinity, a negative value, CURRENT_MIN not below CURRENT_MAX, KV above 2^32, KI
below 2^-32, a factor above 2^32. -/
theorem test_constants_refused :
    ([{ cfg with adcFullScaleCount := 0x00000000#32 }, { cfg with fullScaleVoltage := 0x7F800000#32 },
      { cfg with fullScaleCurrent := 0xC1200000#32 }, { cfg with msConversionFactor := 0x7FC00000#32 },
      { cfg with currentMin := 0x80000000#32 }, { cfg with currentMin := 0x41200000#32 },
      { cfg with fullScaleVoltage := 0x55800001#32 }, { cfg with fullScaleCurrent := 0x357FFFFF#32 },
      { cfg with msConversionFactor := 0x4F800001#32 }].map constantsOk)
      = [false, false, false, false, false, false, false, false, false] := by decide

theorem test_reset_contents_refused :
    ([{ cfg with resetSB := [] }, { cfg with resetPH := [0#16] }].map resetContentsOk) = [false, false] := by decide

/-- The two sizes at the boundary of R6 are admitted. -/
theorem test_sizes_at_the_boundary : sizesOk { cfg with channels := 65536, spc := 1, n := 65536 } = true := by decide

theorem test_refcfg_admitted : admitted Config.refcfg = true := by decide

/-! ## Encoding: the words of R53, written bit by bit (OPC, RSV, IMM) -/

theorem test_decode_init : decode 0b00010000000000000000000000000000#32 = .command .init := by decide
theorem test_decode_rdavg : decode 0b00100000000000000000000000000001#32 = .command (.rdavg 1#16) := by decide
theorem test_decode_phavg : decode 0b00110000000000000000000000000000#32 = .command .phavg := by decide
theorem test_decode_volt : decode 0b01000000000000000000000000000000#32 = .command .volt := by decide
theorem test_decode_curr : decode 0b01010000000000000000000000000000#32 = .command .curr := by decide
theorem test_decode_powr : decode 0b01100000000000000000000000000000#32 = .command .powr := by decide
theorem test_decode_phms : decode 0b01110000000000000000000000000000#32 = .command .phms := by decide
theorem test_decode_setd : decode 0b10000000000000000000000111110100#32 = .command (.setd 500#16) := by decide
theorem test_decode_adji : decode 0b10010000000000000000000000000000#32 = .command .adji := by decide

/-- R42: a harness's four bytes, least significant first. -/
theorem test_decode_bytes :
    decodeBytes [0xF4#8, 0x01#8, 0x00#8, 0x80#8, 0x55#8] = .command (.setd 500#16) [0x55#8] ∧
    decodeBytes [0x00#8, 0x00#8, 0x00#8] = .truncated := by decide

/-- V-ENC, first column. -/
theorem test_text : Instr.text (.setd 0xFFFF#16) = "SETD -1" ∧ Instr.text (.rdavg 1#16) = "RDAVG 1" := by decide

/-- V-FLT: each illegal word, the cause it leaves from reset, the response, and RESULT and STAGE untouched. -/
theorem test_illegal_words :
    ([0x00000000#32, 0xFFFFFFFF#32, 0xA0000000#32, 0xF0000000#32, 0xA0010002#32, 0x40000001#32, 0x30010000#32,
      0x20010001#32, 0x20010002#32, 0x80010000#32, 0x10000001#32, 0x90008000#32, 0x20000002#32, 0x2000FFFF#32].map
        fun w => shows (fun t => (t.fcause.toNat, t.fault, t.history, t.stage)) (step (offered [.issue w] s0)))
      = [1, 1, 1, 1, 1, 2, 2, 2, 2, 2, 2, 2, 3, 3].map fun n => some (n, true, [⟨true, 0#32⟩], Stage.idle) := by decide

/-- V-FLT, R27: the first cause is kept. -/
theorem test_first_cause_wins :
    shows (fun t => t.fcause) (runSteps 2 (offered [.issue 0x20000002#32, .issue 0x00000000#32] s0)) = some 3#3 := by
  decide

/-! ## Numbers -/

/-- V-AVG, `f32_of_u32`: exact values, ties to even, the largest word. -/
theorem test_f32_of_u32 :
    [0, 1, 1000, 4095, 262140, 16777217, 16777218, 16777219, 33554435, 4294967295].map f32OfU32
      = [0x00000000#32, 0x3F800000#32, 0x447A0000#32, 0x457FF000#32, 0x487FFF00#32, 0x4B800000#32, 0x4B800001#32,
         0x4B800002#32, 0x4C000001#32, 0x4F800000#32] := by decide

/-- V-AVG, `Avg`. -/
theorem test_avg :
    [avg 10#32 3, avg 1#32 3, avg 2#32 3, avg 12285#32 3, avg 7#32 7, avg 1000#32 7]
      = [0x40555555#32, 0x3EAAAAAB#32, 0x3F2AAAAB#32, 0x457FF000#32, 0x3F800000#32, 0x430EDB6E#32] := by decide

/-- E7: the chain of 4095 through `ADJI`; and R85's comparisons. -/
theorem test_sub_mul_div_trunc :
    f32Sub 0x411FF600#32 0x40E00000#32 = 0x403FD800#32 ∧ f32Mul 0x403FD800#32 0x447A0000#32 = 0x453B58F0#32 ∧
    f32Div 0x453B58F0#32 0x40400000#32 = 0x4479CBEB#32 ∧ truncI32 0x4479CBEB#32 = some 999 ∧
    f32Lt 0x80000000#32 0x00000000#32 = false ∧ f32Lt 0x7FC00000#32 0x00000000#32 = false ∧
    f32Gt 0x3F800000#32 0x00000000#32 = true := by decide

/-! ## Commands, from the vectors -/

/-- P1: INIT waits for CalDone, then completes with 0. -/
theorem test_init :
    shows (fun t => (t.initst, t.stage, t.history)) (runSteps 4 (offered [.issue 0x10000000#32, .seq, .calDone] s0))
      = some (.running, .fin, []) ∧
    shows (fun t => (t.initst, t.stage, t.history)) (runSteps 5 (offered [.issue 0x10000000#32, .seq, .calDone] s0))
      = some (.running, .idle, [⟨false, 0x00000000#32⟩]) := by decide

/-- P5: without CalDone INIT is held, and the capture engine still measures. -/
theorem test_init_held :
    shows (fun t => (t.initst, t.calRdy, t.stage, t.ph.read 0, t.fault))
        (runSteps 9 (offered [.issue 0x10000000#32, .refEdge, .tick, .tick, .tick, .tick, .tick, .dlyEdge] s0))
      = some (.calibrating, false, .waitcal, some 5#16, false) := by decide

/-- V-AVG, last two rows. -/
theorem test_rdavg :
    runWord 5 0x20000000#32 s0 = some (0x437A4000#32, 0, .idle) ∧
    runWord 5 0x20000001#32 s0 = some (0x41100000#32, 0, .idle) := by decide

/-- V-PH, fourth row. -/
theorem test_phavg : runWord 11 0x30000000#32 s0 = some (0x40B00000#32, 0, .idle) := by decide
theorem test_phms : runWord 11 0x70000000#32 s0 = some (0x3F0CCCCD#32, 0, .idle) := by decide

/-- V-MEAS: 2048/4095 and 1000/3000. -/
theorem test_volt :
    runWord 5 0x40000000#32 (uniform 2048#16 4095#16) = some (0x42E60000#32, 0, .idle) ∧
    runWord 5 0x40000000#32 (uniform 1000#16 3000#16) = some (0x42609C00#32, 0, .idle) := by decide
theorem test_curr :
    runWord 5 0x50000000#32 (uniform 2048#16 4095#16) = some (0x411FF600#32, 0, .idle) ∧
    runWord 5 0x50000000#32 (uniform 1000#16 3000#16) = some (0x40EA6000#32, 0, .idle) := by decide
theorem test_powr :
    runWord 9 0x60000000#32 (uniform 2048#16 4095#16) = some (0x448FB704#32, 0, .idle) ∧
    runWord 9 0x60000000#32 (uniform 1000#16 3000#16) = some (0x43CDA2D2#32, 0, .idle) := by decide

/-- V-MEAS, the intermediate state of POWR. -/
theorem test_powr_between_the_sums :
    shows (fun t => (t.stage, t.acc, t.idx, t.ft0)) (runSteps 5 (offered [.issue 0x60000000#32] (uniform 2048#16 4095#16)))
      = some (.sum2, 0#32, 0#16, 0x42E60000#32) := by decide

/-- V-SETD. -/
theorem test_setd :
    [0x80008000#32, 0x8000FFFF#32, 0x80000000#32, 0x80000001#32, 0x800003E7#32, 0x800003E8#32, 0x800003E9#32,
      0x80007FFF#32].map (fun w => runWord 1 w s0)
      = [0, 0, 0, 1, 999, 1000, 1000, 1000].map fun n => some (BitVec.ofNat 32 n, n, .idle) := by decide

/-- V-ADJI: below, the ramp, the top of converted data; and reset contents above it. -/
theorem test_adji :
    [2867#16, 3000#16, 4095#16, 65535#16].map (fun v => runWord 5 0x90000000#32 (uniform 0#16 v))
      = [0, 108, 999, 1000].map fun n => some (BitVec.ofNat 32 n, n, .idle) := by decide

/-- Configuration B of V-ADJI-B. -/
def cfgB : Config := { cfg with fullScaleCurrent := 0x41800000#32 }

/-- V-ADJI-B: exactly CURRENT_MIN, the middle, just under and exactly CURRENT_MAX, above it. -/
theorem test_adji_B :
    [1792#16, 2176#16, 2559#16, 2560#16, 2561#16].map
        (fun v => runWord 5 0x90000000#32 { uniform 0#16 v with cfg := cfgB })
      = [0, 500, 998, 1000, 1000].map fun n => some (BitVec.ofNat 32 n, n, .idle) := by decide

/-! ## Events, from the vectors -/

/-- V-CAP: a capture at the last cursor, and a second delayed edge. -/
theorem test_capture :
    shows (fun t => (t.ph.read 9, t.pcur, t.ten, t.tcnt))
        (runSteps 2 (offered [.dlyEdge, .dlyEdge] { s0 with ten := true, tcnt := 100#16, pcur := 9#16 }))
      = some (some 100#16, 0#16, false, 100#16) := by decide

/-- V-CAP: the count wraps; a reference edge in Timing starts it again. -/
theorem test_tick_wraps_and_refedge_restarts :
    shows (fun t => t.tcnt) (step (offered [.tick] { s0 with ten := true, tcnt := 65535#16 })) = some 0#16 ∧
    shows (fun t => (t.tcnt, t.ten, t.pcur)) (step (offered [.refEdge] { s0 with ten := true, tcnt := 57#16 }))
      = some (0#16, true, 0#16) := by decide

/-- V-CONV: the last slot, and the wrap of WP; ignored before RUNNING. -/
theorem test_conv :
    shows (fun t => (t.sb.read 7, t.sb.read 6, t.wp)) (step (offered [.conv 4095#12] { running with wp := 7#16 }))
      = some (some 0x0FFF#16, some 401#16, 0#16) ∧
    shows (fun t => (t.sb.read 0, t.wp)) (step (offered [.conv 5#12] s0)) = some (some 100#16, 0#16) := by decide

/-- P3a: a capture before the read of its slot enters the sum; after the read it does not. -/
def p3a : State :=
  { s0 with
    ph := Memory.ofValues (List.replicate 10 100#16)
    pcur := 3#16, ten := true, tcnt := 250#16 }

theorem test_history_race :
    shows (fun t => (t.result, t.ph.read 3))
        (runSteps 13 (offered [.issue 0x30000000#32, .seq, .seq, .seq, .dlyEdge] p3a))
      = some (0x42E60000#32, some 250#16) ∧
    shows (fun t => t.result) (runSteps 13 (offered [.issue 0x30000000#32, .seq, .seq, .seq, .seq, .dlyEdge] p3a))
      = some 0x42C80000#32 := by decide

/-- P3b: six conversions between the reads mix two generations. -/
def p3b : State := { running with sb := Memory.ofValues [1000#16, 7#16, 1000#16, 7#16, 1000#16, 7#16, 1000#16, 7#16] }

/-- The offers of P3b up to the sixth conversion. -/
def p3bOffers : List Offer :=
  [.issue 0x20000000#32, .seq, .seq, .conv 2000#12, .conv 8#12, .conv 2000#12, .conv 8#12, .conv 2000#12, .conv 8#12]

theorem test_sample_race :
    shows (fun t => (t.result, t.acc, t.wp)) (runSteps 12 (offered p3bOffers p3b))
      = some (0x449C4000#32, 5000#32, 6#16) := by decide

/-! ## The clock level (R112, R33) -/

theorem test_clock_coincident_edges :
    shows (fun t => (t.ph.read 0, t.ten, t.refPrev, t.dlyPrev))
        (step (offered [.clock { quiet with refIn := true, dlyIn := true } false]
          { s0 with refPrev := false, dlyPrev := false }))
      = some (some 0#16, false, true, true) := by decide

/-- A pin already high at reset makes no edge (R33); a tick with a reference edge counts after the reset (R112). -/
theorem test_clock_edges_and_tick :
    shows (fun t => t.ten) (step (offered [.clock { quiet with refIn := true } false] s0)) = some false ∧
    shows (fun t => (t.tcnt, t.ten))
        (step (offered [.clock { quiet with refIn := true, tick := true } false] { s0 with refPrev := false }))
      = some (1#16, true) := by decide

/-- R123: `rst` abandons the command in flight without a response. -/
theorem test_clock_reset :
    shows (fun t => decide (t = s0)) (step (offered [.clock { quiet with rst := true, tick := true } true]
      { flying .volt .sum1 2#16 77#32 with ten := true, ccr := 5#10, fault := true, fcause := 1#3 })) = some true := by
  decide

/-! ## The end of a run (R127) -/

/-- Idle with a word still to come is not finished, by itself or at the pins; events may still come; a busy block is not
finished. -/
theorem test_finished :
    [s0, offered [.refEdge, .tick, .clock { quiet with tick := true } true] s0, offered [.tick, .issue 0#32] s0,
      offered [.clock { quiet with cmdValid := true } false] s0,
      flying .volt .fin 0#16 0#32, { s0 with fault := true, fcause := 1#3 }].map (fun s => (finished s, good s))
      = [(true, true), (true, true), (false, false), (false, false), (false, false), (true, false)] := by decide

/-! ## The host's two entries -/

theorem test_table_word : decodeTableWord 32 0x800001F4 = some (.setd 500#16) ∧ decodeTableWord 32 0 = none := by decide

/-- The word placed is the first thing issued, also right after State.reset. -/
theorem test_fetch_word :
    shows (fun t => (t.op, t.imm, t.stage)) (step (State.reset.withFetchWord 32 0x20000001)) = some (2#4, 1#16, .sum1) := by
  decide

/-! ## Witnesses: the hypotheses of each statement can be met -/

/-- A check that the answer passes holds of the next state. -/
theorem forall_next {f : State → Bool} {r : Result} (h : passes f r = true) (t : State) (ht : r = .next t) : f t = true := by
  subst ht; exact h

/-- The conjunction of an invariant check and an answer, as the hypotheses of a statement about a step. -/
theorem inv_and_next {vsum : Word} {s : State} {f : State → Result} (hi : invCheck vsum s = true)
    (hf : answers (f s) = true) : Inv s ∧ ∃ t, f s = .next t := ⟨inv_of_check hi, next_of_passes hf⟩

/-- A state in which much is not as after reset. -/
def busy : State :=
  { flying .volt .sum1 2#16 300#32 with
    initst := .running, calRdy := true, ten := true, tcnt := 7#16, pcur := 9#16, wp := 7#16, ccr := 1000#10
    fault := true, fcause := 4#3, result := 5#32 }

/-! ### Reset -/

theorem witness_ResetRestoresEveryItem :
    (admitted busy.cfg = true ∧ (offered [.rst, .tick] busy).offers = .rst :: [.tick]) ∧
    ({ quiet with rst := true } : Pins).rst = true ∧
    (offered [.clock { quiet with rst := true } true] busy).offers = .clock { quiet with rst := true } true :: [] := by
  decide

theorem witness_AfterResetOnlyIssueAndEdges : admitted cfg = true := by decide

/-! ### Encoding, decoding, issuing -/

theorem witness_DecodeAndEncodeAreInverse :
    decode 0x8000FFFF#32 = .command (.setd 0xFFFF#16) ∧ decode 0x20000000#32 = .command (.rdavg 0#16) := by decide

theorem witness_IssueChecksThenStarts :
    (admitted s0.cfg = true ∧ (offered [.issue 0x20000001#32, .seq] s0).offers = .issue 0x20000001#32 :: [.seq] ∧
      s0.stage = .idle) ∧
    (admitted busy.cfg = true ∧ (offered [.issue 0#32] busy).offers = .issue 0#32 :: [] ∧ busy.stage ≠ .idle) := by decide

/-- The clauses of `Issue` at their boundaries: opcodes 0, 1, 9, 10, 15; RSV 1 and 0x800; IMM 1; channels 1 and 2; INIT
in UNINIT and after it (R54). The cause, or the stage. -/
theorem witness_IssueChecksThenStarts_clauses :
    [0x00000000#32, 0x10000000#32, 0x90000000#32, 0xA0000000#32, 0xF0000000#32, 0x80010000#32, 0x88000000#32,
      0x90000001#32, 0x20000001#32, 0x20000002#32, 0x80000000#32].map
        (fun w => shows (fun t => (t.fcause.toNat, t.stage)) (step (offered [.issue w] s0)))
      = [some (1, .idle), some (0, .waitcal), some (0, .sum1), some (1, .idle), some (1, .idle), some (2, .idle),
         some (2, .idle), some (2, .idle), some (0, .sum1), some (3, .idle), some (0, .fin)] ∧
    shows (fun t => (t.fcause.toNat, t.stage)) (step (offered [.issue 0x10000000#32] running)) = some (4, .idle) := by
  decide

theorem witness_StepRunsTheCommand :
    (admitted s0.cfg = true ∧ s0.stage = .idle ∧ (offered [.issue 0x30000000#32] s0).offers = .issue 0x30000000#32 :: [] ∧
      decode 0x30000000#32 = .command .phavg) ∧
    decode (BitVec.ofNat 32 0x8000FFFF) = .command (.setd 0xFFFF#16) ∧
    (admitted busy.cfg = true ∧ busy.stage ≠ .idle ∧ (offered [.seq] busy).offers = .seq :: [] ∧
      instrOfFields busy.op busy.imm = some .volt) ∧
    busy.offers = [] := by decide

theorem witness_OnlyAdmittedConfigurationsRun :
    admitted ({ s0 with cfg := { cfg with spc := 0 } } : State).cfg = false := by decide

theorem witness_LegalCommandsStart :
    s0.stage = .idle ∧ s0.initst = .uninit ∧
    [Instr.init, .rdavg 0#16, .rdavg 1#16, .phavg, .volt, .curr, .powr, .phms, .setd 0x8000#16, .adji].all
      (fun i => i.wf s0.cfg) = true := by decide

theorem witness_ChannelRangeAndSecondInitAreIllegal :
    (s0.stage = .idle ∧ s0.cfg.channels ≤ (2#16).toNat ∧ s0.cfg.channels ≤ (0xFFFF#16).toNat) ∧
    (running.stage = .idle ∧ running.initst ≠ .uninit) := by decide

/-! ### The steps of a command -/

/-- Every clause of R62's table, for the first and for the last slot of its loop. -/
theorem witness_SumStepAddsOneSlot :
    let sb := fun (s : State) ch => s.sb.read (ch + s.idx.toNat * s.cfg.channels)
    let st := fun i => [flying i .sum1 0#16 0#32, flying i .sum1 3#16 9#32]
    ((st (.rdavg 1#16)).map fun s => sb s s.imm.toNat) = [some 9#16, some 9#16] ∧
    ((st .volt ++ st .powr).map fun s => sb s s.cfg.voltageChannel) = [some 100#16, some 401#16, some 100#16, some 401#16] ∧
    ((st .curr ++ st .adji).map fun s => sb s s.cfg.currentChannel) = [some 9#16, some 9#16, some 9#16, some 9#16] ∧
    ([flying .powr .sum2 0#16 0#32, flying .powr .sum2 3#16 9#32].map fun s => sb s s.cfg.currentChannel)
      = [some 9#16, some 9#16] ∧
    ([flying .phavg .sum1 0#16 0#32, flying .phms .sum1 9#16 9#32].map fun s => s.ph.read s.idx.toNat)
      = [some 1#16, some 10#16] := by decide

theorem witness_InitWaitsThenCompletes :
    (({ waiting with calRdy := true } : State).stage = .waitcal) ∧ (waiting.stage = .waitcal ∧ waiting.calRdy = false) ∧
    (flying .init .fin 0#16 0#32).stage = .fin := by decide

/-- Each clause of the statement defines its own value, so that a state in FIN meets it. -/
theorem witness_MeasuringCommandsReturnTheirFormula :
    let s := flying .powr .fin 0#16 16380#32
    s.stage = .fin ∧
    f32Mul s.ft0 (f32Mul (f32Div (f32OfU32 s.acc.toNat) (f32OfU32 s.cfg.spc))
      (f32Div s.cfg.fullScaleCurrent s.cfg.adcFullScaleCount)) = 0x00000000#32 ∧
    f32Mul (f32Div (f32OfU32 s.acc.toNat) (f32OfU32 s.cfg.spc))
      (f32Div s.cfg.fullScaleCurrent s.cfg.adcFullScaleCount) = 0x411FF600#32 ∧
    f32Mul (f32Div (f32OfU32 s.acc.toNat) (f32OfU32 s.cfg.spc))
      (f32Div s.cfg.fullScaleVoltage s.cfg.adcFullScaleCount) = 0x4365F1A0#32 ∧
    f32Div (f32OfU32 s.acc.toNat) (f32OfU32 s.cfg.spc) = 0x457FF000#32 ∧
    f32Div (f32OfU32 s.acc.toNat) (f32OfU32 s.cfg.n) = 0x44CCC000#32 ∧
    f32Div (f32Div (f32OfU32 s.acc.toNat) (f32OfU32 s.cfg.n)) s.cfg.msConversionFactor = 0x4323CCCD#32 := by decide

/-- The three clauses of the clamp at -1, 0, 1000 and 1001. -/
theorem witness_SetdProgramsTheClampedDuty :
    (flying (.setd 0#16) .fin 0#16 0#32).stage = .fin ∧ (0xFFFF#16).toInt < 0 ∧
    (0 ≤ (0#16).toInt ∧ (0#16).toInt ≤ 1000 ∧ ((0 : Nat) : Int) = (0#16).toInt) ∧
    (0 ≤ (1000#16).toInt ∧ (1000#16).toInt ≤ 1000 ∧ ((1000 : Nat) : Int) = (1000#16).toInt) ∧
    1000 < (1001#16).toInt := by decide

/-- The regions of the map: just below CURRENT_MIN and just above it (REFCFG); exactly CURRENT_MIN and CURRENT_MAX, and
just above it (configuration B). -/
theorem witness_AdjiProgramsTheMappedDuty :
    let cur := fun (s : State) => f32Mul (f32Div (f32OfU32 s.acc.toNat) (f32OfU32 s.cfg.spc)) (ki s.cfg)
    let ramp := fun (s : State) =>
      f32Div (f32Mul (f32Sub (cur s) s.cfg.currentMin) 0x447A0000#32) (f32Sub s.cfg.currentMax s.cfg.currentMin)
    let show3 := fun (s : State) =>
      (decide (s.stage = .fin), f32Lt (cur s) s.cfg.currentMin, f32Gt (cur s) s.cfg.currentMax, truncI32 (ramp s))
    let s := fun (c : Config) (sum : Word) => { flying .adji .fin 0#16 sum with cfg := c }
    (show3 (s cfg 11468#32)).2.1 = true ∧
    show3 (s cfg 11469#32) = (true, false, false, some 0) ∧
    show3 (s cfg 16380#32) = (true, false, false, some 999) ∧
    show3 (s cfgB 7168#32) = (true, false, false, some 0) ∧
    show3 (s cfgB 10240#32) = (true, false, false, some 1000) ∧
    ((show3 (s cfgB 10244#32)).2.1, (show3 (s cfgB 10244#32)).2.2.1) = (false, true) := by decide

/-- Each implication of the frame: INITST, CCR, RESULT, FT0, the fault record, OP do change somewhere. -/
theorem witness_CommandsLeaveTheUnitsAlone :
    passes (fun t => decide (t.initst ≠ s0.initst)) (exec .init s0) = true ∧
    passes (fun t => decide (t.ccr ≠ 0#10 ∧ t.result ≠ 0#32)) (exec (.setd 7#16) (flying (.setd 7#16) .fin 0#16 0#32)) = true ∧
    passes (fun t => decide (t.ccr ≠ 0#10)) (exec .adji (flying .adji .fin 0#16 16380#32)) = true ∧
    passes (fun t => decide (t.ft0 ≠ 0#32)) (exec .powr (flying .powr .sum1 3#16 9#32)) = true ∧
    passes (fun t => decide (t.fault ≠ s0.fault ∧ t.fcause ≠ s0.fcause)) (exec (.rdavg 2#16) s0) = true ∧
    passes (fun t => decide (t.op ≠ s0.op ∧ t.imm ≠ s0.imm)) (exec (.rdavg 1#16) s0) = true := by decide

theorem witness_AdjiIgnoresThePriorDuty :
    (∃ t, exec .adji (flying .adji .fin 0#16 16380#32) = .next t) ∧
    ∃ t, exec .adji (flying .adji .sum1 3#16 9#32) = .next t :=
  ⟨next_of_passes (f := fun _ => true) (by decide), next_of_passes (f := fun _ => true) (by decide)⟩

/-! ### Whole commands -/

/-- The hypotheses of the whole-command statements; the channel at both ends of its range. -/
theorem witness_whole_commands :
    admitted s0.cfg = true ∧ s0.sb.wf (bufLen s0.cfg) = true ∧ s0.ph.wf s0.cfg.n = true ∧ s0.stage = .idle ∧
    (0#16).toNat < s0.cfg.channels ∧ (1#16).toNat < s0.cfg.channels ∧ s0.initst = .uninit ∧ s0.calRdy = false := by decide

theorem witness_RdavgReturnsTheChannelMean :
    admitted s0.cfg = true ∧ s0.sb.wf (bufLen s0.cfg) = true ∧ s0.stage = .idle ∧ (1#16).toNat < s0.cfg.channels := by decide

theorem witness_PhavgReturnsTheHistoryMean : admitted s0.cfg = true ∧ s0.ph.wf s0.cfg.n = true ∧ s0.stage = .idle := by decide

theorem witness_VoltAndCurrScaleTheMean :
    (admitted s0.cfg = true ∧ s0.sb.wf (bufLen s0.cfg) = true ∧ s0.stage = .idle) ∧
    (Instr.volt = .volt ∧ 0 = s0.cfg.voltageChannel ∧ 0x3D660000#32 = kv s0.cfg) ∧
    (Instr.curr = .curr ∧ 1 = s0.cfg.currentChannel ∧ 0x3B200000#32 = ki s0.cfg) := by decide

theorem witness_PowrMultipliesVoltageAndCurrent :
    let s := uniform 2048#16 4095#16
    admitted s.cfg = true ∧ s.sb.wf (bufLen s.cfg) = true ∧ s.stage = .idle := by decide

theorem witness_PhmsConvertsTheHistoryMean : admitted s0.cfg = true ∧ s0.ph.wf s0.cfg.n = true ∧ s0.stage = .idle := by decide

theorem witness_SetdClampsEveryRequest : admitted s0.cfg = true ∧ s0.stage = .idle := by decide

theorem witness_AdjiMapsTheMeasuredCurrent :
    let s := uniform 0#16 4095#16
    admitted s.cfg = true ∧ s.sb.wf (bufLen s.cfg) = true ∧ s.stage = .idle := by decide

theorem witness_InitRunsOnceCalibrated :
    admitted s0.cfg = true ∧ s0.stage = .idle ∧ s0.initst = .uninit ∧ s0.calRdy = false := by decide

/-! ### Events -/

theorem witness_CalDoneSetsTheReadyFlag :
    admitted waiting.cfg = true ∧ (offered [.calDone, .tick] waiting).offers = .calDone :: [.tick] ∧
    (waiting.initst = .calibrating ∧ waiting.calRdy = false) ∧ ¬ (s0.initst = .calibrating ∧ s0.calRdy = false) := by decide

theorem witness_ConvStoresInTheNextSlot :
    let s := offered [.conv 4095#12] { running with wp := 7#16 }
    (admitted s.cfg = true ∧ s.sb.wf (bufLen s.cfg) = true ∧ s.wp.toNat < bufLen s.cfg ∧ s.offers = .conv 4095#12 :: [] ∧
      s.initst = .running) ∧
    running.wp.toNat < bufLen running.cfg ∧ s0.wp.toNat < bufLen s0.cfg ∧ s0.initst ≠ .running := by decide

/-- Nine conversions into eight slots (V-CONV, last row). -/
theorem witness_ConversionsFillTheRing :
    let vs := [9#12, 9#12, 9#12, 9#12, 9#12, 9#12, 9#12, 9#12, 10#12]
    let s := offered (vs.map .conv) running
    (admitted s.cfg = true ∧ s.sb.wf (bufLen s.cfg) = true ∧ s.initst = .running ∧ s.wp = 0#16 ∧ s.offers = vs.map .conv) ∧
    shows (fun t => t.sb.map Prod.snd) (runSteps vs.length s)
      = some [10#16, 9#16, 9#16, 9#16, 9#16, 9#16, 9#16, 9#16] := by decide

theorem witness_RefEdgeRestartsTheTimer :
    admitted busy.cfg = true ∧ (offered [.refEdge] busy).offers = .refEdge :: [] := by decide

theorem witness_DlyEdgeCapturesAndStops :
    let s := offered [.dlyEdge] busy
    (admitted s.cfg = true ∧ s.ph.wf s.cfg.n = true ∧ s.pcur.toNat < s.cfg.n ∧ s.offers = .dlyEdge :: [] ∧ s.ten = true) ∧
    s0.pcur.toNat < s0.cfg.n ∧ s0.ten = false := by decide

theorem witness_TickCountsModulo65536 :
    admitted busy.cfg = true ∧ (offered [.tick] busy).offers = .tick :: [] ∧ busy.ten = true ∧ s0.ten = false := by decide

/-- Between the edges: a command, its steps, a conversion and two ticks. -/
def between : List Offer := [.issue 0x30000000#32, .seq, .tick, .conv 3#12, .tick, .calDone]

theorem witness_MeasurementCountsTheTicks :
    (Inv (offered (.refEdge :: between ++ .dlyEdge :: []) s0) ∧ between.all betweenEdges = true) ∧
    Inv (offered (.refEdge :: between ++ .refEdge :: []) s0) ∧
    (Inv (offered (between ++ .dlyEdge :: []) s0) ∧ s0.ten = false) ∧
    shows (fun t => (t.ph.read 0, t.pcur)) (runSteps (between.length + 2)
      (offered (.refEdge :: between ++ .dlyEdge :: []) s0)) = some (some 2#16, 1#16) := by
  refine ⟨⟨?_, by decide⟩, ?_, ⟨?_, by decide⟩, by decide⟩ <;> exact inv_of_check (vsum := 0#32) (by decide)

theorem witness_EventsLeaveTheSequencerAlone :
    ∀ o ∈ [Offer.calDone, .conv 4095#12, .refEdge, .dlyEdge, .tick],
      (offered [o] busy).offers = o :: [] ∧ ∃ t, step (offered [o] busy) = .next t := by
  intro o ho
  refine ⟨rfl, next_of_passes (f := fun _ => true) ?_⟩
  revert o
  decide

/-! ### The clock level -/

theorem witness_ClockIsItsEventsInOrder :
    let p := { quiet with adcValid := true, refIn := true, tick := true }
    admitted busy.cfg = true ∧ p.rst = false ∧ (offered [.clock p true] busy).offers = .clock p true :: [] := by decide

/-- The state for the last clause: VOLT is about to read the slot that `Conv` writes. -/
def reading : State := { flying .volt .sum1 0#16 0#32 with initst := .running, calRdy := true }

theorem witness_CoincidentEventsTakeTheFixedOrder :
    (let s := { s0 with refPrev := false, dlyPrev := false }
     let p := { quiet with refIn := true, dlyIn := true }
     Inv (offered [.clock p false] s) ∧ p.rst = false ∧ p.refIn = true ∧ s.refPrev = false ∧ p.dlyIn = true ∧
       s.dlyPrev = false) ∧
    (let s := { s0 with refPrev := false, ten := true, tcnt := 65535#16 }
     let p := { quiet with refIn := true, tick := true }
     Inv (offered [.clock p false] s) ∧ p.refIn = true ∧ s.refPrev = false ∧ p.dlyIn = false ∧ p.tick = true) ∧
    (let s := { s0 with dlyPrev := false, ten := true, tcnt := 65535#16, pcur := 9#16 }
     let p := { quiet with dlyIn := true, tick := true }
     Inv (offered [.clock p false] s) ∧ s.ten = true ∧ p.refIn = false ∧ p.dlyIn = true ∧ s.dlyPrev = false ∧
       p.tick = true) ∧
    (let p := { quiet with adcValid := true, adcData := 4095#12 }
     Inv (offered [.clock p true] reading) ∧ reading.initst = .running ∧ p.adcValid = true ∧ reading.stage = .sum1 ∧
       inFlight reading = some .volt ∧
       reading.wp.toNat = reading.cfg.voltageChannel + reading.idx.toNat * reading.cfg.channels ∧
       reading.idx.toNat + 1 < reading.cfg.spc) := by
  refine ⟨⟨?_, by decide⟩, ⟨?_, by decide⟩, ⟨?_, by decide⟩, ⟨?_, by decide⟩⟩ <;>
    exact inv_of_check (vsum := 0#32) (by decide)

/-! ### The whole machine -/

theorem witness_ResetMeetsTheInvariant : admitted cfg = true ∧ admitted cfgB = true := by decide

/-- A reachable state in the second loop of POWR, with the voltage of the first in FT0. -/
def inPowr : State := { flying .powr .sum2 1#16 4095#32 with ft0 := 0x42E60000#32 }

theorem witness_EveryStepKeepsTheInvariant :
    (Inv busy ∧ ∃ t, step busy = .next t) ∧ (Inv inPowr ∧ ∃ t, step inPowr = .next t) ∧
    (Inv (offered [.calDone] waiting) ∧ ∃ t, step (offered [.calDone] waiting) = .next t) :=
  ⟨inv_and_next (vsum := 0#32) (f := step) (by decide) (by decide),
   inv_and_next (vsum := 8192#32) (f := step) (by decide) (by decide),
   inv_and_next (vsum := 0#32) (f := step) (by decide) (by decide)⟩

theorem witness_TheBlockNeverStops : Inv busy ∧ Inv inPowr :=
  ⟨inv_of_check (vsum := 0#32) (by decide), inv_of_check (vsum := 8192#32) (by decide)⟩

theorem witness_CommandsTakeTheirNumberOfSteps :
    (Inv s0 ∧ s0.stage = .idle ∧ s0.initst = .uninit ∧
      ∀ i ∈ [Instr.init, .rdavg 1#16, .phms, .powr, .setd 1#16], i.wf s0.cfg = true ∧ ∃ t, exec i s0 = .next t) ∧
    (Inv busy ∧ seqEnabled busy = true ∧ ∃ t, seqStep busy = .next t) ∧
    (Inv waiting ∧ seqEnabled waiting = false ∧ ∃ t, seqStep waiting = .next t) ∧
    (isEvent (.conv 1#12) = true ∧ ∃ t, step (offered [.conv 1#12] busy) = .next t) ∧
    (busy.stage ≠ .idle ∧ ∃ t, step (offered [.issue 0#32] busy) = .next t) := by
  have h : ∀ {r : Result}, answers r = true → ∃ t, r = .next t := next_of_passes
  refine ⟨⟨inv_of_check (vsum := 0#32) (by decide), by decide, by decide, ?_⟩,
    ⟨inv_of_check (vsum := 0#32) (by decide), by decide, h (by decide)⟩,
    ⟨inv_of_check (vsum := 0#32) (by decide), by decide, h (by decide)⟩, ⟨by decide, h (by decide)⟩,
    ⟨by decide, h (by decide)⟩⟩
  have hw : ∀ i ∈ [Instr.init, .rdavg 1#16, .phms, .powr, .setd 1#16],
      i.wf s0.cfg = true ∧ answers (exec i s0) = true := by decide
  exact fun i hi => ⟨(hw i hi).1, h (hw i hi).2⟩

theorem witness_InitIsHeldWithoutCalDone :
    Inv (offered [.seq, .issue 0#32, .tick, .clock quiet true] waiting) ∧ held waiting = true ∧
    [Offer.seq, .issue 0#32, .tick, .clock quiet true].all keepsHeld = true :=
  ⟨inv_of_check (vsum := 0#32) (by decide), by decide, by decide⟩

/-- A second illegal word, of another cause. -/
theorem witness_FaultIsStickyUntilReset :
    let s := offered [.issue 0#32] { s0 with fault := true, fcause := 3#3 }
    (∃ t, step s = .next t) ∧ noReset s = true ∧ s.fault = true :=
  ⟨next_of_passes (f := fun _ => true) (by decide), by decide, by decide⟩

theorem witness_AcquisitionNeverStops :
    let s := { waiting with calRdy := true }
    (∃ t, step s = .next t) ∧ noReset s = true :=
  ⟨next_of_passes (f := fun _ => true) (by decide), by decide⟩

/-- Each of the three cases: no response, a completed command, a refused one. -/
theorem witness_AtMostOneResponsePerStep :
    shows (fun t => t.history) (step busy) = some [] ∧
    shows (fun t => t.history) (step (flying .volt .fin 0#16 8192#32)) = some [⟨false, 0x42E60000#32⟩] ∧
    shows (fun t => t.history) (step (offered [.issue 0#32] s0)) = some [⟨true, 0x00000000#32⟩] := by decide

/-- A step of each owner, writing its items. -/
theorem witness_OnlyTheOwnerWritesAnItem :
    passes (fun t => decide (t.sb ≠ running.sb ∧ t.wp ≠ running.wp)) (step (offered [.conv 1#12] running)) = true ∧
    passes (fun t => t.calRdy) (step (offered [.calDone] waiting)) = true ∧
    passes (fun t => decide (t.ph ≠ busy.ph ∧ t.pcur ≠ busy.pcur ∧ t.ten ≠ busy.ten)) (step (offered [.dlyEdge] busy)) = true ∧
    passes (fun t => decide (t.tcnt ≠ busy.tcnt)) (step (offered [.tick] busy)) = true ∧
    passes (fun t => decide (t.fault ≠ s0.fault ∧ t.fcause ≠ s0.fcause)) (step (offered [.issue 0#32] s0)) = true ∧
    passes (fun t => decide (t.op ≠ s0.op ∧ t.imm ≠ s0.imm)) (step (offered [.issue 0x20000001#32] s0)) = true ∧
    passes (fun t => decide (t.ccr ≠ 0#10 ∧ t.result ≠ 0#32))
      (step (offered [.seq] (flying .adji .fin 0#16 16380#32))) = true ∧
    passes (fun t => decide (t.acc ≠ busy.acc ∧ t.idx ≠ busy.idx)) (step (offered [.seq] busy)) = true := by decide

theorem witness_ConfigurationIsNeverWritten : ∃ t, step busy = .next t :=
  next_of_passes (f := fun _ => true) (by decide)

/-! ### The races -/

/-- The bounds of `DelaysWithin` as a check. -/
def delaysCheck (lo hi : Nat) (s : State) : Bool :=
  s.ph.all fun c => decide (lo ≤ c.2.toNat) && decide (c.2.toNat ≤ hi)

theorem delaysWithin_of_check {lo hi : Nat} {s : State} (h : delaysCheck lo hi s = true) : DelaysWithin lo hi s := by
  intro j v hv
  have := List.all_eq_true.mp h (j, v) (mem_of_read _ _ _ hv)
  simpa using this

/-- The bounds of `ChannelWithin`, for channel 0, as a check. -/
def slotsCheck (lo hi : Nat) (s : State) : Bool :=
  (List.range s.cfg.spc).all fun k =>
    match s.sb.read (sbIndex s.cfg 0 k) with
    | some v => decide (lo ≤ v.toNat) && decide (v.toNat ≤ hi)
    | none => true

theorem channelWithin_of_check {lo hi : Nat} {s : State} (h : slotsCheck lo hi s = true) : ChannelWithin lo hi 0 s := by
  intro k v hk hv
  have := List.all_eq_true.mp h k (List.mem_range.mpr hk)
  simpa only [hv, Bool.and_eq_true, decide_eq_true_eq] using this

/-- A property of every state of a run, from a check of each. -/
theorem along_run {P : State → Prop} {f : State → Bool} {k : Nat} {s : State} (hp : ∀ u, f u = true → P u)
    (h : ∀ j : Fin (k + 1), passes f (runSteps j s) = true) :
    ∀ j v, j ≤ k → runSteps j s = .next v → P v :=
  fun j v hj hv => hp v (forall_next (h ⟨j, Nat.lt_succ_of_le hj⟩) v hv)

/-- P3a with the injected 250: PHAVG is past its last read. -/
theorem witness_HistoryRaceStaysInRange :
    let s := offered [.issue 0x30000000#32, .seq, .seq, .seq, .dlyEdge] p3a
    Inv s ∧ s.stage = .idle ∧ (∀ j v, j ≤ 12 → runSteps j s = .next v → DelaysWithin 100 250 v) ∧
    (∃ u, runSteps 12 s = .next u) ∧ shows (fun u => (u.stage, u.acc)) (runSteps 12 s) = some (.fin, 1150#32) :=
  ⟨inv_of_check (vsum := 0#32) (by decide), by decide,
    along_run (f := delaysCheck 100 250) (fun _ => delaysWithin_of_check) (by decide),
    next_of_passes (f := fun _ => true) (by decide), by decide⟩

/-- P3b with one conversion, into the second slot of the channel, between the reads: RDAVG is past its last read. -/
theorem witness_SampleRaceStaysInRange :
    let s := offered [.issue 0x20000000#32, .seq, .conv 2000#12] { p3b with wp := 2#16 }
    Inv s ∧ s.stage = .idle ∧ (∀ j v, j ≤ 6 → runSteps j s = .next v → ChannelWithin 1000 2000 0 v) ∧
    (∃ u, runSteps 6 s = .next u) ∧ shows (fun u => (u.stage, u.acc)) (runSteps 6 s) = some (.fin, 5000#32) :=
  ⟨inv_of_check (vsum := 0#32) (by decide), by decide,
    along_run (f := slotsCheck 1000 2000) (fun _ => channelWithin_of_check) (by decide),
    next_of_passes (f := fun _ => true) (by decide), by decide⟩

/-- The least and the greatest sum the bounds allow, and one between. -/
theorem witness_AverageLiesBetweenItsBounds :
    ∀ sum ∈ [10#32, 55#32, 100#32], 1 ≤ 10 ∧ 1 * 10 ≤ sum.toNat ∧ sum.toNat ≤ 10 * 10 ∧ sum.toNat < 2 ^ 24 ∧
      10 < 2 ^ 24 := by simp

/-! ### Numbers -/

/-- A tie, an underflow to a subnormal, a difference of neighbours. -/
theorem witness_ArithmeticIsCorrectlyRounded :
    (f32Finite 0x3F800001#32 = true ∧ f32Finite 0x3FC00000#32 = true ∧
      f32Finite (f32Mul 0x3F800001#32 0x3FC00000#32) = true) ∧
    (f32Finite (f32Mul 0x00800001#32 0x3F000000#32) = true ∧ f32Finite (f32Div 0x3F800000#32 0x40400000#32) = true ∧
      0 < f32Int 0x40400000#32) ∧
    f32Finite (f32Sub 0x41200000#32 0x411FFFFF#32) = true := by decide

theorem witness_IntegersConvertToTheNearest :
    4294967295 < 2 ^ 32 ∧ (16777215 = 16777215 * 2 ^ 0 ∧ 16777215 < 2 ^ 24) ∧ (4294901760 = 65535 * 2 ^ 16 ∧ 65535 < 2 ^ 24) := by
  decide

theorem witness_UniformAverageIsExact : 1 ≤ 256 ∧ 65535 ≤ 65535 ∧ 65535 * 256 < 2 ^ 24 := by decide

theorem witness_ScalingIsMonotoneAndExactAtTheEnds :
    admitted cfg = true ∧ (8192#32).toNat ≤ (16380#32).toNat ∧ f32Units cfg.adcFullScaleCount = 2 ^ 161 := by decide

/-- The FIN step of each of the six measuring commands. -/
theorem witness_MeasuredValuesAreFinite :
    (∀ i ∈ [Instr.rdavg 1#16, .phavg, .volt, .curr, .phms],
      Inv (flying i .fin 0#16 16380#32) ∧ inFlight (flying i .fin 0#16 16380#32) = some i ∧
      ∃ t, exec i (flying i .fin 0#16 16380#32) = .next t) ∧
    (let s := { flying .powr .fin 0#16 16380#32 with ft0 := 0x42E60000#32 }
     Inv s ∧ s.stage = .fin ∧ inFlight s = some .powr ∧ ∃ t, exec .powr s = .next t) := by
  refine ⟨fun i hi => ?_, inv_of_check (vsum := 8192#32) (by decide), by decide, by decide,
    next_of_passes (f := fun _ => true) (by decide)⟩
  have h : ∀ i ∈ [Instr.rdavg 1#16, .phavg, .volt, .curr, .phms],
      invCheck 0#32 (flying i .fin 0#16 16380#32) = true ∧ inFlight (flying i .fin 0#16 16380#32) = some i ∧
      answers (exec i (flying i .fin 0#16 16380#32)) = true := by decide
  exact ⟨inv_of_check (h i hi).1, (h i hi).2.1, next_of_passes (h i hi).2.2⟩

theorem witness_AverageIsAtMost65535 : 1 ≤ 256 ∧ 256 ≤ 256 ∧ (16776960#32).toNat ≤ 256 * 65535 := by decide

theorem witness_AverageIsAtMost65535AtEverySize : 1 ≤ 65536 ∧ 65536 ≤ 65536 ∧ (4294901760#32).toNat ≤ 65536 * 65535 := by decide

theorem witness_DutyMapIsADutyCycle : admitted cfg = true ∧ admitted cfgB = true := by decide

theorem witness_DutyIsZeroAtCurrentMin : admitted cfg = true ∧ admitted cfgB = true := by decide

end Sys2Proof.Tests
end

section
/-! SUPPORT. The two statements about the configuration (00_scope.md R5, R6): only an admitted one runs, and no step
writes it. -/

namespace Sys2Proof.Machine

/-! ## Which configurations run -/

theorem step_of_not_admitted {s : State} (h : admitted s.cfg = false) : step s = .refused .configNotAdmitted :=
  if_neg (Bool.eq_false_iff.mp h)

/-- The memories' reset contents are free values, so only their number can be checked (R5, R36). -/
theorem resetContentsOk_refcfg : resetContentsOk Config.refcfg = true := by
  simp [resetContentsOk, Config.refcfg, bufLen]

/-- The four groups of R6's conditions on REFCFG: the first three are about the constants of R5's table. -/
theorem admitted_refcfg : admitted Config.refcfg = true := by
  have sizes : sizesOk Config.refcfg = true := by decide
  have widths : widthsOk Config.refcfg = true := by decide
  have constants : constantsOk Config.refcfg = true := by decide
  rw [admitted, sizes, widths, constants, resetContentsOk_refcfg]
  rfl

/-- Settles O9: the step asks for an admitted configuration first, and REFCFG meets each group of R6's conditions. -/
theorem onlyAdmittedConfigurationsRun : Obligations.OnlyAdmittedConfigurationsRun :=
  ⟨fun _ => step_of_not_admitted, admitted_refcfg⟩

/-! ## No step writes the configuration -/

theorem conv_keeps_cfg {v : Sample} {s t : State} (h : conv v s = .next t) : t.cfg = s.cfg := by
  obtain ⟨-, rfl⟩ | ⟨-, -, rfl⟩ := conv_eq_next h <;> rfl

theorem dlyEdge_keeps_cfg {s t : State} (h : dlyEdge s = .next t) : t.cfg = s.cfg := by
  obtain ⟨-, rfl⟩ | ⟨-, -, rfl⟩ := dlyEdge_eq_next h <;> rfl

/-- Every form of a command's step updates other fields only. -/
theorem CommandStep.keeps_cfg {i : Instr} {s t : State} (h : CommandStep i s t) : t.cfg = s.cfg := by
  cases h <;> simp

theorem exec_keeps_cfg {i : Instr} {s t : State} (h : exec i s = .next t) : t.cfg = s.cfg :=
  (exec_eq_next h).keeps_cfg

/-- Settles O46: each atomic step of R14 keeps the configuration, so by `step_induction` every step does, a reset and a
whole clock included. -/
theorem configurationIsNeverWritten : Obligations.ConfigurationIsNeverWritten := by
  intro s t h
  refine step_induction (P := fun u => u.cfg = s.cfg) ?offers ?cal ?conv ?ref ?dly ?tick ?latch ?illegal ?issue ?seq
    ?rst rfl h
  case offers => exact fun _ _ hu => hu
  case cal => exact fun u hu => (calDone_cfg u).trans hu
  case conv => exact fun _ _ _ hu h => (conv_keeps_cfg h).trans hu
  case ref => exact fun u hu => (refEdge_cfg u).trans hu
  case dly => exact fun _ _ hu h => (dlyEdge_keeps_cfg h).trans hu
  case tick => exact fun u hu => (tick_cfg u).trans hu
  case latch => exact fun p u hu => (latchEdges_cfg p u).trans hu
  case illegal => exact fun e u _ hu => (raiseIllegal_cfg (causeOf e) u).trans hu
  case issue => exact fun _ _ _ _ hu h => (exec_keeps_cfg h).trans hu
  case seq => exact fun _ _ _ _ _ hu h => (exec_keeps_cfg h).trans hu
  case rst => exact fun u hu => (resetBlock_cfg u).trans hu

end Sys2Proof.Machine
end

section
/-! SUPPORT. The reset table (10_state.md R36), and which command a step runs (R14, 30_encoding.md R54). -/

namespace Sys2Proof.Machine

/-! ## The reset table -/

/-- Settles O1: the memories hold the configured values slot by slot, and every register its value of R36. -/
theorem resetLeavesTheTable : Obligations.ResetLeavesTheTable := fun c =>
  ⟨read_ofValues c.resetSB, read_ofValues c.resetPH, rfl, rfl, rfl, rfl, rfl, rfl, rfl, rfl, rfl, rfl, rfl, rfl, rfl,
    rfl, rfl, rfl⟩

/-! ## Which command a step runs -/

theorem step_of_offer {s : State} {o : Offer} {os : List Offer} (ha : admitted s.cfg = true) (ho : s.offers = o :: os) :
    step s = takeOffer o { s with offers := os } := by
  rw [step_of_admitted ha, takeTurn, ho]

theorem step_of_no_offer {s : State} (ha : admitted s.cfg = true) (ho : s.offers = []) : step s = seqStep s := by
  rw [step_of_admitted ha, takeTurn, ho]

theorem issueWord_of_idle {w : Word} {s : State} {i : Instr} (hs : s.stage = .idle) (hd : decode w = .command i) :
    issueWord w s = exec i s := by
  rw [issueWord, cmdReady, decide_eq_true hs, if_pos rfl, hd]

theorem seqStep_of_busy {s : State} {i : Instr} (hs : s.stage ≠ .idle) (hi : inFlight s = some i) :
    seqStep s = exec i s := by
  rw [seqStep, cmdReady, decide_eq_false hs, if_neg Bool.false_ne_true, hi]

/-- Settles O8: the host's word, the same word placed by `withFetchWord`, an offered step of the sequencer, and the
sequencer with nothing offered. -/
theorem stepRunsTheCommand : Obligations.StepRunsTheCommand := by
  refine ⟨?word, ?placed, ?offered, ?unoffered⟩
  case word =>
    intro s w i os ha hs ho hd
    exact (step_of_offer ha ho).trans (issueWord_of_idle (s := { s with offers := os }) hs hd)
  case placed =>
    intro s w i ha hd
    have hw : BitVec.ofNat 32 (w % 2 ^ 32) = BitVec.ofNat 32 w :=
      BitVec.eq_of_toNat_eq (by simp)
    exact (step_of_offer (s := s.withFetchWord 32 w) ha rfl).trans
      (issueWord_of_idle (s := { s with stage := .idle }) rfl (hw ▸ hd))
  case offered =>
    intro s i os ha hs ho hi
    exact (step_of_offer ha ho).trans (seqStep_of_busy (s := { s with offers := os }) hs hi)
  case unoffered =>
    intro s i ha hs ho hi
    exact (step_of_no_offer ha ho).trans (seqStep_of_busy hs hi)

end Sys2Proof.Machine
end

section
/-! SUPPORT. What one step of a command computes and what it leaves unchanged (10_state.md R13, R32, 42_measurement.md). -/

namespace Sys2Proof.Machine

/-! ## The last step of a measuring command -/

/-- The commands that complete with a value computed from a sum (R66, R77, R89 to R92). -/
def measuring : Instr → Bool
  | .rdavg _ | .phavg | .volt | .curr | .powr | .phms => true
  | .init | .setd _ | .adji => false

theorem exec_fin_of_measuring {i : Instr} {s : State} (hi : measuring i = true) (hs : s.stage = .fin) :
    exec i s = .next (complete (measuredValue i s) s) := by
  cases i with
  | init | setd _ | adji => cases hi
  | rdavg _ => simp only [exec, execRdavg, hs, measuredValue]
  | phavg => simp only [exec, execPhavg, hs, measuredValue]
  | volt => simp only [exec, execVolt, hs, measuredValue]
  | curr => simp only [exec, execCurr, hs, measuredValue]
  | powr => simp only [exec, execPowr, hs, measuredValue]
  | phms => simp only [exec, execPhms, hs, measuredValue]

/-- Settles O14: each rule's formula is the value the command completes with. -/
theorem measuringCommandsReturnTheirFormula : Obligations.MeasuringCommandsReturnTheirFormula := by
  intro s i v hs mean hv
  obtain ⟨hm, rfl⟩ : measuring i = true ∧ v = measuredValue i s := by
    obtain ⟨⟨ch, rfl⟩, rfl⟩ | ⟨rfl, rfl⟩ | ⟨rfl, rfl⟩ | ⟨rfl, rfl⟩ | ⟨rfl, rfl⟩ | ⟨rfl, rfl⟩ := hv <;>
      exact ⟨rfl, rfl⟩
  exact exec_fin_of_measuring hm hs

/-! ## What a command's step leaves unchanged -/

/-- The items that only the events write (R13), the flip-flops (R33), the configuration and the offers are the same. -/
structure KeepsUnits (s t : State) : Prop where
  sb : t.sb = s.sb
  wp : t.wp = s.wp
  calRdy : t.calRdy = s.calRdy
  ph : t.ph = s.ph
  pcur : t.pcur = s.pcur
  tcnt : t.tcnt = s.tcnt
  ten : t.ten = s.ten
  refPrev : t.refPrev = s.refPrev
  dlyPrev : t.dlyPrev = s.dlyPrev
  cfg : t.cfg = s.cfg
  offers : t.offers = s.offers

/-- The operand of a command is checked for `RDAVG` only (30_encoding.md R51). -/
theorem exists_rdavg_of_not_wf {c : Config} {i : Instr} (h : i.wf c = false) : ∃ ch, i = .rdavg ch := by
  cases i with
  | rdavg ch => exact ⟨ch, rfl⟩
  | _ => cases h

namespace CommandStep

variable {i : Instr} {s t : State}

theorem keepsUnits (h : CommandStep i s t) : KeepsUnits s t := by
  cases h <;> constructor <;> rfl

theorem init_of_initst_ne (h : CommandStep i s t) (hne : t.initst ≠ s.initst) : i = .init := by
  cases h with
  | initStarts hi | calibrated hi => exact hi
  | _ => exact absurd rfl hne

theorem programming_of_ccr_ne (h : CommandStep i s t) (hne : t.ccr ≠ s.ccr) :
    s.stage = .fin ∧ ((∃ d, i = .setd d) ∨ i = .adji) := by
  cases h with
  | programs _ hs hd => exact ⟨hs, hd.imp And.left And.left⟩
  | _ => exact absurd rfl hne

theorem fin_of_result_ne (h : CommandStep i s t) (hne : t.result ≠ s.result) : s.stage = .fin := by
  cases h with
  | completes _ hs | programs _ hs => exact hs
  | _ => exact absurd rfl hne

theorem firstSum_of_ft0_ne (h : CommandStep i s t) (hne : t.ft0 ≠ s.ft0) : i = .powr ∧ s.stage = .sum1 := by
  cases h with
  | firstSumEnds _ hs hi => exact ⟨hi, hs⟩
  | _ => exact absurd rfl hne

theorem issue_of_fault_ne (h : CommandStep i s t) (hne : t.fault ≠ s.fault ∨ t.fcause ≠ s.fcause) :
    s.stage = .idle ∧ (i = .init ∨ ∃ ch, i = .rdavg ch) := by
  cases h with
  | illegal _ hs hc => exact ⟨hs, hc.imp And.left fun hw => exists_rdavg_of_not_wf hw.1⟩
  | _ => exact absurd hne (by simp)

theorem idle_of_op_ne (h : CommandStep i s t) (hne : t.op ≠ s.op ∨ t.imm ≠ s.imm) : s.stage = .idle := by
  cases h with
  | initStarts _ hs | starts _ hs => exact hs
  | _ => exact absurd hne (by simp)

end CommandStep

/-- Settles O17: by the forms a command's step can take; no form writes a slot or a register of the units. -/
theorem commandsLeaveTheUnitsAlone : Obligations.CommandsLeaveTheUnitsAlone := by
  intro i s t h
  have h := exec_eq_next h
  have hu := h.keepsUnits
  exact ⟨fun a => by rw [hu.sb], fun a => by rw [hu.ph], hu.wp, hu.pcur, hu.tcnt, hu.ten, hu.calRdy, hu.refPrev,
    hu.dlyPrev, hu.cfg, hu.offers, h.init_of_initst_ne, h.programming_of_ccr_ne, h.fin_of_result_ne,
    h.firstSum_of_ft0_ne, h.issue_of_fault_ne, h.idle_of_op_ne⟩

end Sys2Proof.Machine
end

section
/-! SUPPORT. What every step of the block can do to the sequencer (10_state.md R13, R14): events and edge latches leave it
alone, and at most one turn of the sequencer or the host is taken between them, in a whole clock too (60_exceptions.md
R112, R113). -/

namespace Sys2Proof.Machine

/-! ## What an event leaves unchanged -/

/-- The items that only commands write (R13), the responses and the configuration are the same. -/
structure KeepsSequencer (s t : State) : Prop where
  initst : t.initst = s.initst
  ccr : t.ccr = s.ccr
  result : t.result = s.result
  fault : t.fault = s.fault
  fcause : t.fcause = s.fcause
  op : t.op = s.op
  imm : t.imm = s.imm
  acc : t.acc = s.acc
  idx : t.idx = s.idx
  stage : t.stage = s.stage
  ft0 : t.ft0 = s.ft0
  cfg : t.cfg = s.cfg
  history : t.history = s.history

namespace KeepsSequencer

theorem refl (s : State) : KeepsSequencer s s := by
  constructor <;> rfl

theorem trans {s t u : State} (h : KeepsSequencer s t) (k : KeepsSequencer t u) : KeepsSequencer s u where
  initst := k.initst.trans h.initst
  ccr := k.ccr.trans h.ccr
  result := k.result.trans h.result
  fault := k.fault.trans h.fault
  fcause := k.fcause.trans h.fcause
  op := k.op.trans h.op
  imm := k.imm.trans h.imm
  acc := k.acc.trans h.acc
  idx := k.idx.trans h.idx
  stage := k.stage.trans h.stage
  ft0 := k.ft0.trans h.ft0
  cfg := k.cfg.trans h.cfg
  history := k.history.trans h.history

theorem of_offers (s : State) (os : List Offer) : KeepsSequencer s { s with offers := os } := by
  constructor <;> rfl

theorem of_refEdge (s : State) : KeepsSequencer s (refEdge s) := by
  constructor <;> rfl

theorem of_latchEdges (p : Pins) (s : State) : KeepsSequencer s (latchEdges p s) := by
  constructor <;> rfl

theorem of_calDone (s : State) : KeepsSequencer s (calDone s) := by
  constructor <;> simp

theorem of_tick (s : State) : KeepsSequencer s (tick s) := by
  constructor <;> simp

theorem of_conv {v : Sample} {s t : State} (h : conv v s = .next t) : KeepsSequencer s t := by
  obtain ⟨-, rfl⟩ | ⟨-, -, rfl⟩ := conv_eq_next h <;> constructor <;> rfl

theorem of_dlyEdge {s t : State} (h : dlyEdge s = .next t) : KeepsSequencer s t := by
  obtain ⟨-, rfl⟩ | ⟨-, -, rfl⟩ := dlyEdge_eq_next h <;> constructor <;> rfl

/-- An event whose pin may be 0. -/
theorem of_ite {s t : State} (pin : Bool) (h : KeepsSequencer s t) : KeepsSequencer s (if pin then t else s) := by
  split
  exacts [h, refl s]

/-- An event of a clock that may find no slot, whose pin may be 0. -/
theorem of_whenPin {pin : Bool} {f : State → Result} {s t : State} (hf : f s = .next t → KeepsSequencer s t)
    (h : whenPin pin f s = .next t) : KeepsSequencer s t := by
  obtain ⟨-, h⟩ | ⟨-, rfl⟩ := whenPin_eq_next h
  exacts [hf h, refl t]

end KeepsSequencer

/-! ## The turn of the sequencer or the host -/

/-- What the one turn of sequencer or host in a step can lead to (R14). -/
inductive Turn (s : State) : State → Prop where
  /-- Nothing is offered that is enabled. -/
  | idles : Turn s s
  /-- The host's word is no command. -/
  | refuses (e : DecodeError) (hs : s.stage = .idle) : Turn s (raiseIllegal (causeOf e) s)
  /-- The host's word is issued. -/
  | issues (i : Instr) {t : State} (hs : s.stage = .idle) (h : CommandStep i s t) : Turn s t
  /-- The command in flight takes its step. -/
  | continues (i : Instr) {t : State} (hs : s.stage ≠ .idle) (hf : inFlight s = some i) (h : CommandStep i s t) : Turn s t

theorem Turn.of_issueWord {w : Word} {s t : State} (h : issueWord w s = .next t) : Turn s t := by
  obtain ⟨-, rfl⟩ | ⟨hs, e, -, rfl⟩ | ⟨hs, i, -, h⟩ := issueWord_eq_next h
  exacts [.idles, .refuses e hs, .issues i hs (exec_eq_next h)]

theorem Turn.of_seqStep {s t : State} (h : seqStep s = .next t) : Turn s t := by
  obtain ⟨-, rfl⟩ | ⟨hs, i, hf, h⟩ := seqStep_eq_next h
  exacts [.idles, .continues i hs hf (exec_eq_next h)]

theorem Turn.of_clockTurn {p : Pins} {go : Bool} {s t : State} (h : clockTurn p go s = .next t) : Turn s t := by
  obtain rfl | ⟨-, h⟩ | ⟨-, h⟩ := clockTurn_eq_next h
  exacts [.idles, .of_issueWord h, .of_seqStep h]

/-! ## The inversion lemma of a step, as the sequencer sees it -/

/-- Events, one turn of sequencer or host, and the latching of the edges. -/
def OneTurn (s t : State) : Prop := ∃ u v, KeepsSequencer s u ∧ Turn u v ∧ KeepsSequencer v t

theorem Turn.oneTurn {s t : State} (h : Turn s t) : OneTurn s t := ⟨s, t, .refl s, h, .refl t⟩

theorem KeepsSequencer.oneTurn {s t : State} (h : KeepsSequencer s t) : OneTurn s t := ⟨t, t, h, .idles, .refl t⟩

theorem OneTurn.of_keepsSequencer {s t u : State} (h : KeepsSequencer s t) (k : OneTurn t u) : OneTurn s u := by
  obtain ⟨v, w, h1, ht, h2⟩ := k
  exact ⟨v, w, h.trans h1, ht, h2⟩

theorem clockStep_oneTurn {p : Pins} {go : Bool} {s t : State} (h : clockStep p go s = .next t) :
    (p.rst = true ∧ t = resetBlock s) ∨ OneTurn s t := by
  obtain hr | ⟨-, s1, s2, s3, s4, s5, s6, rfl, h2, rfl, h4, rfl, h6, rfl⟩ := clockStep_eq_next h
  · exact .inl hr
  · have cal := KeepsSequencer.of_ite p.calRdyIn (.of_calDone s)
    have conv := KeepsSequencer.of_whenPin .of_conv h2
    have ref := KeepsSequencer.of_ite (p.refIn && !s2.refPrev) (.of_refEdge s2)
    have dly := KeepsSequencer.of_whenPin .of_dlyEdge h4
    have tick := KeepsSequencer.of_ite p.tick (.of_tick s4)
    exact .inr ⟨_, s6, cal.trans (conv.trans (ref.trans (dly.trans tick))), .of_clockTurn h6, .of_latchEdges p s6⟩

theorem takeOffer_oneTurn {o : Offer} {s t : State} (h : takeOffer o s = .next t) :
    (isReset o = true ∧ t = resetBlock s) ∨ OneTurn s t := by
  cases o with
  | issue w => exact .inr (Turn.of_issueWord h).oneTurn
  | seq => exact .inr (Turn.of_seqStep h).oneTurn
  | calDone => cases h; exact .inr (KeepsSequencer.of_calDone s).oneTurn
  | conv v => exact .inr (KeepsSequencer.of_conv h).oneTurn
  | refEdge => cases h; exact .inr (KeepsSequencer.of_refEdge s).oneTurn
  | dlyEdge => exact .inr (KeepsSequencer.of_dlyEdge h).oneTurn
  | tick => cases h; exact .inr (KeepsSequencer.of_tick s).oneTurn
  | rst => cases h; exact .inl ⟨rfl, rfl⟩
  | clock p go => exact clockStep_oneTurn h

/-- A step is a reset, or events and at most one turn of the sequencer or the host. -/
theorem step_oneTurn {s t : State} (h : step s = .next t) :
    (noReset s = false ∧ ∃ os, t = resetBlock { s with offers := os }) ∨ OneTurn s t := by
  obtain ⟨-, ⟨-, h⟩ | ⟨o, os, ho, h⟩⟩ := step_eq_next h
  · exact .inr (Turn.of_seqStep h).oneTurn
  · obtain ⟨hr, rfl⟩ | h := takeOffer_oneTurn h
    · exact .inl ⟨by simp [noReset, ho, hr], os, rfl⟩
    · exact .inr (.of_keepsSequencer (.of_offers s os) h)

theorem step_oneTurn_of_noReset {s t : State} (h : step s = .next t) (hr : noReset s = true) : OneTurn s t :=
  (step_oneTurn h).resolve_left fun ⟨hn, _⟩ => Bool.false_ne_true (hn.symm.trans hr)

/-! ## The fault record -/

/-- A fault already recorded is the one that stays (60_exceptions.md R106). -/
theorem raiseIllegal_keeps_fault {s : State} (c : BitVec 3) (hf : s.fault = true) :
    (raiseIllegal c s).fault = true ∧ (raiseIllegal c s).fcause = s.fcause :=
  ⟨rfl, if_pos hf⟩

theorem CommandStep.keeps_fault {i : Instr} {s t : State} (h : CommandStep i s t) (hf : s.fault = true) :
    t.fault = true ∧ t.fcause = s.fcause := by
  cases h with
  | illegal c => exact raiseIllegal_keeps_fault c hf
  | _ => exact ⟨hf, rfl⟩

theorem Turn.keeps_fault {s t : State} (h : Turn s t) (hf : s.fault = true) :
    t.fault = true ∧ t.fcause = s.fcause := by
  cases h with
  | idles => exact ⟨hf, rfl⟩
  | refuses e => exact raiseIllegal_keeps_fault (causeOf e) hf
  | issues _ _ h | continues _ _ _ h => exact h.keeps_fault hf

/-- Settles O42: only a turn of sequencer or host touches the fault record, and it keeps a recorded fault. -/
theorem faultIsStickyUntilReset : Obligations.FaultIsStickyUntilReset := by
  intro s t h hr hf
  obtain ⟨u, v, hu, hturn, hv⟩ := step_oneTurn_of_noReset h hr
  obtain ⟨hfault, hcause⟩ := hturn.keeps_fault (hu.fault.trans hf)
  exact ⟨hv.fault.trans hfault, hv.fcause.trans (hcause.trans hu.fcause)⟩

/-! ## INITST -/

theorem initCode_le_two (x : InitSt) : (initCode x).toNat ≤ 2 := by
  cases x <;> decide

theorem CommandStep.initCode_le {i : Instr} {s t : State} (h : CommandStep i s t) :
    (initCode s.initst).toNat ≤ (initCode t.initst).toNat := by
  cases h with
  | initStarts _ _ hu => rw [hu]; exact Nat.zero_le _
  | calibrated => exact initCode_le_two s.initst
  | _ => exact Nat.le_refl _

theorem Turn.initCode_le {s t : State} (h : Turn s t) : (initCode s.initst).toNat ≤ (initCode t.initst).toNat := by
  cases h with
  | idles | refuses => exact Nat.le_refl _
  | issues _ _ h | continues _ _ _ h => exact h.initCode_le

/-- Settles O43: only a turn of sequencer or host writes INITST, and INIT moves its code up. -/
theorem acquisitionNeverStops : Obligations.AcquisitionNeverStops := by
  intro s t h hr
  obtain ⟨u, v, hu, hturn, hv⟩ := step_oneTurn_of_noReset h hr
  rw [← hu.initst, hv.initst]
  exact hturn.initCode_le

/-! ## Responses -/

/-- From `s` to `t` no response, the one of a completed command, or the one of a refused word (10_state.md R32). -/
def PresentsAtMostOne (s t : State) : Prop :=
  t.history = s.history ∨
  (t.history = ⟨false, t.result⟩ :: s.history ∧ s.stage = .fin ∧ t.stage = .idle) ∨
  (t.history = ⟨true, 0x00000000#32⟩ :: s.history ∧ s.stage = .idle ∧ t.stage = .idle ∧ t.fault = true)

theorem raiseIllegal_presents {s : State} (c : BitVec 3) (hs : s.stage = .idle) :
    PresentsAtMostOne s (raiseIllegal c s) :=
  .inr (.inr ⟨rfl, hs, hs, rfl⟩)

theorem CommandStep.presents {i : Instr} {s t : State} (h : CommandStep i s t) : PresentsAtMostOne s t := by
  cases h with
  | illegal c hs => exact raiseIllegal_presents c hs
  | completes _ hs | programs _ hs => exact .inr (.inl ⟨rfl, hs, rfl⟩)
  | _ => exact .inl rfl

theorem Turn.presents {s t : State} (h : Turn s t) : PresentsAtMostOne s t := by
  cases h with
  | idles => exact .inl rfl
  | refuses e hs => exact raiseIllegal_presents (causeOf e) hs
  | issues _ _ h | continues _ _ _ h => exact h.presents

/-- Settles O44: a reset presents nothing, and any other step takes at most one turn, which presents at most one. -/
theorem atMostOneResponsePerStep : Obligations.AtMostOneResponsePerStep := by
  intro s t h
  obtain ⟨-, os, rfl⟩ | ⟨u, v, hu, hturn, hv⟩ := step_oneTurn h
  · exact .inl rfl
  · rw [← hu.history, ← hu.stage, hv.history, hv.result, hv.stage, hv.fault]
    exact hturn.presents

/-! ## The owners of the items -/

theorem KeepsUnits.refl (s : State) : KeepsUnits s s := by
  constructor <;> rfl

theorem Turn.keepsUnits {s t : State} (h : Turn s t) : KeepsUnits s t := by
  cases h with
  | idles => exact .refl s
  | refuses => constructor <;> rfl
  | issues _ _ h | continues _ _ _ h => exact h.keepsUnits

/-- A command writes its results in FIN and SUM1, never at its issue. -/
theorem CommandStep.keeps_results_of_idle {i : Instr} {s t : State} (h : CommandStep i s t) (hs : s.stage = .idle) :
    t.ccr = s.ccr ∧ t.result = s.result ∧ t.ft0 = s.ft0 := by
  refine ⟨?_, ?_, ?_⟩ <;> by_contra hne
  · exact absurd (hs.symm.trans (h.programming_of_ccr_ne hne).1) (by decide)
  · exact absurd (hs.symm.trans (h.fin_of_result_ne hne)) (by decide)
  · exact absurd (hs.symm.trans (h.firstSum_of_ft0_ne hne).2) (by decide)

theorem issueWord_keeps_results {w : Word} {s t : State} (h : issueWord w s = .next t) :
    t.ccr = s.ccr ∧ t.result = s.result ∧ t.ft0 = s.ft0 := by
  obtain ⟨-, rfl⟩ | ⟨-, e, -, rfl⟩ | ⟨hs, i, -, h⟩ := issueWord_eq_next h
  exacts [⟨rfl, rfl, rfl⟩, ⟨rfl, rfl, rfl⟩, (exec_eq_next h).keeps_results_of_idle hs]

/-- A command is checked and latched at its issue only (30_encoding.md R54). -/
theorem seqStep_keeps_issue {s t : State} (h : seqStep s = .next t) :
    t.fault = s.fault ∧ t.fcause = s.fcause ∧ t.op = s.op ∧ t.imm = s.imm := by
  obtain ⟨-, rfl⟩ | ⟨hs, i, -, h⟩ := seqStep_eq_next h
  · exact ⟨rfl, rfl, rfl, rfl⟩
  · have h := exec_eq_next h
    have hfault := not_or.mp fun hne => hs (h.issue_of_fault_ne hne).1
    have hlatch := not_or.mp fun hne => hs (h.idle_of_op_ne hne)
    exact ⟨not_not.mp hfault.1, not_not.mp hfault.2, not_not.mp hlatch.1, not_not.mp hlatch.2⟩

theorem conv_keeps_capture {v : Sample} {s t : State} (h : conv v s = .next t) :
    t.calRdy = s.calRdy ∧ t.ph = s.ph ∧ t.pcur = s.pcur ∧ t.tcnt = s.tcnt ∧ t.ten = s.ten := by
  obtain ⟨-, rfl⟩ | ⟨-, -, rfl⟩ := conv_eq_next h <;> exact ⟨rfl, rfl, rfl, rfl, rfl⟩

theorem dlyEdge_keeps_acquisition {s t : State} (h : dlyEdge s = .next t) :
    t.sb = s.sb ∧ t.wp = s.wp ∧ t.calRdy = s.calRdy ∧ t.tcnt = s.tcnt := by
  obtain ⟨-, rfl⟩ | ⟨-, -, rfl⟩ := dlyEdge_eq_next h <;> exact ⟨rfl, rfl, rfl, rfl⟩

/-- The owners' table of R13: what differs from `s` to `t`, the offer `o` may write. -/
def WritesOwnItems (o : Offer) (s t : State) : Prop :=
  (t.sb ≠ s.sb ∨ t.wp ≠ s.wp → ∃ v, o = .conv v) ∧
  (t.calRdy ≠ s.calRdy → o = .calDone) ∧
  (t.ph ≠ s.ph ∨ t.pcur ≠ s.pcur → o = .dlyEdge) ∧
  (t.tcnt ≠ s.tcnt → o = .refEdge ∨ o = .tick) ∧
  (t.ten ≠ s.ten → o = .refEdge ∨ o = .dlyEdge) ∧
  (t.fault ≠ s.fault ∨ t.fcause ≠ s.fcause ∨ t.op ≠ s.op ∨ t.imm ≠ s.imm → ∃ w, o = .issue w) ∧
  (t.ccr ≠ s.ccr ∨ t.result ≠ s.result ∨ t.ft0 ≠ s.ft0 → o = .seq) ∧
  (t.initst ≠ s.initst ∨ t.acc ≠ s.acc ∨ t.idx ≠ s.idx ∨ t.stage ≠ s.stage → o = .seq ∨ ∃ w, o = .issue w)

/-- The host and the sequencer leave the units alone and share the sequencer's items between them; each event leaves the
sequencer and the other units alone. -/
theorem takeOffer_writes_own_items {o : Offer} {s t : State} (h : takeOffer o s = .next t) (hrst : o ≠ .rst)
    (hclock : ∀ p go, o ≠ .clock p go) : WritesOwnItems o s t := by
  unfold WritesOwnItems
  cases o with
  | issue w =>
    have units := (Turn.of_issueWord h).keepsUnits
    obtain ⟨hccr, hresult, hft0⟩ := issueWord_keeps_results h
    simp [units.sb, units.wp, units.calRdy, units.ph, units.pcur, units.tcnt, units.ten, hccr, hresult, hft0]
  | seq =>
    have units := (Turn.of_seqStep h).keepsUnits
    obtain ⟨hfault, hcause, hop, himm⟩ := seqStep_keeps_issue h
    simp [units.sb, units.wp, units.calRdy, units.ph, units.pcur, units.tcnt, units.ten, hfault, hcause, hop, himm]
  | calDone => cases h; simp
  | conv v =>
    have seq := KeepsSequencer.of_conv h
    obtain ⟨hcal, hph, hpcur, htcnt, hten⟩ := conv_keeps_capture h
    simp [hcal, hph, hpcur, htcnt, hten, seq.fault, seq.fcause, seq.op, seq.imm, seq.ccr, seq.result, seq.ft0,
      seq.initst, seq.acc, seq.idx, seq.stage]
  | refEdge => cases h; simp
  | dlyEdge =>
    have seq := KeepsSequencer.of_dlyEdge h
    obtain ⟨hsb, hwp, hcal, htcnt⟩ := dlyEdge_keeps_acquisition h
    simp [hsb, hwp, hcal, htcnt, seq.fault, seq.fcause, seq.op, seq.imm, seq.ccr, seq.result, seq.ft0,
      seq.initst, seq.acc, seq.idx, seq.stage]
  | tick => cases h; simp
  | rst => exact absurd rfl hrst
  | clock p go => exact absurd rfl (hclock p go)

/-- Settles O45: the step takes the offer, and taking the offers off the list writes no item. -/
theorem onlyTheOwnerWritesAnItem : Obligations.OnlyTheOwnerWritesAnItem := by
  intro s t o os ho h hrst hclock
  have h := (step_of_offer (step_eq_next h).1 ho).symm.trans h
  exact takeOffer_writes_own_items (s := { s with offers := os }) h hrst hclock

end Sys2Proof.Machine
end

section
/-! SUPPORT. How many steps of the sequencer a command has left (10_state.md R30): the measure after its issue, and that
each enabled step takes one off and nothing else changes it. -/

namespace Sys2Proof.Machine

/-! ## The measure, stage by stage -/

/-- The slots of the second loop still to come after this one: those of `POWR` in its first loop (42_measurement.md R91). -/
def laterSlots (i : Instr) (s : State) : Nat := if i = .powr ∧ s.stage = .sum1 then s.cfg.spc else 0

section
variable {i : Instr} {s : State}

theorem seqLeft_idle (hs : s.stage = .idle) : seqLeft s = 0 := by
  simp [seqLeft, hs]

theorem seqLeft_waitcal (hf : inFlight s = some i) (hs : s.stage = .waitcal) : seqLeft s = 2 := by
  simp [seqLeft, hf, hs]

theorem seqLeft_fin (hf : inFlight s = some i) (hs : s.stage = .fin) : seqLeft s = 1 := by
  simp [seqLeft, hf, hs]

/-- In a loop: the slots left of it, those of a later loop, and FIN. -/
theorem seqLeft_summing (hf : inFlight s = some i) (hs : summing s.stage = true) :
    seqLeft s = (sumLen s.cfg i - s.idx.toNat) + laterSlots i s + 1 := by
  cases hst : s.stage with
  | idle | waitcal | fin => rw [hst] at hs; cases hs
  | sum2 => simp [seqLeft, laterSlots, hf, hst]
  | sum1 => cases i <;> simp [seqLeft, laterSlots, sumLen, hf, hst]

end

/-- The measure reads nothing of the units. -/
theorem KeepsSequencer.seqLeft {s t : State} (h : KeepsSequencer s t) : seqLeft t = seqLeft s := by
  simp only [Machine.seqLeft, inFlight, h.stage, h.op, h.imm, h.idx, h.cfg]

/-! ## Issue -/

/-- OP and IMM hold the command whose opcode and immediate they take (10_state.md R28, 30_encoding.md R53). -/
@[simp] theorem instrOfFields_opcodeOf (i : Instr) : instrOfFields (opcodeOf i) (immOf i) = some i := by
  cases i <;> rfl

theorem inFlight_issue (i : Instr) (first : Stage) (s : State) :
    inFlight (issue (opcodeOf i) (immOf i) first s) = some i :=
  instrOfFields_opcodeOf i

/-- After its issue a legal command has the steps of R30's table left. -/
theorem CommandStep.seqLeft_of_issue {i : Instr} {s t : State} (h : CommandStep i s t) (hs : s.stage = .idle)
    (hw : i.wf s.cfg = true) (hu : i = .init → s.initst = .uninit) :
    seqLeft t = if i = .init then 2 else if i = .powr then 2 * s.cfg.spc + 1 else sumLen s.cfg i + 1 := by
  cases h with
  | initStarts hi => subst hi; exact seqLeft_waitcal (i := .init) rfl rfl
  | starts hi =>
    by_cases hsetd : opcodeOf i = 8#4
    · obtain ⟨d, rfl⟩ : ∃ d, i = .setd d := by cases i <;> simp_all [opcodeOf]
      exact seqLeft_fin (inFlight_issue (.setd d) _ s) rfl
    · rw [if_neg hsetd, seqLeft_summing (inFlight_issue i .sum1 s) rfl, if_neg hi]
      by_cases hp : i = .powr
      · subst hp; simp [laterSlots, sumLen, opcodeOf]; omega
      · simp [laterSlots, hp]
  | illegal _ _ hc =>
    obtain ⟨hi, hn, -⟩ | ⟨hn, -⟩ := hc
    · exact absurd (hu hi) hn
    · rw [hw] at hn; cases hn
  | waits _ hn | calibrated _ hn | firstSumEnds _ hn | completes _ hn | programs _ hn => rw [hs] at hn; cases hn
  | sums _ hn | sumEnds _ hn => rw [hs] at hn; cases hn

/-! ## A step of the sequencer -/

theorem AdmittedFacts.sumLen_le {c : Config} (h : AdmittedFacts c) (i : Instr) : sumLen c i ≤ 65536 := by
  have hspc : c.spc ≤ 65536 := (Nat.le_mul_of_pos_left c.spc h.channels_pos).trans h.bufLen_le
  have hn := h.n_le
  cases i <;> simp only [sumLen] <;> omega

/-- IDX does not wrap while slots of the sum are left: there are at most 65536 of them (00_scope.md R6). -/
theorem toNat_idx_succ {x : BitVec 16} {n : Nat} (hx : x.toNat + 1 < n) (hn : n ≤ 65536) :
    (x + 1#16).toNat = x.toNat + 1 := by
  bv_omega

/-- The command in flight stays the same until the next issue (10_state.md R28). -/
theorem CommandStep.inFlight_of_busy {i : Instr} {s t : State} (h : CommandStep i s t) (hs : s.stage ≠ .idle) :
    inFlight t = inFlight s := by
  have hlatch := not_or.mp fun hne => hs (h.idle_of_op_ne hne)
  rw [inFlight, inFlight, not_not.mp hlatch.1, not_not.mp hlatch.2]

/-- An enabled step of the command in flight takes one off the steps it has left. -/
theorem CommandStep.seqLeft_succ {i : Instr} {s t : State} (h : CommandStep i s t) (ha : admitted s.cfg = true)
    (hi : InFlightOk i s) (he : seqEnabled s = true) : seqLeft s = seqLeft t + 1 := by
  obtain ⟨hbusy, hready⟩ : s.stage ≠ .idle ∧ (s.stage = .waitcal → s.calRdy = true) := by
    simpa [seqEnabled, or_iff_not_imp_left] using he
  have hf := hi.latched
  have hft := (h.inFlight_of_busy hbusy).trans hf
  cases h with
  | initStarts _ hs | starts _ hs | illegal _ hs => exact absurd hs hbusy
  | waits _ hs hr => rw [hready hs] at hr; cases hr
  | calibrated _ hs => rw [seqLeft_waitcal hf hs, seqLeft_fin hft rfl]
  | sums v hs _ _ hl =>
    have hidx := toNat_idx_succ hl ((admitted_facts ha).sumLen_le i)
    rw [seqLeft_summing hf hs, seqLeft_summing hft hs]
    simp only [laterSlots, hidx]
    omega
  | sumEnds v hs _ _ hl hp =>
    have hidx := hi.idxOk
    rw [if_pos hs] at hidx
    rw [seqLeft_summing hf hs, seqLeft_fin hft rfl, laterSlots, if_neg hp]
    omega
  | firstSumEnds v hs hpowr _ hl =>
    subst hpowr
    have hsum : summing s.stage = true := by rw [hs]; rfl
    have hidx := hi.idxOk
    rw [if_pos hsum] at hidx
    rw [seqLeft_summing hf hsum, seqLeft_summing hft rfl]
    simp only [sumLen] at hidx hl
    simp [laterSlots, sumLen, hs]
    omega
  | completes _ hs | programs _ hs => rw [seqLeft_fin hf hs, seqLeft_idle rfl]

theorem seqStep_seqLeft_succ {s t : State} (hv : Inv s) (he : seqEnabled s = true) (h : seqStep s = .next t) :
    seqLeft s = seqLeft t + 1 := by
  obtain ⟨hs, -⟩ | ⟨hs, i, hf, h⟩ := seqStep_eq_next h
  · simp [seqEnabled, hs] at he
  · obtain ⟨j, hj⟩ := hv.flightOk hs
    obtain rfl : i = j := Option.some.inj (hf.symm.trans hj.latched)
    exact (exec_eq_next h).seqLeft_succ hv.cfgOk hj he

/-- A step of the sequencer that is not enabled leaves the state as it is: the block is idle, or INIT is held
(60_exceptions.md R108). -/
theorem seqStep_of_not_enabled {s t : State} (he : seqEnabled s = false) (h : seqStep s = .next t) : t = s := by
  obtain ⟨-, rfl⟩ | ⟨hbusy, i, -, h⟩ := seqStep_eq_next h
  · rfl
  · obtain ⟨hwait, hready⟩ : s.stage = .waitcal ∧ s.calRdy = false := by simpa [seqEnabled, hbusy] using he
    cases exec_eq_next h with
    | waits => rfl
    | calibrated _ _ hr => rw [hready] at hr; cases hr
    | initStarts _ hs | starts _ hs | illegal _ hs => exact absurd hs hbusy
    | firstSumEnds _ hs | completes _ hs | programs _ hs => rw [hwait] at hs; cases hs
    | sums _ hs | sumEnds _ hs => rw [hwait] at hs; cases hs

/-! ## Events and words that are not taken -/

theorem takeOffer_keepsSequencer_of_event {o : Offer} {s t : State} (ho : isEvent o = true)
    (h : takeOffer o s = .next t) : KeepsSequencer s t := by
  cases o with
  | issue _ | seq | rst | clock _ _ => cases ho
  | calDone => cases h; exact .of_calDone s
  | conv v => exact .of_conv h
  | refEdge => cases h; exact .of_refEdge s
  | dlyEdge => exact .of_dlyEdge h
  | tick => cases h; exact .of_tick s

/-- A word presented to a busy block is not taken (70_reset_and_hazards.md R132). -/
theorem issueWord_of_busy {w : Word} {s t : State} (hs : s.stage ≠ .idle) (h : issueWord w s = .next t) : t = s := by
  obtain ⟨-, rfl⟩ | ⟨hn, -⟩ | ⟨hn, -⟩ := issueWord_eq_next h
  exacts [rfl, absurd hn hs, absurd hn hs]

/-- Settles O40: the measure `seqLeft` after an issue, under an enabled and a disabled step of the sequencer, and under
events and words that are not taken. -/
theorem commandsTakeTheirNumberOfSteps : Obligations.CommandsTakeTheirNumberOfSteps := by
  intro s t hv
  refine ⟨?issue, ?enabled, ?disabled, ?others⟩
  case issue => exact fun i hs hw hu h => (exec_eq_next h).seqLeft_of_issue hs hw hu
  case enabled => exact seqStep_seqLeft_succ hv
  case disabled => exact seqStep_of_not_enabled
  case others =>
    intro o os ho hor h
    have h := (step_of_offer hv.cfgOk ho).symm.trans h
    have hoffers := KeepsSequencer.of_offers s os
    obtain he | ⟨⟨w, rfl⟩, hs⟩ := hor
    · exact (hoffers.trans (takeOffer_keepsSequencer_of_event he h)).seqLeft
    · obtain rfl := issueWord_of_busy (s := { s with offers := os }) hs h
      exact hoffers.seqLeft

end Sys2Proof.Machine
end

section
/-! SUPPORT. The encoding (30_encoding.md R50 to R56): a word decodes to a command exactly when it is the command's
encoding, and exactly when it is in the command's row of the opcode map. -/

namespace Sys2Proof

/-! ## The fields of a word as numbers -/

theorem toNat_opcField (w : Word) : (opcField w).toNat = w.toNat / 2 ^ 28 := by
  have := w.isLt
  simp only [opcField, BitVec.extractLsb'_toNat, Nat.shiftRight_eq_div_pow]
  omega

theorem toNat_rsvField (w : Word) : (rsvField w).toNat = w.toNat / 2 ^ 16 % 2 ^ 12 := by
  simp only [rsvField, BitVec.extractLsb'_toNat, Nat.shiftRight_eq_div_pow]

theorem toNat_immField (w : Word) : (immField w).toNat = w.toNat % 2 ^ 16 := by
  simp only [immField, BitVec.extractLsb'_toNat, Nat.shiftRight_zero]

theorem rsvField_eq_zero_iff (w : Word) : rsvField w = 0#12 ↔ w.toNat / 2 ^ 16 % 2 ^ 12 = 0 := by
  rw [← toNat_rsvField, BitVec.toNat_eq, BitVec.toNat_zero]

theorem immField_eq_zero_iff (w : Word) : immField w = 0#16 ↔ w.toNat % 2 ^ 16 = 0 := by
  rw [← toNat_immField, BitVec.toNat_eq, BitVec.toNat_zero]

/-- The three fields are the whole word (R50). -/
theorem append_eq_iff {o : BitVec 4} {m : Slot} {w : Word} :
    o ++ (0#12 ++ m) = w ↔ opcField w = o ∧ rsvField w = 0#12 ∧ immField w = m := by
  constructor
  · rintro rfl
    exact Laws.Fields.of_append o m
  · rintro ⟨rfl, hrsv, rfl⟩
    have hrsv := (rsvField_eq_zero_iff w).mp hrsv
    apply BitVec.eq_of_toNat_eq
    rw [Laws.Fields.toNat_append, toNat_opcField, toNat_immField]
    omega

theorem encode_eq_iff {i : Instr} {w : Word} :
    encode i = w ↔ opcField w = opcodeOf i ∧ rsvField w = 0#12 ∧ immField w = immOf i :=
  append_eq_iff

/-! ## The command of an opcode -/

theorem immOf_of_formatZ {i : Instr} (h : formatZ i = true) : immOf i = 0#16 := by
  cases i with
  | rdavg _ | setd _ => cases h
  | _ => rfl

/-- Opcodes 0 and 10 to 15 are reserved (R55). -/
theorem instrOfFields_eq_none_iff (o : BitVec 4) (m : Slot) :
    instrOfFields o m = none ↔ o.toNat = 0 ∨ 10 ≤ o.toNat := by
  unfold instrOfFields
  split
  case h_10 => simp only [imp_false, true_iff] at *; omega
  all_goals simp [*]

/-- A format-Z command is read from its opcode alone, any other takes the immediate as its operand (R51, R53). -/
theorem instrOfFields_eq_some_iff {o : BitVec 4} {m : Slot} {i : Instr} :
    instrOfFields o m = some i ↔ opcodeOf i = o ∧ (formatZ i = false → immOf i = m) := by
  constructor
  · intro h
    unfold instrOfFields at h
    split at h <;> cases h <;> exact ⟨BitVec.eq_of_toNat_eq (Eq.symm ‹_›), by simp [formatZ, immOf]⟩
  · rintro ⟨rfl, himm⟩
    cases i with
    | rdavg _ | setd _ => rw [← himm rfl]; rfl
    | _ => rfl

/-- With the check of the immediate passed, it is the command's (R56). -/
theorem immOf_eq_of_checked {o : BitVec 4} {m : Slot} {i : Instr} (hi : instrOfFields o m = some i)
    (hm : ¬(formatZ i = true ∧ m ≠ 0#16)) : immOf i = m := by
  cases hz : formatZ i with
  | false => exact (instrOfFields_eq_some_iff.mp hi).2 hz
  | true => rw [immOf_of_formatZ hz]; exact (not_not.mp fun hne => hm ⟨hz, hne⟩).symm

/-! ## The decoder, check by check (R54) -/

section
variable {w : Word} {i : Instr}

theorem decode_of_reserved (h : instrOfFields (opcField w) (immField w) = none) :
    decode w = .illegal .reservedOpcode := by
  rw [decode, h]

theorem decode_of_opcode (h : instrOfFields (opcField w) (immField w) = some i) :
    decode w = if rsvField w ≠ 0#12 then .illegal .reservedField
      else if formatZ i = true ∧ immField w ≠ 0#16 then .illegal .reservedField
      else .command i := by
  simp only [decode, h, Bool.and_eq_true, decide_eq_true_eq]

/-- A word is decoded to a command exactly when it passes the checks with that command's fields. -/
theorem decode_eq_command_iff : decode w = .command i ↔ encode i = w := by
  rw [encode_eq_iff]
  constructor
  · intro h
    cases hj : instrOfFields (opcField w) (immField w) with
    | none => rw [decode_of_reserved hj] at h; cases h
    | some j =>
      rw [decode_of_opcode hj] at h
      split at h
      · cases h
      next hrsv =>
        split at h
        · cases h
        next himm =>
          cases h
          exact ⟨(instrOfFields_eq_some_iff.mp hj).1.symm, not_not.mp hrsv, (immOf_eq_of_checked hj himm).symm⟩
  · rintro ⟨hopc, hrsv, himm⟩
    have hi : instrOfFields (opcField w) (immField w) = some i :=
      instrOfFields_eq_some_iff.mpr ⟨hopc.symm, fun _ => himm.symm⟩
    rw [decode_of_opcode hi, if_neg (not_not.mpr hrsv), if_neg]
    rintro ⟨hz, hne⟩
    exact hne (himm.trans (immOf_of_formatZ hz))

end

@[simp] theorem decode_encode (i : Instr) : decode (encode i) = .command i :=
  decode_eq_command_iff.mpr rfl

/-- Settles O4: both directions are `decode_eq_command_iff`, that a word decodes to a command exactly when it is the
command's encoding. -/
theorem decodeAndEncodeAreInverse : Obligations.DecodeAndEncodeAreInverse :=
  ⟨decode_encode, fun _ _ => decode_eq_command_iff.mp⟩

/-! ## The opcode map -/

/-- `mask` of a command's row (R53): all of a format-Z word is fixed, of any other its upper half. -/
def maskOf (i : Instr) : Word := if formatZ i then 0xFFFFFFFF#32 else 0xFFFF0000#32

/-- `match` of a command's row (R53): the opcode, and 0 below it. -/
def matchOf (i : Instr) : Word := opcodeOf i ++ (0#12 ++ 0#16)

/-- The mask of the upper half keeps opcode and reserved field and clears the immediate. -/
theorem fields_and_upperHalf (w : Word) :
    opcField (w &&& 0xFFFF0000#32) = opcField w ∧ rsvField (w &&& 0xFFFF0000#32) = rsvField w ∧
      immField (w &&& 0xFFFF0000#32) = 0#16 := by
  simp only [opcField, rsvField, immField, BitVec.extractLsb'_and]
  exact ⟨BitVec.and_allOnes, BitVec.and_allOnes, BitVec.and_zero⟩

theorem and_upperHalf_eq_iff {w : Word} {o : BitVec 4} :
    w &&& 0xFFFF0000#32 = o ++ (0#12 ++ 0#16) ↔ opcField w = o ∧ rsvField w = 0#12 := by
  obtain ⟨hopc, hrsv, himm⟩ := fields_and_upperHalf w
  rw [eq_comm, append_eq_iff, hopc, hrsv, himm, eq_self, and_true]

/-- A word is a command's encoding exactly when `mask` and `match` select its row and its immediate is the operand. -/
theorem encode_eq_iff_row {i : Instr} {w : Word} :
    encode i = w ↔ w &&& maskOf i = matchOf i ∧ (formatZ i = false → immOf i = immField w) := by
  cases hz : formatZ i with
  | true =>
    have hm : matchOf i = encode i := by rw [matchOf, encode, immOf_of_formatZ hz]
    have hall : w &&& 0xFFFFFFFF#32 = w := BitVec.and_allOnes
    simp [maskOf, hz, hm, hall, eq_comm]
  | false =>
    rw [maskOf, hz, if_neg Bool.false_ne_true, matchOf, and_upperHalf_eq_iff, encode_eq_iff]
    simp [and_assoc, eq_comm]

theorem ofNat_toNat_eq_immField (w : Word) : BitVec.ofNat 16 w.toNat = immField w :=
  BitVec.eq_of_toNat_eq (by rw [toNat_immField, BitVec.toNat_ofNat])

/-- Settles O5: the nine rows are those of `maskOf` and `matchOf`, which select a command's encodings. -/
theorem decodeFollowsMatchAndMask : Obligations.DecodeFollowsMatchAndMask := by
  intro w i
  rw [decode_eq_command_iff, encode_eq_iff_row, ofNat_toNat_eq_immField]
  cases i with
  | rdavg _ | setd _ =>
    simp only [reduceCtorEq, and_false, or_false, false_or, Instr.rdavg.injEq, Instr.setd.injEq, matchOf, opcodeOf]
    exact and_congr .rfl (forall_prop_of_true rfl)
  | _ =>
    simp only [reduceCtorEq, and_false, or_false, false_or, and_true]
    exact and_iff_left nofun

/-! ## Words written out in the spec -/

/-- Settles O6: the legal words are encodings, and each illegal one fails a check of R54. -/
theorem someWordsDecodeAsWritten : Obligations.SomeWordsDecodeAsWritten :=
  ⟨decode_encode .init, decode_encode (.rdavg 1#16), decode_encode .powr, decode_encode (.setd 0xFFFF#16),
    decode_of_reserved rfl, decode_of_reserved rfl, decode_of_opcode (i := .volt) rfl,
    decode_of_opcode (i := .rdavg 2#16) rfl⟩

end Sys2Proof
end

section
/-! SUPPORT. `Issue` (30_encoding.md R54): what a command and a word do to an idle block. -/

namespace Sys2Proof.Machine

/-! ## Issue of a command -/

/-- Only the channel of `RDAVG` is checked against the configuration (R51, R57). -/
theorem wf_eq_false_iff {i : Instr} {c : Config} :
    i.wf c = false ↔ (opcodeOf i).toNat = 2 ∧ c.channels ≤ (immOf i).toNat := by
  cases i <;> simp [Instr.wf, opcodeOf, immOf]

theorem eq_init_iff {i : Instr} : i = .init ↔ (opcodeOf i).toNat = 1 := by
  cases i <;> simp [opcodeOf]

/-- A legal command after its issue: latched, with its first stage entered (R28, R29, R30). -/
def started (i : Instr) (s : State) : State :=
  { s with
    op := opcodeOf i
    imm := immOf i
    acc := 0#32
    idx := 0#16
    initst := if i = .init then .calibrating else s.initst
    stage := if i = .init then .waitcal else if opcodeOf i = 8#4 then .fin else .sum1 }

/-- The fault record after `raise IllegalCommand` (60_exceptions.md R106). -/
theorem raiseIllegal_eq (cause : BitVec 3) (s : State) :
    raiseIllegal cause s =
      { s with
        fcause := if s.fault = false then cause else s.fcause
        fault := true
        history := ⟨true, 0x00000000#32⟩ :: s.history } := by
  cases hf : s.fault <;> simp [raiseIllegal, hf]

/-- What every command does to an idle block: the last two checks of R54, then its start. -/
theorem exec_of_idle {i : Instr} {s : State} (hs : s.stage = .idle) :
    exec i s = .next
      (if i.wf s.cfg = false then raiseIllegal causeChannelRange s
       else if i = .init ∧ s.initst ≠ .uninit then raiseIllegal causeInitRepeated s
       else started i s) := by
  cases i with
  | init =>
    simp only [exec, execInit, hs]
    by_cases hu : s.initst = .uninit
    · simp [hu, Instr.wf, started, issue, opcodeOf, immOf]
    · simp [hu, Instr.wf]
  | rdavg ch =>
    simp only [exec, execRdavg, hs, chOperand]
    by_cases hc : ch.toNat < s.cfg.channels
    · simp [hc, Instr.wf, started, issue, opcodeOf, immOf]
    · simp [hc, Instr.wf]
  | phavg | volt | curr | powr | phms | setd _ | adji =>
    simp [exec, execPhavg, execVolt, execCurr, execPowr, execPhms, execSetd, execAdji, hs, Instr.wf, started, issue,
      opcodeOf, immOf]

/-- Settles O10: with both checks passed, what is left of `exec_of_idle` is the start. -/
theorem legalCommandsStart : Obligations.LegalCommandsStart := by
  intro i s hs hw hu
  rw [exec_of_idle hs, if_neg (ne_false_of_eq_true hw), if_neg fun h => h.2 (hu h.1)]
  rfl

/-- Settles O11: the failing check of `exec_of_idle` names the cause. -/
theorem channelRangeAndSecondInitAreIllegal : Obligations.ChannelRangeAndSecondInitAreIllegal := by
  rintro i s cause hs (⟨⟨ch, rfl, hch⟩, rfl⟩ | ⟨⟨rfl, hu⟩, rfl⟩)
  · have hw : (Instr.rdavg ch).wf s.cfg = false := wf_eq_false_iff.mpr ⟨rfl, hch⟩
    rw [exec_of_idle hs, if_pos hw, raiseIllegal_eq]
    rfl
  · have hw : Instr.init.wf s.cfg ≠ false := Bool.noConfusion
    rw [exec_of_idle hs, if_neg hw, if_pos ⟨rfl, hu⟩, raiseIllegal_eq]
    rfl

/-! ## Issue of a word -/

theorem issueWord_of_not_idle {w : Word} {s : State} (hs : s.stage ≠ .idle) : issueWord w s = .next s := by
  rw [issueWord, cmdReady, decide_eq_false hs, if_neg Bool.false_ne_true]

theorem issueWord_of_illegal {w : Word} {s : State} {e : DecodeError} (hs : s.stage = .idle)
    (hd : decode w = .illegal e) : issueWord w s = .next (raiseIllegal (causeOf e) s) := by
  rw [issueWord, cmdReady, decide_eq_true hs, if_pos rfl, hd]

/-- A word whose opcode is in use, presented to an idle block: the other checks of R54 in their order. -/
theorem issueWord_of_opcode {w : Word} {s : State} {i : Instr} (hs : s.stage = .idle)
    (hi : instrOfFields (opcField w) (immField w) = some i) :
    issueWord w s = .next
      (if rsvField w ≠ 0#12 then raiseIllegal causeReservedField s
       else if formatZ i = true ∧ immField w ≠ 0#16 then raiseIllegal causeReservedField s
       else if i.wf s.cfg = false then raiseIllegal causeChannelRange s
       else if i = .init ∧ s.initst ≠ .uninit then raiseIllegal causeInitRepeated s
       else started i s) := by
  have hd := decode_of_opcode hi
  split at hd
  next hrsv => rw [issueWord_of_illegal hs hd, if_pos hrsv]; rfl
  next hrsv =>
    rw [if_neg hrsv]
    split at hd
    next himm => rw [issueWord_of_illegal hs hd, if_pos himm]; rfl
    next himm => rw [issueWord_of_idle hs hd, exec_of_idle hs, if_neg himm]

/-- The opcodes of the format-Z commands (R51, R53). -/
theorem formatZ_iff {i : Instr} : formatZ i = true ↔ (opcodeOf i).toNat ∈ [1, 3, 4, 5, 6, 7, 9] := by
  cases i <;> simp [formatZ, opcodeOf]

/-- An opcode in use is not one of the reserved ones (R55). -/
theorem opcodeOf_not_reserved (i : Instr) : ¬((opcodeOf i).toNat = 0 ∨ 10 ≤ (opcodeOf i).toNat) := by
  rw [← instrOfFields_eq_none_iff _ (immOf i), instrOfFields_opcodeOf]
  exact Option.some_ne_none i

/-- Settles O7: a busy block takes no word; for an idle one `instrOfFields` makes the first check and
`issueWord_of_opcode` lists the others, each here in terms of the word as a number. -/
theorem issueChecksThenStarts : Obligations.IssueChecksThenStarts := by
  intro s w os ha ho opc rsv imm illegal
  let u : State := { s with offers := os }
  have hillegal (cause) : illegal cause = raiseIllegal cause u := (raiseIllegal_eq cause u).symm
  have hopc : opc = (opcField w).toNat := (toNat_opcField w).symm
  have hrsv : rsvField w ≠ 0#12 ↔ rsv ≠ 0 := not_congr (rsvField_eq_zero_iff w)
  have himm : immField w ≠ 0#16 ↔ imm ≠ 0 := not_congr (immField_eq_zero_iff w)
  have htoNat : (immField w).toNat = imm := toNat_immField w
  rw [step_of_offer ha ho]
  change issueWord w u = _
  by_cases hs : u.stage = .idle
  case neg => rw [if_pos hs, issueWord_of_not_idle hs]
  rw [if_neg (not_not.mpr hs)]
  cases hi : instrOfFields (opcField w) (immField w) with
  | none =>
    have hreserved := (instrOfFields_eq_none_iff _ _).mp hi
    rw [← hopc] at hreserved
    rw [if_pos hreserved, issueWord_of_illegal hs (decode_of_reserved hi), hillegal]
    rfl
  | some i =>
    obtain ⟨hi_opc, -⟩ := instrOfFields_eq_some_iff.mp hi
    rw [← hi_opc] at hopc
    have hformat : formatZ i = true ∧ immField w ≠ 0#16 ↔ opc ∈ [1, 3, 4, 5, 6, 7, 9] ∧ imm ≠ 0 := by
      rw [hopc, formatZ_iff, himm]
    have hused : ¬(opc = 0 ∨ 10 ≤ opc) := hopc ▸ opcodeOf_not_reserved i
    rw [issueWord_of_opcode hs hi, if_neg hused]
    simp only [hillegal, ← hrsv, ← hformat]
    congr 1
    refine ite_congr rfl (fun _ => rfl) fun _ => ite_congr rfl (fun _ => rfl) fun hchecked => ?_
    have hi_imm := immOf_eq_of_checked hi hchecked
    have hwf : i.wf u.cfg = false ↔ opc = 2 ∧ s.cfg.channels ≤ imm := by
      rw [wf_eq_false_iff, hopc, hi_imm, htoNat]
    have hinit : i = .init ↔ opc = 1 := by rw [eq_init_iff, hopc]
    have hsetd : opcodeOf i = 8#4 ↔ opc = 8 := by rw [BitVec.toNat_eq, hopc]; rfl
    have hop : BitVec.ofNat 4 opc = opcodeOf i := by rw [hopc, BitVec.ofNat_toNat, BitVec.setWidth_eq]
    have hoperand : BitVec.ofNat 16 imm = immOf i := by rw [← htoNat, hi_imm, BitVec.ofNat_toNat, BitVec.setWidth_eq]
    simp only [started, hwf, hinit, hsetd, hop, hoperand]
    rfl

end Sys2Proof.Machine
end

section
/-! SUPPORT. The race of a sum with the units' writes (20_memory.md R45, 40_acquisition.md R68): in every step the memories
are written before the sequencer reads, so the slot it adds is one of the state the step ends in; with that, the bounds
that the slots keep along a run bound the sum in ACC. -/

namespace Sys2Proof.Machine

/-! ## The memories at the turn of the sequencer -/

/-- A step that is no reset, with the memories in view: events, then one turn of sequencer or host, which reads the
memories as the step leaves them (60_exceptions.md R112). -/
def TurnReadsFinalMemories (s t : State) : Prop :=
  ∃ u v, KeepsSequencer s u ∧ Turn u v ∧ KeepsSequencer v t ∧ t.sb = u.sb ∧ t.ph = u.ph

section
variable {s t : State}

theorem Turn.readsFinalMemories (h : Turn s t) : TurnReadsFinalMemories s t :=
  ⟨s, t, .refl s, h, .refl t, h.keepsUnits.sb, h.keepsUnits.ph⟩

theorem KeepsSequencer.readsFinalMemories (h : KeepsSequencer s t) : TurnReadsFinalMemories s t :=
  ⟨t, t, h, .idles, .refl t, rfl, rfl⟩

theorem TurnReadsFinalMemories.of_keepsSequencer {u : State} (h : KeepsSequencer s t)
    (k : TurnReadsFinalMemories t u) : TurnReadsFinalMemories s u := by
  obtain ⟨v, w, h1, ht, h2, hsb, hph⟩ := k
  exact ⟨v, w, h.trans h1, ht, h2, hsb, hph⟩

/-- In a clock the turn comes after the five events, and only the flip-flops are written after it. -/
theorem clockStep_readsFinalMemories {p : Pins} {go : Bool} (h : clockStep p go s = .next t) :
    t = resetBlock s ∨ TurnReadsFinalMemories s t := by
  obtain ⟨-, hr⟩ | ⟨-, s1, s2, s3, s4, s5, s6, rfl, h2, rfl, h4, rfl, h6, rfl⟩ := clockStep_eq_next h
  · exact .inl hr
  · have cal := KeepsSequencer.of_ite p.calRdyIn (.of_calDone s)
    have conv := KeepsSequencer.of_whenPin .of_conv h2
    have ref := KeepsSequencer.of_ite (p.refIn && !s2.refPrev) (.of_refEdge s2)
    have dly := KeepsSequencer.of_whenPin .of_dlyEdge h4
    have tick := KeepsSequencer.of_ite p.tick (.of_tick s4)
    have turn := Turn.of_clockTurn h6
    exact .inr ⟨_, s6, cal.trans (conv.trans (ref.trans (dly.trans tick))), turn, .of_latchEdges p s6,
      turn.keepsUnits.sb, turn.keepsUnits.ph⟩

theorem takeOffer_readsFinalMemories {o : Offer} (h : takeOffer o s = .next t) :
    t = resetBlock s ∨ TurnReadsFinalMemories s t := by
  cases ho : isEvent o with
  | true => exact .inr (takeOffer_keepsSequencer_of_event ho h).readsFinalMemories
  | false =>
    cases o with
    | issue w => exact .inr (Turn.of_issueWord h).readsFinalMemories
    | seq => exact .inr (Turn.of_seqStep h).readsFinalMemories
    | rst => cases h; exact .inl rfl
    | clock p go => exact clockStep_readsFinalMemories h
    | calDone | conv _ | refEdge | dlyEdge | tick => cases ho

theorem step_readsFinalMemories (h : step s = .next t) :
    (∃ os, t = resetBlock { s with offers := os }) ∨ TurnReadsFinalMemories s t := by
  obtain ⟨-, ⟨-, h⟩ | ⟨o, os, ho, h⟩⟩ := step_eq_next h
  · exact .inr (Turn.of_seqStep h).readsFinalMemories
  · exact (takeOffer_readsFinalMemories h).imp (fun h => ⟨os, h⟩) (.of_keepsSequencer (.of_offers s os))

end

/-! ## Runs -/

/-- A property that holds at first, and that each step keeps wherever the step ends in a state with `Q`, holds at the end
of a run through states with `Q`. -/
theorem runSteps_induction {P Q : State → Prop} (hstep : ∀ s t, P s → Q t → step s = .next t → P t) {k : Nat}
    {s u : State} (hs : P s) (hrun : ∀ j v, j ≤ k → runSteps j s = .next v → Q v) (h : runSteps k s = .next u) : P u := by
  induction k generalizing s with
  | zero => cases h; exact hs
  | succ k ih =>
    obtain ⟨t, hst, h⟩ := andThen_eq_next.mp (runSteps_succ k s ▸ h)
    have hfrom : ∀ j, runSteps (j + 1) s = runSteps j t := fun j => by rw [runSteps_succ, hst, andThen_next]
    have ht : Q t := hrun 1 t (by omega) (hfrom 0)
    exact ih (hstep s t hs ht hst) (fun j v hj hv => hrun (j + 1) v (by omega) ((hfrom j).trans hv)) h

/-! ## The bounds of a sum in progress -/

/-- What holds of the sum of command `i` in flight: it is not past its last slot, it fits ACC, and a sum that `counts`
singles out lies between `lo` and `hi` times the slots read. -/
structure SumBounds (counts : Config → Instr → Stage → Prop) (lo hi : Nat) (i : Instr) (s : State) : Prop where
  idxOk : summing s.stage = true → s.idx.toNat < sumLen s.cfg i
  accOk : s.acc.toNat ≤ slotsRead i s * 65535
  within : counts s.cfg i s.stage → lo * slotsRead i s ≤ s.acc.toNat ∧ s.acc.toNat ≤ hi * slotsRead i s

/-- The bounds of the sum in progress, if a command is in flight. -/
def SumBounded (counts : Config → Instr → Stage → Prop) (lo hi : Nat) (s : State) : Prop :=
  ∀ i, s.stage ≠ .idle → inFlight s = some i → SumBounds counts lo hi i s

section
variable {counts : Config → Instr → Stage → Prop} {lo hi : Nat} {i : Instr} {s t : State}

theorem ne_idle_of_summing {st : Stage} (h : summing st = true) : st ≠ .idle := by
  rintro rfl
  cases h

theorem slotsRead_of_summing (hs : summing s.stage = true) : slotsRead i s = s.idx.toNat := if_pos hs

theorem slotsRead_of_not_summing (hs : summing s.stage = false) : slotsRead i s = sumLen s.cfg i :=
  if_neg (ne_true_of_eq_false hs)

theorem SumBounded.of_idle (hs : s.stage = .idle) : SumBounded counts lo hi s :=
  fun _ hbusy => absurd hs hbusy

theorem SumBounded.of_inFlight (hf : inFlight s = some i) (h : SumBounds counts lo hi i s) :
    SumBounded counts lo hi s := by
  intro j _ hj
  obtain rfl : i = j := Option.some.inj (hf.symm.trans hj)
  exact h

/-- The bounds with the number of slots read given. -/
theorem SumBounds.of_read {n : Nat} (hread : slotsRead i s = n) (hidx : summing s.stage = true → n < sumLen s.cfg i)
    (hacc : s.acc.toNat ≤ n * 65535)
    (hwithin : counts s.cfg i s.stage → lo * n ≤ s.acc.toNat ∧ s.acc.toNat ≤ hi * n) : SumBounds counts lo hi i s := by
  subst hread
  exact ⟨fun hs => slotsRead_of_summing (i := i) hs ▸ hidx hs, hacc, hwithin⟩

/-- No slot read yet. -/
theorem SumBounds.of_start (hacc : s.acc = 0#32) (hread : slotsRead i s = 0)
    (hlen : summing s.stage = true → 0 < sumLen s.cfg i) : SumBounds counts lo hi i s :=
  .of_read hread hlen (by simp [hacc]) (by simp [hacc])

theorem KeepsSequencer.sumBounded (h : KeepsSequencer s t) (hs : SumBounded counts lo hi s) :
    SumBounded counts lo hi t := by
  intro i hbusy hf
  have hread : slotsRead i t = slotsRead i s := by simp only [slotsRead, h.stage, h.idx, h.cfg]
  rw [h.stage] at hbusy
  rw [inFlight, h.op, h.imm] at hf
  obtain ⟨hidx, hacc, hwithin⟩ := hs i hbusy hf
  constructor
  · rwa [h.stage, h.idx, h.cfg]
  · rwa [hread, h.acc]
  · rwa [hread, h.acc, h.stage, h.cfg]

/-- ACC never overflows: at most 65535 slots before this one, each at most 65535 (R29). -/
theorem toNat_acc_add {acc : Word} {n : Nat} (v : Slot) (hacc : acc.toNat ≤ n * 65535) (hn : n < 65536) :
    (acc + v.zeroExtend 32).toNat = acc.toNat + v.toNat := by
  have hv := v.isLt
  rw [BitVec.toNat_add, BitVec.zeroExtend, BitVec.toNat_setWidth, Nat.mod_eq_of_lt (a := v.toNat) (by omega)]
  omega

/-- One more slot within the bounds. -/
theorem SumBounds.add_slot (h : SumBounds counts lo hi i s) (ha : admitted s.cfg = true) (hs : summing s.stage = true)
    {v : Slot} (hv : counts s.cfg i s.stage → lo ≤ v.toNat ∧ v.toNat ≤ hi) :
    (s.acc + v.zeroExtend 32).toNat ≤ (s.idx.toNat + 1) * 65535 ∧
      (counts s.cfg i s.stage → lo * (s.idx.toNat + 1) ≤ (s.acc + v.zeroExtend 32).toNat ∧
        (s.acc + v.zeroExtend 32).toNat ≤ hi * (s.idx.toNat + 1)) := by
  obtain ⟨hidx, hacc, hwithin⟩ := h
  rw [slotsRead_of_summing hs] at hacc hwithin
  have hn : s.idx.toNat < 65536 := (hidx hs).trans_le ((admitted_facts ha).sumLen_le i)
  have hslot := v.isLt
  rw [toNat_acc_add v hacc hn]
  refine ⟨by omega, fun hc => ?_⟩
  obtain ⟨hlo, hhi⟩ := hwithin hc
  obtain ⟨hvlo, hvhi⟩ := hv hc
  rw [Nat.mul_succ, Nat.mul_succ]
  omega

/-- Every sum has at least one slot (00_scope.md R6). -/
theorem AdmittedFacts.sumLen_pos {c : Config} (h : AdmittedFacts c) {i : Instr} (hi : i ≠ .init)
    (hd : opcodeOf i ≠ 8#4) : 0 < sumLen c i := by
  have hspc := h.spc_pos
  have hn := h.n_pos
  cases i <;> simp_all [sumLen, opcodeOf] <;> omega

/-- The bounds hold at the start of each loop, each slot added keeps them, and FIN takes over the last loop's sum. -/
theorem CommandStep.sumBounded (h : CommandStep i s t) (ha : admitted s.cfg = true)
    (hfin : ∀ c j st, summing st = true → ¬(j = .powr ∧ st = .sum1) → counts c j .fin → counts c j st)
    (hslot : ∀ v, summing s.stage = true → counts s.cfg i s.stage → operandSlot i s = some v →
      lo ≤ v.toNat ∧ v.toNat ≤ hi)
    (hf : s.stage ≠ .idle → inFlight s = some i) (hs : SumBounded counts lo hi s) : SumBounded counts lo hi t := by
  have busy : s.stage ≠ .idle → inFlight t = some i ∧ SumBounds counts lo hi i s := fun hb =>
    ⟨(h.inFlight_of_busy hb).trans (hf hb), hs i hb (hf hb)⟩
  cases h with
  | initStarts hi =>
    subst hi
    exact .of_inFlight (i := .init) rfl (.of_start rfl rfl nofun)
  | starts hi =>
    refine .of_inFlight (inFlight_issue i _ s) ?_
    by_cases hd : opcodeOf i = 8#4
    · obtain ⟨d, rfl⟩ : ∃ d, i = .setd d := by cases i <;> simp_all [opcodeOf]
      exact .of_start rfl rfl nofun
    · rw [if_neg hd]
      exact .of_start rfl rfl fun _ => (admitted_facts ha).sumLen_pos hi hd
  | illegal _ hidle => exact .of_idle hidle
  | completes | programs => exact .of_idle rfl
  | waits => exact hs
  | calibrated hi hwait =>
    subst hi
    obtain ⟨hft, hb⟩ := busy (by rw [hwait]; decide)
    have hacc : s.acc = 0#32 := by
      have hle := hb.accOk
      rw [slotsRead_of_not_summing (by rw [hwait]; rfl), sumLen, Nat.zero_mul] at hle
      exact BitVec.eq_of_toNat_eq (Nat.le_zero.mp hle)
    exact .of_inFlight hft (.of_start hacc rfl nofun)
  | sums v hsum _ hv hl =>
    obtain ⟨hft, hb⟩ := busy (ne_idle_of_summing hsum)
    obtain ⟨hacc, hwithin⟩ := hb.add_slot ha hsum (hslot v hsum · hv)
    have hidx := toNat_idx_succ hl ((admitted_facts ha).sumLen_le i)
    refine .of_inFlight hft (.of_read (n := s.idx.toNat + 1) ?_ (fun _ => hl) hacc hwithin)
    rw [← hidx]
    exact slotsRead_of_summing hsum
  | sumEnds v hsum _ hv hl hp =>
    obtain ⟨hft, hb⟩ := busy (ne_idle_of_summing hsum)
    obtain ⟨hacc, hwithin⟩ := hb.add_slot ha hsum (hslot v hsum · hv)
    have hlast : s.idx.toNat + 1 = sumLen s.cfg i := by have := hb.idxOk hsum; omega
    exact .of_inFlight hft (.of_read hlast.symm nofun hacc fun hc => hwithin (hfin _ i _ hsum hp hc))
  | firstSumEnds v hsum hi =>
    subst hi
    obtain ⟨hft, -⟩ := busy (by rw [hsum]; decide)
    exact .of_inFlight hft (.of_start rfl rfl fun _ => (admitted_facts ha).spc_pos)

/-- A turn keeps the bounds if the slots it may read are within them. -/
theorem Turn.sumBounded (h : Turn s t) (ha : admitted s.cfg = true)
    (hfin : ∀ c j st, summing st = true → ¬(j = .powr ∧ st = .sum1) → counts c j .fin → counts c j st)
    (hslot : ∀ i v, inFlight s = some i → summing s.stage = true → counts s.cfg i s.stage → operandSlot i s = some v →
      s.idx.toNat < sumLen s.cfg i → lo ≤ v.toNat ∧ v.toNat ≤ hi)
    (hs : SumBounded counts lo hi s) : SumBounded counts lo hi t := by
  cases h with
  | idles => exact hs
  | refuses _ hidle => exact .of_idle hidle
  | issues i hidle h =>
    refine h.sumBounded ha hfin (fun v hsum => ?_) (absurd hidle) hs
    rw [hidle] at hsum
    cases hsum
  | continues i hbusy hf h =>
    exact h.sumBounded ha hfin (fun v hsum hc hv => hslot i v hf hsum hc hv ((hs i hbusy hf).idxOk hsum))
      (fun _ => hf) hs

end

/-! ## The sum over a channel -/

/-- The sums over channel `ch`. -/
def SumsChannel (ch : Nat) (c : Config) (i : Instr) (st : Stage) : Prop := channelOf c i st = some ch

/-- FIN of a command speaks of the channel its last loop has read (42_measurement.md R91). -/
theorem SumsChannel.of_fin {ch : Nat} (c : Config) (i : Instr) (st : Stage) (hs : summing st = true)
    (hp : ¬(i = .powr ∧ st = .sum1)) (h : SumsChannel ch c i .fin) : SumsChannel ch c i st := by
  cases st with
  | idle | waitcal | fin => cases hs
  | sum2 => cases i <;> exact h
  | sum1 =>
    cases i with
    | powr => exact absurd ⟨rfl, rfl⟩ hp
    | _ => exact h

/-- A sum over a channel reads the channel's slot number IDX, of SPC (40_acquisition.md R62). -/
theorem operandSlot_of_sumsChannel {ch : Nat} {i : Instr} {s : State} (hf : inFlight s = some i)
    (hs : summing s.stage = true) (hc : SumsChannel ch s.cfg i s.stage) :
    operandSlot i s = s.sb.read (sbIndex s.cfg ch s.idx.toNat) ∧ sumLen s.cfg i = s.cfg.spc := by
  cases i with
  | init | phavg | phms | setd _ => cases hc
  | rdavg x =>
    obtain rfl : x = s.imm := (instrOfFields_eq_some_iff.mp hf).2 rfl
    cases hc
    exact ⟨rfl, rfl⟩
  | volt | curr | adji => cases hc; exact ⟨rfl, rfl⟩
  | powr =>
    cases hst : s.stage with
    | idle | waitcal | fin => rw [hst] at hs; cases hs
    | sum1 | sum2 =>
      rw [hst] at hc
      cases hc
      simp [operandSlot, channelSlot, sumLen, hst]

/-- A step that ends with the channel's slots within the bounds keeps the bounds of the sum: the slot it reads is one of
those. -/
theorem step_keeps_channelSum_bounded {lo hi ch : Nat} (s t : State) (hs : SumBounded (SumsChannel ch) lo hi s)
    (ht : ChannelWithin lo hi ch t) (h : step s = .next t) : SumBounded (SumsChannel ch) lo hi t := by
  obtain ⟨os, rfl⟩ | ⟨u, v, hu, hturn, hv, hsb, -⟩ := step_readsFinalMemories h
  · exact .of_idle rfl
  · have ha : admitted u.cfg = true := hu.cfg.symm ▸ (step_eq_next h).1
    refine hv.sumBounded (hturn.sumBounded ha SumsChannel.of_fin ?slots (hu.sumBounded hs))
    intro i x hf hsum hc hx hidx
    obtain ⟨hslot, hlen⟩ := operandSlot_of_sumsChannel hf hsum hc
    have hcfg : t.cfg = u.cfg := hv.cfg.trans hturn.keepsUnits.cfg
    apply ht u.idx.toNat x
    · rw [hcfg, ← hlen]; exact hidx
    · rw [hsb, hcfg, ← hslot]; exact hx

/-- Settles O48: the bounds of the sum hold while the block is idle, and each step keeps them, since a run's slots are
within the bounds at the end of each of its steps. -/
theorem sampleRaceStaysInRange : Obligations.SampleRaceStaysInRange := by
  intro lo hi ch k s u _ hidle hrun hu i hbusy hf hc
  have hbounded : SumBounded (SumsChannel ch) lo hi u :=
    runSteps_induction step_keeps_channelSum_bounded (.of_idle hidle) hrun hu
  exact (hbounded i hbusy hf).within hc

end Sys2Proof.Machine
end

section
/-! SUPPORT. The steps of a command in flight that sum slots or wait for the ready flag (40_acquisition.md R62, R63), the
event CalDone (R64), and the whole commands RDAVG and INIT. -/

namespace Sys2Proof.Machine

/-! ## SumStep -/

/-- What becomes of the sum after the last slot of a loop: the voltage of `POWR`'s first loop, else ACC (R62). -/
def loopEnd (i : Instr) (st : Stage) : Word → State → State := if i = .powr ∧ st = .sum1 then toSum2 else toFin

/-- In a loop every command takes the `SumStep` of its row of R62's table. -/
theorem exec_of_summing {i : Instr} {s : State} (hs : summing s.stage = true) (hi : stageOfCommand i s.stage = true) :
    exec i s = sumStep (operandSlot i s) (sumLen s.cfg i) (loopEnd i s.stage) s := by
  cases hst : s.stage with
  | idle | waitcal | fin => rw [hst] at hs; cases hs
  | sum1 =>
    cases i with
    | init | setd _ => rw [hst] at hi; cases hi
    | rdavg _ => simp only [exec, execRdavg, hst]; rfl
    | phavg => simp only [exec, execPhavg, hst]; rfl
    | volt => simp only [exec, execVolt, hst]; rfl
    | curr => simp only [exec, execCurr, hst]; rfl
    | phms => simp only [exec, execPhms, hst]; rfl
    | adji => simp only [exec, execAdji, hst]; rfl
    | powr => simp only [exec, execPowr, operandSlot, hst]; rfl
  | sum2 =>
    cases i with
    | powr => simp only [exec, execPowr, operandSlot, hst]; rfl
    | _ => rw [hst] at hi; cases hi

theorem exec_of_slot {i : Instr} {s : State} {v : Slot} (hs : summing s.stage = true)
    (hi : stageOfCommand i s.stage = true) (hv : operandSlot i s = some v) :
    exec i s = .next
      (if s.idx.toNat + 1 < sumLen s.cfg i then { s with acc := s.acc + v.zeroExtend 32, idx := s.idx + 1#16 }
       else loopEnd i s.stage (s.acc + v.zeroExtend 32) { s with idx := 0#16 }) := by
  rw [exec_of_summing hs hi, hv, sumStep_some]

/-- Settles O12: each row of R62's table names the command's loop, its slot and its length, and `exec_of_slot` says what
the step does there. -/
theorem sumStepAddsOneSlot : Obligations.SumStepAddsOneSlot := by
  intro i s v len sb ph acc hrow
  obtain ⟨hsum, hstage, hv, rfl⟩ : summing s.stage = true ∧ stageOfCommand i s.stage = true ∧
      operandSlot i s = some v ∧ len = sumLen s.cfg i := by
    obtain ⟨⟨ch, rfl⟩, hst, hv, rfl⟩ | ⟨rfl | rfl, hst, hv, rfl⟩ | ⟨rfl | rfl, hst, hv, rfl⟩ | ⟨rfl, hst, hv, rfl⟩ |
      ⟨rfl | rfl, hst, hv, rfl⟩ := hrow <;>
      exact ⟨by rw [hst]; rfl, by rw [hst]; rfl, by simp only [operandSlot, hst]; exact hv, rfl⟩
  rw [exec_of_slot hsum hstage hv, loopEnd]
  by_cases hfirst : i = .powr ∧ s.stage = .sum1
  · rw [if_pos hfirst, if_pos hfirst]; rfl
  · rw [if_neg hfirst, if_neg hfirst]; rfl

/-! ## A whole sum, with nothing else stepping -/

/-- The first k slots that command `i` reads from `s` exist and add up to `total k`, for each k up to LEN. -/
def SlotsAddUp (i : Instr) (s : State) (total : Nat → Nat) : Prop :=
  total 0 = 0 ∧ ∀ k, k < sumLen s.cfg i →
    ∃ v, operandSlot i { s with idx := BitVec.ofNat 16 k } = some v ∧ total (k + 1) = total k + v.toNat

section
variable {i : Instr} {s : State}

theorem step_of_busy (ha : admitted s.cfg = true) (ho : s.offers = []) (hs : s.stage ≠ .idle)
    (hf : inFlight s = some i) : step s = exec i s := by
  rw [step_of_no_offer ha ho, seqStep_of_busy hs hf]

theorem ofNat_add_slot (n : Nat) (v : Slot) : BitVec.ofNat 32 n + v.zeroExtend 32 = BitVec.ofNat 32 (n + v.toNat) :=
  BitVec.eq_of_toNat_eq (by simp)

/-- The end of a loop replaces ACC. -/
theorem loopEnd_acc (st : Stage) (sum acc : Word) : loopEnd i st sum { s with acc := acc } = loopEnd i st sum s := by
  unfold loopEnd
  split <;> rfl

end

section
variable {i : Instr} {s : State} {total : Nat → Nat} (ha : admitted s.cfg = true) (ho : s.offers = [])
  (hf : inFlight s = some i) (hs : summing s.stage = true) (hi : stageOfCommand i s.stage = true)
  (hsum : SlotsAddUp i s total)
include ha ho hf hs hi hsum

theorem step_of_slotsAddUp {k : Nat} (hk : k < sumLen s.cfg i) :
    step { s with acc := BitVec.ofNat 32 (total k), idx := BitVec.ofNat 16 k } = .next
      (if k + 1 < sumLen s.cfg i then
        { s with acc := BitVec.ofNat 32 (total (k + 1)), idx := BitVec.ofNat 16 (k + 1) }
       else loopEnd i s.stage (BitVec.ofNat 32 (total (k + 1))) { s with idx := 0#16 }) := by
  let u : State := { s with acc := BitVec.ofNat 32 (total k), idx := BitVec.ofNat 16 k }
  have hidx : u.idx.toNat = k := Nat.mod_eq_of_lt (hk.trans_le ((admitted_facts ha).sumLen_le i))
  obtain ⟨v, hv, htotal⟩ := hsum.2 k hk
  have hv : operandSlot i u = some v := hv
  have hadd : u.acc + v.zeroExtend 32 = BitVec.ofNat 32 (total (k + 1)) := by rw [htotal]; exact ofNat_add_slot _ v
  rw [step_of_busy (s := u) ha ho (ne_idle_of_summing hs) hf, exec_of_slot (s := u) hs hi hv, hidx, hadd,
    BitVec.ofNat_add k 1, ← loopEnd_acc (s := { s with idx := 0#16 }) s.stage _ u.acc]

/-- The slots but the last, one step each. -/
theorem runSteps_within_loop {k : Nat} (hk : k < sumLen s.cfg i) :
    runSteps k { s with acc := 0#32, idx := 0#16 } = .next
      { s with acc := BitVec.ofNat 32 (total k), idx := BitVec.ofNat 16 k } := by
  induction k with
  | zero => rw [hsum.1]; rfl
  | succ k ih =>
    have hstep := step_of_slotsAddUp ha ho hf hs hi hsum (k := k) (by omega)
    rw [if_pos hk] at hstep
    rw [runSteps_add k 1, ih (by omega), andThen_next, runSteps_succ, hstep]
    rfl

/-- The whole loop: LEN steps, and the exact sum goes on to what follows the loop. -/
theorem runSteps_loop (hlen : 0 < sumLen s.cfg i) :
    runSteps (sumLen s.cfg i) { s with acc := 0#32, idx := 0#16 } = .next
      (loopEnd i s.stage (BitVec.ofNat 32 (total (sumLen s.cfg i))) { s with idx := 0#16 }) := by
  obtain ⟨k, hk⟩ : ∃ k, sumLen s.cfg i = k + 1 := Nat.exists_eq_succ_of_ne_zero hlen.ne'
  have hlast := step_of_slotsAddUp ha ho hf hs hi hsum (k := k) (by omega)
  rw [if_neg (by omega)] at hlast
  rw [hk, runSteps_add k 1, runSteps_within_loop ha ho hf hs hi hsum (by omega), andThen_next, runSteps_succ, hlast]
  rfl

end

/-! ## Whole commands with one sum -/

section
variable {i : Instr} {s : State}

/-- The step that issues a legal command to an idle block. -/
theorem step_issues {os : List Offer} (ha : admitted s.cfg = true) (hs : s.stage = .idle)
    (ho : s.offers = .issue (encode i) :: os) (hw : i.wf s.cfg = true) (hu : i = .init → s.initst = .uninit) :
    step s = .next (started i { s with offers := os }) := by
  rw [step_of_offer ha ho]
  exact (issueWord_of_idle (s := { s with offers := os }) hs (decode_encode i)).trans
    (legalCommandsStart i { s with offers := os } hs hw hu)

theorem started_of_sum (hi : stageOfCommand i .sum1 = true) :
    started i s = issue (opcodeOf i) (immOf i) .sum1 s := by
  cases i with
  | init | setd _ => cases hi
  | _ => rfl

/-- The state in which command `i` is about to complete, after a sum that came to `sum`. -/
def summedUp (i : Instr) (sum : Nat) (s : State) : State :=
  { s with
    offers := []
    op := opcodeOf i
    imm := immOf i
    acc := BitVec.ofNat 32 sum
    idx := 0#16
    stage := .fin }

/-- A command with one sum, from its issue to FIN, when nothing else steps. -/
theorem runSteps_to_fin {total : Nat → Nat} (ha : admitted s.cfg = true) (hs : s.stage = .idle)
    (hw : i.wf s.cfg = true) (hi : stageOfCommand i .sum1 = true) (hp : i ≠ .powr)
    (hsum : SlotsAddUp i (issue (opcodeOf i) (immOf i) .sum1 { s with offers := [] }) total) :
    runSteps (sumLen s.cfg i + 1) { s with offers := [.issue (encode i)] } =
      .next (summedUp i (total (sumLen s.cfg i)) s) := by
  have hne : i ≠ .init ∧ opcodeOf i ≠ 8#4 := by
    cases i with
    | init | setd _ => cases hi
    | _ => exact ⟨nofun, nofun⟩
  have hissue := step_issues (s := { s with offers := [.issue (encode i)] }) ha hs rfl hw (absurd · hne.1)
  have hloop := runSteps_loop (s := issue (opcodeOf i) (immOf i) .sum1 { s with offers := [] }) ha rfl
    (inFlight_issue i _ _) rfl hi hsum ((admitted_facts ha).sumLen_pos hne.1 hne.2)
  rw [runSteps_succ, hissue, started_of_sum hi]
  refine hloop.trans ?_
  rw [loopEnd, if_neg fun h => hp h.1]
  rfl

/-- A measuring command with one sum, from its issue to completion, when nothing else steps. -/
theorem runSteps_measuring {total : Nat → Nat} (ha : admitted s.cfg = true) (hs : s.stage = .idle)
    (hw : i.wf s.cfg = true) (hi : stageOfCommand i .sum1 = true) (hp : i ≠ .powr) (hm : measuring i = true)
    (hsum : SlotsAddUp i (issue (opcodeOf i) (immOf i) .sum1 { s with offers := [] }) total) :
    let sum := total (sumLen s.cfg i)
    let v := measuredValue i (summedUp i sum s)
    runSteps (sumLen s.cfg i + 2) { s with offers := [.issue (encode i)] } = .next
      { s with
        offers := [], op := opcodeOf i, imm := immOf i, acc := BitVec.ofNat 32 sum, idx := 0#16,
        result := v, history := ⟨false, v⟩ :: s.history } := by
  intro sum v
  have hfin : step (summedUp i sum s) = .next (complete v (summedUp i sum s)) :=
    (step_of_busy (s := summedUp i sum s) ha rfl nofun (instrOfFields_opcodeOf i)).trans (exec_fin_of_measuring hm rfl)
  rw [runSteps_add (sumLen s.cfg i + 1) 1, runSteps_to_fin ha hs hw hi hp hsum, andThen_next, runSteps_succ, hfin]
  simp only [andThen_next, runSteps_zero, complete, summedUp, hs, sum]

/-- A command that sums channel `ch` adds up the channel's slots, which all exist (20_memory.md R38). -/
theorem slotsAddUp_channel {ch : Nat} (ha : admitted s.cfg = true) (hsb : s.sb.wf (bufLen s.cfg) = true)
    (hch : ch < s.cfg.channels) (hlen : sumLen s.cfg i = s.cfg.spc)
    (hread : ∀ x, operandSlot i { s with idx := x } = channelSlot ch { s with idx := x }) :
    SlotsAddUp i s (channelSum s.cfg s.sb ch) := by
  refine ⟨rfl, fun k hk => ?_⟩
  have hidx : (BitVec.ofNat 16 k).toNat = k := Nat.mod_eq_of_lt (hk.trans_le ((admitted_facts ha).sumLen_le i))
  obtain ⟨v, hv⟩ := exists_read _ _ hsb _ (AdmittedFacts.slot_lt hch (hlen ▸ hk))
  refine ⟨v, ?_, ?_⟩
  · rw [hread, channelSlot, hidx]; exact hv
  · rw [channelSum, sbIndex, hv, Option.getD_some]

end

theorem channelSum_le (c : Config) (m : Memory) (ch k : Nat) : channelSum c m ch k ≤ k * 65535 := by
  induction k with
  | zero => exact Nat.zero_le _
  | succ k ih =>
    have hv := ((m.read (sbIndex c ch k)).getD 0#16).isLt
    rw [channelSum, Nat.succ_mul]
    omega

/-- The sum over a channel fits ACC (R29). -/
theorem AdmittedFacts.channelSum_lt {c : Config} (h : AdmittedFacts c) (m : Memory) (ch : Nat) :
    channelSum c m ch c.spc < 2 ^ 32 :=
  (channelSum_le c m ch c.spc).trans_lt h.spc_fits

theorem avg_ofNat {sum : Nat} (h : sum < 2 ^ 32) (n : Nat) :
    avg (BitVec.ofNat 32 sum) n = f32Div (f32OfU32 sum) (f32OfU32 n) := by
  rw [avg, BitVec.toNat_ofNat, Nat.mod_eq_of_lt h]

/-- Settles O19: RDAVG is a measuring command that adds up its channel's slots. -/
theorem rdavgReturnsTheChannelMean : Obligations.RdavgReturnsTheChannelMean := by
  intro s ch ha hsb hs hch sum v
  have hsum : SlotsAddUp (.rdavg ch) (issue 2#4 ch .sum1 { s with offers := [] }) (channelSum s.cfg s.sb ch.toNat) :=
    slotsAddUp_channel (s := issue 2#4 ch .sum1 { s with offers := [] }) ha hsb hch rfl fun _ => rfl
  have hvalue : measuredValue (.rdavg ch) (summedUp (.rdavg ch) sum s) = v :=
    avg_ofNat ((admitted_facts ha).channelSum_lt s.sb ch.toNat) s.cfg.spc
  rw [← hvalue]
  exact runSteps_measuring (i := .rdavg ch) ha hs (decide_eq_true hch) rfl nofun rfl hsum

/-! ## INIT and CalDone -/

section
variable {s : State}

theorem exec_init_of_ready (hs : s.stage = .waitcal) (hr : s.calRdy = true) :
    exec .init s = .next { s with initst := .running, stage := .fin } := by
  simp only [exec, execInit, hs, hr, if_true]

theorem exec_init_of_held (hs : s.stage = .waitcal) (hr : s.calRdy = false) : exec .init s = .next s := by
  simp only [exec, execInit, hs, hr, Bool.false_eq_true, if_false]

theorem exec_init_of_fin (hs : s.stage = .fin) : exec .init s = .next (complete 0#32 s) := by
  simp only [exec, execInit, hs]

/-- Settles O13: the step of INIT in WAITCAL, by the ready flag, and in FIN. -/
theorem initWaitsThenCompletes : Obligations.InitWaitsThenCompletes := fun _ =>
  ⟨exec_init_of_ready, exec_init_of_held, exec_init_of_fin⟩

/-- CalDone sets the ready flag where it is enabled (R64), and is without effect elsewhere. -/
theorem calDone_eq (s : State) :
    calDone s = if s.initst = .calibrating ∧ s.calRdy = false then { s with calRdy := true } else s := by
  simp [calDone, calDoneEnabled]

/-- Settles O27: the step takes the offer, and `calDone_eq` says what it does. -/
theorem calDoneSetsTheReadyFlag : Obligations.CalDoneSetsTheReadyFlag := by
  intro s os ha ho
  rw [step_of_offer ha ho]
  exact congrArg Host.Outcome.next (calDone_eq { s with offers := os })

/-- While INIT is held, offered steps of the sequencer are used up and change nothing else (60_exceptions.md R108). -/
theorem runSteps_of_held {k : Nat} {os : List Offer} (ha : admitted s.cfg = true) (hs : s.stage = .waitcal)
    (hr : s.calRdy = false) (hf : inFlight s = some .init) (ho : s.offers = List.replicate k .seq ++ os) :
    runSteps k s = .next { s with offers := os } := by
  induction k generalizing s with
  | zero => subst ho; rfl
  | succ k ih =>
    let u : State := { s with offers := List.replicate k .seq ++ os }
    have hbusy : u.stage ≠ .idle := hs ▸ nofun
    have hstep : step s = .next u :=
      calc step s = seqStep u := step_of_offer ha ho
        _ = exec .init u := seqStep_of_busy hbusy hf
        _ = .next u := exec_init_of_held hs hr
    rw [runSteps_succ, hstep, andThen_next]
    exact ih (s := u) ha hs hr hf rfl

/-- The two steps of the sequencer that are left once the ready flag is set (R63). -/
theorem runSteps_of_ready (ha : admitted s.cfg = true) (hs : s.stage = .waitcal) (hr : s.calRdy = true)
    (hf : inFlight s = some .init) (ho : s.offers = []) :
    runSteps 2 s = .next (complete 0#32 { s with initst := .running, stage := .fin }) := by
  let u : State := { s with initst := .running, stage := .fin }
  have hready : step s = .next u :=
    (step_of_busy ha ho (hs ▸ nofun) hf).trans (exec_init_of_ready hs hr)
  have hfin : step u = .next (complete 0#32 u) :=
    (step_of_busy (s := u) ha ho nofun hf).trans (exec_init_of_fin rfl)
  rw [runSteps_succ, hready, andThen_next, runSteps_succ, hfin]
  rfl

end

/-- Settles O26: the issue, `k` steps held, CalDone, and the two steps of the sequencer that it enables. -/
theorem initRunsOnceCalibrated : Obligations.InitRunsOnceCalibrated := by
  intro s k ha hs hu hr
  let waiting : State := started .init { s with offers := List.replicate k .seq ++ [.calDone] }
  have hissue : step { s with offers := .issue (encode .init) :: List.replicate k .seq ++ [.calDone] } = .next waiting :=
    step_issues (s := { s with offers := .issue (encode .init) :: List.replicate k .seq ++ [.calDone] }) ha hs rfl rfl
      fun _ => hu
  have hheld : runSteps k waiting = .next { waiting with offers := [.calDone] } :=
    runSteps_of_held (s := waiting) ha rfl hr rfl rfl
  have hcal : step { waiting with offers := [.calDone] } = .next { waiting with offers := [], calRdy := true } :=
    (calDoneSetsTheReadyFlag { waiting with offers := [.calDone] } [] ha rfl).trans
      (congrArg Host.Outcome.next (if_pos ⟨rfl, hr⟩))
  have hready := runSteps_of_ready (s := { waiting with offers := [], calRdy := true }) ha rfl rfl rfl rfl
  rw [runSteps_succ, hissue, andThen_next, runSteps_add k 3, hheld, andThen_next, runSteps_succ, hcal, andThen_next,
    hready]
  simp only [complete, waiting, started, hs]
  rfl

end Sys2Proof.Machine
end

section
/-! SUPPORT. The conversions (40_acquisition.md R65): one result goes to the slot of the cursor, and a run of them fills the
sample buffer as a ring. -/

namespace Sys2Proof.Machine

/-! ## One conversion -/

/-- What one conversion leaves: the result in the slot of the cursor, and the cursor on the next slot (R65). -/
def converted (v : Sample) (s : State) : State :=
  { s with
    sb := s.sb.write s.wp.toNat (v.zeroExtend 16)
    wp := BitVec.ofNat 16 ((s.wp.toNat + 1) % bufLen s.cfg) }

section
variable {v : Sample} {s : State}

theorem conv_of_running (hr : s.initst = .running) (hsb : s.sb.wf (bufLen s.cfg) = true)
    (hwp : s.wp.toNat < bufLen s.cfg) : conv v s = .next (converted v s) := by
  obtain ⟨t, h⟩ := conv_goes_on v s hsb hwp
  obtain ⟨hn, -⟩ | ⟨-, -, rfl⟩ := conv_eq_next h
  · exact absurd hr hn
  · exact h

theorem conv_of_not_running (hr : s.initst ≠ .running) : conv v s = .next s := by
  rw [conv, convEnabled, decide_eq_false hr, if_neg Bool.false_ne_true]

theorem read_converted_same (hsb : s.sb.wf (bufLen s.cfg) = true) (hwp : s.wp.toNat < bufLen s.cfg) :
    (converted v s).sb.read s.wp.toNat = some (v.zeroExtend 16) := by
  obtain ⟨x, hx⟩ := exists_read _ _ hsb _ hwp
  rw [converted, read_write_same, hx, Option.map_some]

theorem read_converted_other {j : Nat} (hj : j ≠ s.wp.toNat) : (converted v s).sb.read j = s.sb.read j :=
  read_write_other _ _ _ _ hj

/-- The cursor stays below the length of the buffer, so it does not lose a bit (10_state.md R18). -/
theorem toNat_wp_converted (ha : admitted s.cfg = true) :
    (converted v s).wp.toNat = (s.wp.toNat + 1) % bufLen s.cfg := by
  have hle := (admitted_facts ha).bufLen_le
  have hpos : 0 < bufLen s.cfg := Nat.mul_pos (admitted_facts ha).channels_pos (admitted_facts ha).spc_pos
  exact Nat.mod_eq_of_lt ((Nat.mod_lt _ hpos).trans_le hle)

end

/-- Settles O28: the step takes the offer, and a running block has a slot at the cursor. -/
theorem convStoresInTheNextSlot : Obligations.ConvStoresInTheNextSlot := by
  intro s v os ha hsb hwp ho
  let u : State := { s with offers := os }
  have hstep : step s = conv v u := step_of_offer ha ho
  refine ⟨fun hr => ⟨converted v u, ?_, rfl, ?_, fun j hj => ?_⟩, fun hr => ?_⟩
  · rw [hstep, conv_of_running (s := u) hr hsb hwp]
  · exact read_converted_same (s := u) hsb hwp
  · exact read_converted_other (s := u) hj
  · rw [hstep, conv_of_not_running (s := u) hr]

/-! ## A run of conversions -/

/-- What the conversions `vs` make of `s` with its cursor on slot 0: the last L of them are in the slots of their numbers
modulo L, the slots not reached are those of `s`, and the cursor counts modulo L. -/
structure RingFilled (s : State) (vs : List Sample) (t : State) : Prop where
  cfg : t.cfg = s.cfg
  running : t.initst = .running
  sbOk : t.sb.wf (bufLen s.cfg) = true
  cursor : t.wp.toNat = vs.length % bufLen s.cfg
  newest : ∀ k v, vs[k]? = some v → vs.length ≤ k + bufLen s.cfg →
    t.sb.read (k % bufLen s.cfg) = some (v.zeroExtend 16)
  untouched : ∀ j, vs.length ≤ j → t.sb.read j = s.sb.read j

/-- Fewer than L numbers apart, two conversions have different slots. -/
theorem mod_ne_mod_of_lt {k n len : Nat} (hk : k < n) (hn : n < k + len) : k % len ≠ n % len := by
  intro h
  have hdvd : len ∣ n - k := (Nat.modEq_iff_dvd' hk.le).mp h
  have := Nat.le_of_dvd (by omega) hdvd
  omega

/-- One conversion more: it takes the slot of the oldest, or one not yet reached. -/
theorem RingFilled.conv {s t : State} {vs : List Sample} (h : RingFilled s vs t) (ha : admitted s.cfg = true)
    (v : Sample) : conv v t = .next (converted v t) ∧ RingFilled s (vs ++ [v]) (converted v t) := by
  obtain ⟨hcfg, hr, hsb, hcursor, hnewest, huntouched⟩ := h
  have hpos : 0 < bufLen s.cfg := Nat.mul_pos (admitted_facts ha).channels_pos (admitted_facts ha).spc_pos
  have hwp : t.wp.toNat < bufLen s.cfg := hcursor ▸ Nat.mod_lt _ hpos
  rw [← hcfg] at hsb hwp
  refine ⟨conv_of_running hr hsb hwp, hcfg, hr, ?sbOk, ?cursor, ?newest, ?untouched⟩
  case sbOk => rw [← hcfg]; exact (write_wf _ _ _ _).trans hsb
  case cursor =>
    rw [toNat_wp_converted (hcfg ▸ ha), hcfg, hcursor, List.length_append, List.length_singleton, Nat.mod_add_mod]
  case newest =>
    intro k x hk hlen
    rw [List.length_append, List.length_singleton] at hlen
    obtain hlt | rfl | hgt := Nat.lt_trichotomy k vs.length
    · rw [List.getElem?_append_left hlt] at hk
      have hne : k % bufLen s.cfg ≠ t.wp.toNat := hcursor ▸ mod_ne_mod_of_lt hlt hlen
      rw [read_converted_other hne]
      exact hnewest k x hk (by omega)
    · obtain rfl : v = x := by simpa using hk
      rw [← hcursor]
      exact read_converted_same hsb hwp
    · rw [List.getElem?_eq_none (by simp; omega)] at hk
      cases hk
  case untouched =>
    intro j hj
    rw [List.length_append, List.length_singleton] at hj
    have hne : j ≠ t.wp.toNat := by
      have := Nat.mod_le vs.length (bufLen s.cfg)
      omega
    rw [read_converted_other hne]
    exact huntouched j (by omega)

/-- A run of offered conversions. -/
theorem runSteps_conv {s : State} (ha : admitted s.cfg = true) (hs : RingFilled s [] s) (vs : List Sample)
    {os : List Offer} (ho : s.offers = vs.map .conv ++ os) :
    ∃ t, runSteps vs.length s = .next t ∧ t.offers = os ∧ RingFilled s vs t := by
  induction vs using List.reverseRecOn generalizing os with
  | nil => exact ⟨s, rfl, ho, hs⟩
  | append_singleton vs v ih =>
    obtain ⟨t, hrun, hoffers, ht⟩ := ih (os := .conv v :: os) (by simpa using ho)
    have hu : RingFilled s vs { t with offers := os } := { ht with }
    obtain ⟨hconv, hfilled⟩ := hu.conv ha v
    refine ⟨_, ?_, rfl, hfilled⟩
    rw [List.length_append, List.length_singleton, runSteps_add, hrun, andThen_next, runSteps_succ,
      step_of_offer (ht.cfg ▸ ha) hoffers]
    exact congrArg (andThen · (runSteps 0)) hconv

/-- Settles O29: before the first conversion no slot is reached, and `runSteps_conv` counts them on. -/
theorem conversionsFillTheRing : Obligations.ConversionsFillTheRing := by
  intro s vs ha hsb hr hwp ho
  have hs : RingFilled s [] s :=
    { cfg := rfl
      running := hr
      sbOk := hsb
      cursor := by rw [hwp]; exact (Nat.zero_mod _).symm
      newest := nofun
      untouched := fun _ _ => rfl }
  obtain ⟨t, hrun, -, ht⟩ := runSteps_conv ha hs vs (os := []) (by rw [ho, List.append_nil])
  exact ⟨t, hrun, ht.cursor, ht.newest, ht.untouched⟩

end Sys2Proof.Machine
end

section
/-! SUPPORT. The average of identical values (42_measurement.md R67, R79, R83): whole numbers below 2^24 convert exactly,
and the one rounding of the division is then exact too. -/

namespace Sys2Proof.Machine

/-! ## Whole numbers that convert exactly -/

/-- A number of at most 24 significant bits is a binary32 magnitude (R82). -/
theorem exists_magUnits_eq (k : Nat) {m : Nat} (hm : m < 2 ^ 24) :
    ∃ mag, magUnits mag = m * 2 ^ k ∧ mag < (k + 2) * 2 ^ 23 := by
  induction k generalizing m with
  | zero =>
    refine ⟨m, ?_, by omega⟩
    simpa using magUnits_join 0 m hm.le (.inl rfl)
  | succ k ih =>
    obtain hlt | hge := Nat.lt_or_ge m (2 ^ 23)
    · obtain ⟨mag, hmag, hmag_lt⟩ := ih (m := m * 2) (by omega)
      refine ⟨mag, ?_, hmag_lt.trans_le (Nat.mul_le_mul_right _ (Nat.le_succ _))⟩
      rw [hmag, Nat.mul_assoc, ← Nat.pow_succ']
    · exact ⟨(k + 1) * 2 ^ 23 + m, magUnits_join (k + 1) m hm.le (.inr hge), by omega⟩

/-- A whole number below 2^24 is a finite binary32 value (R83). -/
theorem exists_magUnits_whole {n : Nat} (hn : n < 2 ^ 24) :
    ∃ mag, magUnits mag = n * 2 ^ 149 ∧ mag < f32InfMag := by
  obtain ⟨mag, hmag, hlt⟩ := exists_magUnits_eq 149 hn
  exact ⟨mag, hmag, hlt.trans (by norm_num [f32InfMag])⟩

@[simp] theorem f32Sign_ofU32 (n : Nat) : f32Sign (f32OfU32 n) = false := f32Sign_pack_round _ _ _

theorem f32OfU32_of_lt {n mag : Nat} (hmag : magUnits mag = n * 2 ^ 149) (hlt : mag < f32InfMag) :
    f32OfU32 n = f32Pack false mag := by
  have h := roundUnits_exact mag 1 Nat.one_pos hlt.le
  rw [hmag, Nat.mul_one] at h
  rw [f32OfU32, h]

theorem f32Finite_ofU32 {n : Nat} (hn : n < 2 ^ 24) : f32Finite (f32OfU32 n) = true := by
  obtain ⟨mag, hmag, hlt⟩ := exists_magUnits_whole hn
  rw [f32OfU32_of_lt hmag hlt, f32Finite_iff, f32Mag_pack _ _ (hlt.trans inf_lt)]
  exact hlt

theorem f32Units_ofU32 {n : Nat} (hn : n < 2 ^ 24) : f32Units (f32OfU32 n) = n * 2 ^ 149 := by
  obtain ⟨mag, hmag, hlt⟩ := exists_magUnits_whole hn
  rw [f32OfU32_of_lt hmag hlt, f32Units, f32Mag_pack _ _ (hlt.trans inf_lt), hmag]

/-! ## The quotient -/

/-- A quotient of exact conversions that is a whole number is its conversion (R84). -/
theorem f32Div_ofU32_mul {v n : Nat} (hn : 1 ≤ n) (hv : v < 2 ^ 24) (hn' : n < 2 ^ 24) (hvn : v * n < 2 ^ 24) :
    f32Div (f32OfU32 (v * n)) (f32OfU32 n) = f32OfU32 v := by
  obtain ⟨mag, hmag, hlt⟩ := exists_magUnits_whole hv
  have hpos : 0 < n * 2 ^ 149 := by positivity
  have hexact := roundUnits_exact mag (n * 2 ^ 149) hpos hlt.le
  rw [hmag, show v * 2 ^ 149 * (n * 2 ^ 149) = v * n * 2 ^ 149 * 2 ^ 149 by ring] at hexact
  rw [f32Div_of_finite (f32Finite_ofU32 hvn) (f32Finite_ofU32 hn') (by rw [f32Units_ofU32 hn']; exact hpos.ne'),
    f32Units_ofU32 hvn, f32Units_ofU32 hn', hexact, f32Sign_ofU32, f32Sign_ofU32, f32OfU32_of_lt hmag hlt]
  rfl

/-- No number converts to a NaN, and only 0 to a zero, however large it is (R83). -/
theorem f32Mag_ofU32_pos {n : Nat} (hn : 1 ≤ n) : 0 < f32Mag (f32OfU32 n) ∧ f32Mag (f32OfU32 n) ≤ f32InfMag := by
  have hunit : magUnits 1 * 1 ≤ n * 2 ^ 149 :=
    calc magUnits 1 * 1 = 1 := by decide
      _ ≤ n * 2 ^ 149 := Nat.mul_pos hn (by positivity)
  rw [f32OfU32, f32Mag_pack_round]
  exact ⟨le_roundUnits Nat.one_pos (by decide) hunit, roundUnits_le_inf _ _⟩

/-- 0 divided by a value that is neither zero nor a NaN is 0 (R84). -/
theorem f32Div_zero_left {b : F32} (hsign : f32Sign b = false) (hnan : f32IsNaN b = false) (hb : f32Units b ≠ 0) :
    f32Div 0#32 b = 0#32 := by
  have hzero : f32IsNaN 0#32 = false ∧ f32IsInf 0#32 = false ∧ f32Units 0#32 = 0 ∧ f32Sign 0#32 = false := by decide
  obtain ⟨hn, hi, hu, hs⟩ := hzero
  have hround : roundUnits 0 (f32Units b) = 0 := by
    simpa using roundUnits_exact 0 (f32Units b) (Nat.pos_of_ne_zero hb) (Nat.zero_le _)
  simp [f32Div, hn, hi, hu, hs, hsign, hnan, hb, hround, f32Pack]

theorem f32Div_zero_ofU32 {n : Nat} (hn : 1 ≤ n) : f32Div (f32OfU32 0) (f32OfU32 n) = f32OfU32 0 := by
  obtain ⟨hpos, hle⟩ := f32Mag_ofU32_pos hn
  have hnan : f32IsNaN (f32OfU32 n) = false := decide_eq_false hle.not_gt
  have hunits : magUnits 0 < f32Units (f32OfU32 n) := magUnits_strictMono hpos
  rw [magUnits_zero] at hunits
  rw [show f32OfU32 0 = 0#32 by decide]
  exact f32Div_zero_left (f32Sign_ofU32 n) hnan hunits.ne'

/-- Settles O52: a value other than 0 has fewer than 2^24 copies, so sum and count convert exactly; 0 divided by any count
is 0. -/
theorem uniformAverageIsExact : Obligations.UniformAverageIsExact := by
  intro v n hn hv hvn
  have havg : avg (BitVec.ofNat 32 (v * n)) n = f32Div (f32OfU32 (v * n)) (f32OfU32 n) := avg_ofNat (by omega) n
  rw [havg]
  obtain rfl | hpos := Nat.eq_zero_or_pos v
  · rw [Nat.zero_mul]
    exact f32Div_zero_ofU32 hn
  · exact f32Div_ofU32_mul hn (by omega) ((Nat.le_mul_of_pos_left n hpos).trans_lt hvn) hvn

end Sys2Proof.Machine
end

section
/-! SUPPORT. The race of the sum over the delay history with captures (41_phase_capture.md R79, 20_memory.md R45), and
the whole command PHAVG (R77). -/

namespace Sys2Proof.Machine

/-! ## The sum over the history while captures go on -/

/-- The sums over the delay history. -/
def SumsHistory (_ : Config) (i : Instr) (_ : Stage) : Prop := i = .phavg ∨ i = .phms

/-- A step that ends with the history's slots within the bounds keeps the bounds of the sum: the slot it reads is one of
those. -/
theorem step_keeps_historySum_bounded {lo hi : Nat} (s t : State) (hs : SumBounded SumsHistory lo hi s)
    (ht : DelaysWithin lo hi t) (h : step s = .next t) : SumBounded SumsHistory lo hi t := by
  obtain ⟨os, rfl⟩ | ⟨u, v, hu, hturn, hv, -, hph⟩ := step_readsFinalMemories h
  · exact .of_idle rfl
  · have ha : admitted u.cfg = true := hu.cfg.symm ▸ (step_eq_next h).1
    refine hv.sumBounded (hturn.sumBounded ha (fun _ _ _ _ _ hc => hc) ?slots (hu.sumBounded hs))
    intro i x _ _ hc hx _
    apply ht u.idx.toNat x
    rw [hph]
    obtain rfl | rfl := hc <;> exact hx

/-- Settles O47: the bounds of the sum hold while the block is idle, and each step keeps them, since a run's slots are
within the bounds at the end of each of its steps. -/
theorem historyRaceStaysInRange : Obligations.HistoryRaceStaysInRange := by
  intro lo hi k s u _ hidle hrun hu i hbusy hf hc
  have hbounded : SumBounded SumsHistory lo hi u :=
    runSteps_induction step_keeps_historySum_bounded (.of_idle hidle) hrun hu
  exact (hbounded i hbusy hf).within hc

/-! ## The whole sum, with nothing else stepping -/

/-- A command that sums the delay history adds up its slots, which all exist (10_state.md R21). -/
theorem slotsAddUp_history {i : Instr} {s : State} (ha : admitted s.cfg = true) (hph : s.ph.wf s.cfg.n = true)
    (hi : SumsHistory s.cfg i s.stage) : SlotsAddUp i s (delaySum s.ph) := by
  have hrow : sumLen s.cfg i = s.cfg.n ∧ ∀ x, operandSlot i { s with idx := x } = s.ph.read x.toNat := by
    obtain rfl | rfl := hi <;> exact ⟨rfl, fun _ => rfl⟩
  obtain ⟨hlen, hread⟩ := hrow
  refine ⟨rfl, fun k hk => ?_⟩
  have hidx : (BitVec.ofNat 16 k).toNat = k := Nat.mod_eq_of_lt (hk.trans_le ((admitted_facts ha).sumLen_le i))
  obtain ⟨v, hv⟩ := exists_read _ _ hph k (hlen ▸ hk)
  refine ⟨v, ?_, ?_⟩
  · rw [hread, hidx, hv]
  · rw [delaySum, hv, Option.getD_some]

theorem delaySum_le (m : Memory) (k : Nat) : delaySum m k ≤ k * 65535 := by
  induction k with
  | zero => exact Nat.zero_le _
  | succ k ih =>
    have hv := ((m.read k).getD 0#16).isLt
    rw [delaySum, Nat.succ_mul]
    omega

/-- The sum over the delay history fits ACC (R29). -/
theorem AdmittedFacts.delaySum_lt {c : Config} (h : AdmittedFacts c) (m : Memory) : delaySum m c.n < 2 ^ 32 :=
  (delaySum_le m c.n).trans_lt h.n_fits

/-- Settles O20: PHAVG is a measuring command that adds up the slots of the delay history. -/
theorem phavgReturnsTheHistoryMean : Obligations.PhavgReturnsTheHistoryMean := by
  intro s ha hph hs sum v
  have hsum : SlotsAddUp .phavg (issue 3#4 0#16 .sum1 { s with offers := [] }) (delaySum s.ph) :=
    slotsAddUp_history (s := issue 3#4 0#16 .sum1 { s with offers := [] }) ha hph (.inl rfl)
  have hvalue : measuredValue .phavg (summedUp .phavg sum s) = v :=
    avg_ofNat ((admitted_facts ha).delaySum_lt s.ph) s.cfg.n
  rw [← hvalue]
  exact runSteps_measuring (i := .phavg) ha hs rfl rfl nofun rfl hsum

end Sys2Proof.Machine
end

section
/-! SUPPORT. The three events of the capture (41_phase_capture.md R72 to R74), one step each. -/

namespace Sys2Proof.Machine

/-- Settles O30: the step takes the offer, whatever the state of the timer. -/
theorem refEdgeRestartsTheTimer : Obligations.RefEdgeRestartsTheTimer :=
  fun _ _ ha ho => step_of_offer ha ho

/-- A tick counts where it is enabled (R74), and is without effect elsewhere. -/
theorem toNat_tcnt_tick (s : State) :
    (tick s).tcnt.toNat = if s.ten = true then (s.tcnt.toNat + 1) % 65536 else s.tcnt.toNat := by
  rw [tick_tcnt, tickEnabled]
  split
  · exact BitVec.toNat_add s.tcnt 1#16
  · rfl

/-- A tick writes TCNT only. -/
theorem tick_eq (s : State) : tick s = { s with tcnt := (tick s).tcnt } := by
  unfold tick
  split <;> rfl

/-- Settles O32: the step takes the offer, and a tick writes nothing but the count. -/
theorem tickCountsModulo65536 : Obligations.TickCountsModulo65536 := fun s os ha ho =>
  ⟨tick { s with offers := os }, step_of_offer ha ho, tick_eq _, toNat_tcnt_tick _⟩

/-! ## The delayed edge -/

/-- What a delayed edge leaves in Timing: the count in the slot of the cursor, the cursor on the next slot, the timer
stopped (R73). -/
def captured (s : State) : State :=
  { s with
    ph := s.ph.write s.pcur.toNat s.tcnt
    pcur := BitVec.ofNat 16 ((s.pcur.toNat + 1) % s.cfg.n)
    ten := false }

section
variable {s : State}

theorem dlyEdge_of_timing (ht : s.ten = true) (hph : s.ph.wf s.cfg.n = true) (hp : s.pcur.toNat < s.cfg.n) :
    dlyEdge s = .next (captured s) := by
  obtain ⟨t, h⟩ := dlyEdge_goes_on s hph hp
  obtain ⟨hidle, -⟩ | ⟨-, -, rfl⟩ := dlyEdge_eq_next h
  · exact absurd (hidle.symm.trans ht) Bool.false_ne_true
  · exact h

theorem dlyEdge_of_idle (ht : s.ten = false) : dlyEdge s = .next s := by
  rw [dlyEdge, ht, if_neg Bool.false_ne_true]

theorem read_captured_same (hph : s.ph.wf s.cfg.n = true) (hp : s.pcur.toNat < s.cfg.n) :
    (captured s).ph.read s.pcur.toNat = some s.tcnt := by
  obtain ⟨x, hx⟩ := exists_read _ _ hph _ hp
  rw [captured, read_write_same, hx, Option.map_some]

theorem read_captured_other {j : Nat} (hj : j ≠ s.pcur.toNat) : (captured s).ph.read j = s.ph.read j :=
  read_write_other _ _ _ _ hj

end

/-- Settles O31: the step takes the offer, and in Timing the cursor has a slot. -/
theorem dlyEdgeCapturesAndStops : Obligations.DlyEdgeCapturesAndStops := by
  intro s os ha hph hp ho
  let u : State := { s with offers := os }
  have hstep : step s = dlyEdge u := step_of_offer ha ho
  refine ⟨fun ht => ⟨captured u, ?_, rfl, ?_, fun j hj => ?_⟩, fun ht => ?_⟩
  · rw [hstep, dlyEdge_of_timing (s := u) ht hph hp]
  · exact read_captured_same (s := u) hph hp
  · exact read_captured_other (s := u) hj
  · rw [hstep, dlyEdge_of_idle (s := u) ht]

end Sys2Proof.Machine
end

section
/-! SUPPORT. The average of a sum that converts exactly, with the bounds of its slots (41_phase_capture.md R79,
42_measurement.md R88). -/

namespace Sys2Proof.Machine

/-! ## Values that are not negative -/

/-- A finite value with sign 0 (42_measurement.md R82). -/
structure NonnegFinite (a : F32) : Prop where
  finite : f32Finite a = true
  sign : f32Sign a = false

theorem nonnegFinite_pack_round {n d : Nat} (h : roundUnits n d < f32InfMag) :
    NonnegFinite (f32Pack false (roundUnits n d)) :=
  ⟨(f32Finite_pack_round false n d).mpr h, f32Sign_pack_round false n d⟩

theorem nonnegFinite_ofU32 {n : Nat} (hn : n < 2 ^ 24) : NonnegFinite (f32OfU32 n) :=
  ⟨f32Finite_ofU32 hn, f32Sign_ofU32 n⟩

/-- Of values that are not negative the order is that of their magnitudes (42_measurement.md R85). -/
theorem f32Le_of_units_le {a b : F32} (ha : NonnegFinite a) (hb : NonnegFinite b) (h : f32Units a ≤ f32Units b) :
    f32Le a b = true := by
  rw [f32Le, not_nan_of_finite ha.finite, not_nan_of_finite hb.finite, f32Int_of_pos ha.sign, f32Int_of_pos hb.sign]
  simpa using h

/-! ## The average -/

/-- An average of exact conversions is one rounded quotient (R88). -/
theorem avg_eq_round {sum : Word} {n : Nat} (hsum : sum.toNat < 2 ^ 24) (hn : 1 ≤ n) (hn' : n < 2 ^ 24) :
    avg sum n = f32Pack false (roundUnits (sum.toNat * 2 ^ 149 * 2 ^ 149) (n * 2 ^ 149)) := by
  have hunits : f32Units (f32OfU32 n) ≠ 0 := by rw [f32Units_ofU32 hn']; positivity
  rw [avg, f32Div_of_finite (f32Finite_ofU32 hsum) (f32Finite_ofU32 hn') hunits, f32Units_ofU32 hsum,
    f32Units_ofU32 hn', f32Sign_ofU32, f32Sign_ofU32, Bool.false_xor]

/-- Settles O49: the bounds convert exactly, so rounding the quotient does not pass them. -/
theorem averageLiesBetweenItsBounds : Obligations.AverageLiesBetweenItsBounds := by
  intro lo hi n sum hn hlo hhi hsum hn' hhi'
  have hlo' : lo < 2 ^ 24 := ((Nat.le_mul_of_pos_right lo hn).trans hlo).trans_lt hsum
  obtain ⟨low, hlow, hlow_lt⟩ := exists_magUnits_whole hlo'
  obtain ⟨high, hhigh, hhigh_lt⟩ := exists_magUnits_whole hhi'
  have hd : 0 < n * 2 ^ 149 := by positivity
  have havg := avg_eq_round hsum hn hn'
  have hle : low ≤ roundUnits (sum.toNat * 2 ^ 149 * 2 ^ 149) (n * 2 ^ 149) := by
    refine le_roundUnits hd hlow_lt.le ?_
    calc magUnits low * (n * 2 ^ 149) = lo * n * 2 ^ 149 * 2 ^ 149 := by rw [hlow]; ring
      _ ≤ sum.toNat * 2 ^ 149 * 2 ^ 149 := by gcongr
  have hge : roundUnits (sum.toNat * 2 ^ 149 * 2 ^ 149) (n * 2 ^ 149) ≤ high := by
    refine roundUnits_le hd hhigh_lt.le ?_
    calc sum.toNat * 2 ^ 149 * 2 ^ 149 ≤ hi * n * 2 ^ 149 * 2 ^ 149 := by gcongr
      _ = magUnits high * (n * 2 ^ 149) := by rw [hhigh]; ring
  have hmean : NonnegFinite (avg sum n) := havg ▸ nonnegFinite_pack_round (hge.trans_lt hhigh_lt)
  constructor
  · refine f32Le_of_units_le (nonnegFinite_ofU32 hlo') hmean ?_
    rw [f32Units_ofU32 hlo', havg, f32Units_pack_round, ← hlow]
    exact magUnits_le_iff.mpr hle
  · refine f32Le_of_units_le hmean (nonnegFinite_ofU32 hhi') ?_
    rw [f32Units_ofU32 hhi', havg, f32Units_pack_round, ← hhigh]
    exact magUnits_le_iff.mpr hge

end Sys2Proof.Machine
end

section
/-! SUPPORT. The ramp of ADJI has a value wherever it is reached (42_measurement.md R86, 43_actuation.md R101): the
current of every sum is far below the largest finite value, and between the bounds its distance from CURRENT_MIN is at most the
span. -/

namespace Sys2Proof.Machine

/-! ## Values of a bounded size -/

/-- A finite value with sign 0 of at most 2^p units of 2^-149. -/
structure BoundedBy (p : Nat) (a : F32) : Prop extends NonnegFinite a where
  units_le : f32Units a ≤ 2 ^ p

/-- Powers of two below 2^254 units are representable, so rounding does not pass them. -/
theorem BoundedBy.of_round {n d p : Nat} (hd : 0 < d) (hp : p < 254) (h : n ≤ 2 ^ p * d) :
    BoundedBy p (f32Pack false (roundUnits n d)) := by
  obtain ⟨mag, hmag, hlt⟩ := exists_magUnits_eq p (m := 1) (by norm_num)
  rw [Nat.one_mul] at hmag
  have hinf : mag < f32InfMag := hlt.trans_le (by unfold f32InfMag; omega)
  have hle : roundUnits n d ≤ mag := roundUnits_le hd hinf.le (hmag ▸ h)
  refine ⟨nonnegFinite_pack_round (hle.trans_lt hinf), ?_⟩
  rw [f32Units_pack_round, ← hmag]
  exact magUnits_le_iff.mpr hle

/-- Of two values that are not negative the order is that of their magnitudes (42_measurement.md R85). -/
theorem f32Lt_eq_units {a b : F32} (ha : NonnegFinite a) (hb : NonnegFinite b) :
    f32Lt a b = decide (f32Units a < f32Units b) := by
  rw [f32Lt, not_nan_of_finite ha.finite, not_nan_of_finite hb.finite, f32Int_of_pos ha.sign, f32Int_of_pos hb.sign]
  simp

theorem f32Sign_of_int_pos {a : F32} (h : 0 < f32Int a) : f32Sign a = false := by
  cases hs : f32Sign a with
  | false => rfl
  | true =>
    rw [f32Int, hs, if_pos rfl] at h
    omega

theorem nonnegFinite_of_finitePos {a : F32} (h : finitePos a = true) : NonnegFinite a := by
  obtain ⟨hfinite, hlt⟩ := Bool.and_eq_true_iff.mp h
  have hpos : 0 < f32Int a := of_decide_eq_true (Bool.and_eq_true_iff.mp hlt).2
  exact ⟨hfinite, f32Sign_of_int_pos hpos⟩

/-- A scale factor is at most 2^32 (00_scope.md R6). -/
theorem boundedBy_of_scaleOk {a : F32} (h : scaleOk a = true) : BoundedBy 181 a := by
  obtain ⟨hmin, hmax⟩ := Bool.and_eq_true_iff.mp h
  have hmin : f32Int scaleMin ≤ f32Int a := of_decide_eq_true (Bool.and_eq_true_iff.mp hmin).2
  have hmax : f32Int a ≤ f32Int scaleMax := of_decide_eq_true (Bool.and_eq_true_iff.mp hmax).2
  have hlow : 0 < f32Int scaleMin := by decide
  have hhigh : f32Int scaleMax = 2 ^ 181 := by decide
  have hsign := f32Sign_of_int_pos (hlow.trans_le hmin)
  have hunits : f32Units a ≤ 2 ^ 181 := by
    rw [hhigh, f32Int_of_pos hsign] at hmax
    exact_mod_cast hmax
  have hinf : (2 : Nat) ^ 181 < magUnits f32InfMag := by decide
  exact ⟨⟨(f32Finite_iff a).mpr (magUnits_lt_iff.mp (hunits.trans_lt hinf)), hsign⟩, hunits⟩

/-! ## The operations on them -/

theorem BoundedBy.mul {p q r : Nat} {a b : F32} (ha : BoundedBy p a) (hb : BoundedBy q b) (hr : p + q = r + 149)
    (hlt : r < 254) : BoundedBy r (f32Mul a b) := by
  rw [f32Mul_of_finite ha.finite hb.finite, ha.sign, hb.sign]
  refine .of_round (by positivity) hlt ?_
  rw [← pow_add, ← hr, pow_add]
  exact Nat.mul_le_mul ha.units_le hb.units_le

theorem BoundedBy.of_div {p : Nat} {a b : F32} (ha : NonnegFinite a) (hb : NonnegFinite b) (hpos : 0 < f32Units b)
    (hp : p < 254) (h : f32Units a * 2 ^ 149 ≤ 2 ^ p * f32Units b) : BoundedBy p (f32Div a b) := by
  rw [f32Div_of_finite ha.finite hb.finite hpos.ne', ha.sign, hb.sign]
  exact .of_round hpos hp h

theorem f32Sub_of_le {a b : F32} (ha : NonnegFinite a) (hb : NonnegFinite b) (h : f32Units b ≤ f32Units a) :
    f32Sub a b = f32Pack false (roundUnits (f32Units a - f32Units b) 1) := by
  rw [f32Sub_of_finite ha.finite hb.finite, f32Int_of_pos ha.sign, f32Int_of_pos hb.sign]
  split
  · have hzero : f32Units a - f32Units b = 0 := by omega
    have hround : roundUnits 0 1 = 0 := by decide
    rw [hzero, hround, ha.sign, Bool.false_and]
  · rw [decide_eq_false (by omega), show ((f32Units a : Int) - f32Units b).natAbs = f32Units a - f32Units b by omega]

/-- A difference is at most its minuend. -/
theorem nonnegFinite_sub {a b : F32} (ha : NonnegFinite a) (hb : NonnegFinite b) (h : f32Units b ≤ f32Units a) :
    NonnegFinite (f32Sub a b) ∧ f32Units (f32Sub a b) ≤ f32Units a := by
  have hinf := (f32Finite_iff a).mp ha.finite
  have hle : roundUnits (f32Units a - f32Units b) 1 ≤ f32Mag a :=
    roundUnits_le Nat.one_pos hinf.le (by rw [← f32Units]; omega)
  rw [f32Sub_of_le ha hb h, f32Units_pack_round]
  exact ⟨nonnegFinite_pack_round (hle.trans_lt hinf), magUnits_le_iff.mpr hle⟩

/-- The difference of two values is not lost in the rounding: it is at least one unit. -/
theorem f32Units_sub_pos {a b : F32} (ha : NonnegFinite a) (hb : NonnegFinite b) (h : f32Units b < f32Units a) :
    0 < f32Units (f32Sub a b) := by
  have hone : magUnits 1 = 1 := by decide
  have hle : 1 ≤ roundUnits (f32Units a - f32Units b) 1 :=
    le_roundUnits Nat.one_pos (by decide) (by rw [hone]; omega)
  rw [f32Sub_of_le ha hb h.le, f32Units_pack_round, ← magUnits_zero]
  exact magUnits_strictMono hle

/-- A greater minuend has a greater difference. -/
theorem f32Units_sub_mono {a b c : F32} (ha : NonnegFinite a) (hb : NonnegFinite b) (hc : NonnegFinite c)
    (hcb : f32Units c ≤ f32Units b) (hba : f32Units b ≤ f32Units a) :
    f32Units (f32Sub b c) ≤ f32Units (f32Sub a c) := by
  rw [f32Sub_of_le hb hc hcb, f32Sub_of_le ha hc (hcb.trans hba), f32Units_pack_round, f32Units_pack_round,
    magUnits_le_iff]
  exact roundUnits_mono Nat.one_pos Nat.one_pos (by omega)

/-- A magnitude times a power of two is representable, unless it is past the largest. -/
theorem exists_magUnits_mul_pow (mag j : Nat) :
    ∃ mag', magUnits mag' = magUnits mag * 2 ^ j ∧ mag' < mag + (j + 2) * 2 ^ 23 := by
  obtain ⟨k, m, rfl, hm, hk⟩ := exists_join mag
  obtain ⟨mag', hmag, hlt⟩ := exists_magUnits_eq (k + j) hm
  refine ⟨mag', ?_, by omega⟩
  rw [hmag, magUnits_join k m hm.le hk, pow_add, Nat.mul_assoc]

/-- The factor 1000 of the ramp is below 2^10, and so is the rounded product's. -/
theorem f32Mul_thousand {x : F32} (hx : BoundedBy 213 x) :
    NonnegFinite (f32Mul x f32Thousand) ∧ f32Units (f32Mul x f32Thousand) ≤ f32Units x * 2 ^ 10 := by
  obtain ⟨mag, hmag, hlt⟩ := exists_magUnits_mul_pow (f32Mag x) 10
  obtain ⟨top, htop, htop_lt⟩ := exists_magUnits_eq 213 (m := 1) (by norm_num)
  have hx_le : f32Mag x ≤ top := magUnits_le_iff.mp (by rw [htop, Nat.one_mul]; exact hx.units_le)
  have hinf : mag < f32InfMag := by unfold f32InfMag; omega
  have hfinite : f32Finite f32Thousand = true := by decide
  have hsign : f32Sign f32Thousand = false := by decide
  have hunits : f32Units f32Thousand = 1000 * 2 ^ 149 := by decide
  have hround : roundUnits (f32Units x * f32Units f32Thousand) (2 ^ 149) ≤ mag := by
    refine roundUnits_le (by positivity) hinf.le ?_
    calc f32Units x * f32Units f32Thousand = f32Units x * 1000 * 2 ^ 149 := by rw [hunits, Nat.mul_assoc]
      _ ≤ f32Units x * 2 ^ 10 * 2 ^ 149 := by gcongr; norm_num
      _ = magUnits mag * 2 ^ 149 := by rw [hmag, f32Units]
  rw [f32Mul_of_finite hx.finite hfinite, hx.sign, hsign]
  refine ⟨nonnegFinite_pack_round (hround.trans_lt hinf), ?_⟩
  rw [Bool.false_xor, f32Units_pack_round, f32Units, ← hmag]
  exact magUnits_le_iff.mpr hround

/-- `trunc_i32` has a value below 2^31 (R86). -/
theorem BoundedBy.exists_truncI32 {p : Nat} {a : F32} (ha : BoundedBy p a) (hp : p < 180) :
    ∃ d, truncI32 a = some d := by
  have hlt : f32Units a / 2 ^ 149 < 2 ^ 31 := by
    rw [Nat.div_lt_iff_lt_mul (by positivity), ← pow_add]
    exact ha.units_le.trans_lt (Nat.pow_lt_pow_right (by norm_num) hp)
  rw [truncI32, not_nan_of_finite ha.finite, not_inf_of_finite ha.finite, decide_eq_false hlt.not_ge]
  exact ⟨_, rfl⟩

/-! ## The ramp -/

/-- Between two bounds the ramp is at most about 1000, so it has a value. -/
theorem exists_truncI32_ramp {lo hi i : F32} (hlo : NonnegFinite lo) (hhi : NonnegFinite hi) (hcur : BoundedBy 213 i)
    (hspan : f32Units lo < f32Units hi) (hmin : f32Units lo ≤ f32Units i) (hmax : f32Units i ≤ f32Units hi) :
    ∃ d, truncI32 (f32Div (f32Mul (f32Sub i lo) f32Thousand) (f32Sub hi lo)) = some d := by
  obtain ⟨hx, hxle⟩ := nonnegFinite_sub hcur.toNonnegFinite hlo hmin
  obtain ⟨hy, -⟩ := nonnegFinite_sub hhi hlo hspan.le
  have hxy := f32Units_sub_mono hhi hcur.toNonnegFinite hlo hmin hmax
  obtain ⟨hz, hzle⟩ := f32Mul_thousand ⟨hx, hxle.trans hcur.units_le⟩
  have hquotient : BoundedBy 159 (f32Div (f32Mul (f32Sub i lo) f32Thousand) (f32Sub hi lo)) := by
    refine .of_div hz hy (f32Units_sub_pos hhi hlo hspan) (by norm_num) ?_
    calc f32Units (f32Mul (f32Sub i lo) f32Thousand) * 2 ^ 149 ≤ f32Units (f32Sub hi lo) * 2 ^ 10 * 2 ^ 149 := by
          gcongr; exact hzle.trans (Nat.mul_le_mul_right _ hxy)
      _ = 2 ^ 159 * f32Units (f32Sub hi lo) := by ring
  exact hquotient.exists_truncI32 (by norm_num)

/-! ## The current of a sum -/

theorem boundedBy_avg (sum : Word) {n : Nat} (hn : 1 ≤ n) (hn' : n < 2 ^ 24) : BoundedBy 181 (avg sum n) := by
  have hsum : BoundedBy 181 (f32OfU32 sum.toNat) :=
    .of_round Nat.one_pos (by norm_num) (by have := sum.isLt; omega)
  have hunits := f32Units_ofU32 hn'
  refine .of_div hsum.toNonnegFinite (nonnegFinite_ofU32 hn') (by rw [hunits]; positivity) (by norm_num) ?_
  rw [hunits]
  exact Nat.mul_le_mul hsum.units_le (Nat.le_mul_of_pos_left _ hn)

theorem AdmittedFacts.boundedBy_amperes {c : Config} (h : AdmittedFacts c) (sum : Word) :
    BoundedBy 213 (amperes c sum) := by
  have hspc : c.spc ≤ 65536 := h.sumLen_le .volt
  exact (boundedBy_avg sum h.spc_pos (by omega)).mul (boundedBy_of_scaleOk h.ki_ok) (by norm_num) (by norm_num)

/-- The map has a value for the current of every sum (43_actuation.md R101). -/
theorem AdmittedFacts.exists_dutyMap {c : Config} (h : AdmittedFacts c) (sum : Word) :
    ∃ d, dutyMap c (amperes c sum) = some d := by
  have hi := h.boundedBy_amperes sum
  have hlo := nonnegFinite_of_finitePos h.min_ok
  have hhi := nonnegFinite_of_finitePos h.max_ok
  have hspan : f32Units c.currentMin < f32Units c.currentMax :=
    of_decide_eq_true ((f32Lt_eq_units hlo hhi).symm.trans h.min_lt_max)
  rw [dutyMap, f32Gt, f32Lt_eq_units hi.toNonnegFinite hlo, f32Lt_eq_units hhi hi.toNonnegFinite]
  by_cases hbelow : f32Units (amperes c sum) < f32Units c.currentMin
  · exact ⟨0, by rw [decide_eq_true hbelow, if_pos rfl]⟩
  by_cases habove : f32Units c.currentMax < f32Units (amperes c sum)
  · exact ⟨dutyMax, by rw [decide_eq_false hbelow, if_neg Bool.false_ne_true, decide_eq_true habove, if_pos rfl]⟩
  rw [decide_eq_false hbelow, if_neg Bool.false_ne_true, decide_eq_false habove, if_neg Bool.false_ne_true]
  exact exists_truncI32_ramp hlo hhi hi hspan (not_lt.mp hbelow) (not_lt.mp habove)

end Sys2Proof.Machine
end

section
/-! SUPPORT. Between the edges of a measurement nothing stops the block (60_exceptions.md R105): each agent's step finds
its slots and its command in one of its stages, and leaves it so. -/

namespace Sys2Proof.Machine

/-! ## What the steps need -/

/-- The memories have their slots, and the cursors are on slots (10_state.md R17, R18, R21, R22). -/
structure SlotsReady (s : State) : Prop where
  cfgOk : admitted s.cfg = true
  sbOk : s.sb.wf (bufLen s.cfg) = true
  phOk : s.ph.wf s.cfg.n = true
  wpOk : s.wp.toNat < bufLen s.cfg
  pcurOk : s.pcur.toNat < s.cfg.n

/-- Command `i` is in flight, legal, in one of its stages, and not past the last slot of a loop (10_state.md
R28 to R30). -/
structure Flying (i : Instr) (s : State) : Prop where
  latched : inFlight s = some i
  stageOk : stageOfCommand i s.stage = true
  operandOk : i.wf s.cfg = true
  idxOk : summing s.stage = true → s.idx.toNat < sumLen s.cfg i

/-- What the next step of an agent needs. -/
structure Ready (s : State) : Prop where
  slots : SlotsReady s
  flight : s.stage ≠ .idle → ∃ i, Flying i s

theorem Inv.ready {s : State} (h : Inv s) : Ready s where
  slots := ⟨h.cfgOk, h.sbOk, h.phOk, h.wpOk, h.pcurOk⟩
  flight hs := by
    obtain ⟨i, hi⟩ := h.flightOk hs
    exact ⟨i, hi.latched, hi.stageOk, hi.operandOk, fun hsum => by simpa [hsum] using hi.idxOk⟩

/-! ## A ready block goes on -/

section
variable {s : State}

theorem SlotsReady.exists_channelSlot (h : SlotsReady s) {ch : Nat} (hch : ch < s.cfg.channels)
    (hidx : s.idx.toNat < s.cfg.spc) : ∃ v, channelSlot ch s = some v :=
  exists_read _ _ h.sbOk _ (AdmittedFacts.slot_lt hch hidx)

/-- The slot a summation step reads exists (20_memory.md R38). -/
theorem SlotsReady.exists_operandSlot (h : SlotsReady s) {i : Instr} (hi : Flying i s) (hs : summing s.stage = true) :
    ∃ v, operandSlot i s = some v := by
  have facts := admitted_facts h.cfgOk
  have hidx := hi.idxOk hs
  cases i with
  | init | setd _ => cases hidx
  | phavg | phms => exact exists_read _ _ h.phOk _ hidx
  | rdavg ch =>
    obtain rfl : ch = s.imm := (instrOfFields_eq_some_iff.mp hi.latched).2 rfl
    exact h.exists_channelSlot (of_decide_eq_true hi.operandOk) hidx
  | volt => exact h.exists_channelSlot facts.voltage_lt hidx
  | curr | adji => exact h.exists_channelSlot facts.current_lt hidx
  | powr =>
    refine h.exists_channelSlot ?_ hidx
    split
    exacts [facts.voltage_lt, facts.current_lt]

theorem exec_fin_goes_on (ha : admitted s.cfg = true) (hs : s.stage = .fin) (i : Instr) : ∃ t, exec i s = .next t := by
  cases i with
  | rdavg _ | phavg | volt | curr | powr | phms => exact ⟨_, exec_fin_of_measuring rfl hs⟩
  | init => exact ⟨_, exec_init_of_fin hs⟩
  | setd d => exact ⟨program (clamp (dutyOperand s.imm)) s, by simp only [exec, execSetd, hs]⟩
  | adji =>
    obtain ⟨d, hd⟩ := (admitted_facts ha).exists_dutyMap s.acc
    exact ⟨program (clamp d) s, by simp only [exec, execAdji, hs, hd, programMapped_some]⟩

theorem SlotsReady.exec_goes_on (h : SlotsReady s) {i : Instr} (hi : Flying i s) (hbusy : s.stage ≠ .idle) :
    ∃ t, exec i s = .next t := by
  have sums : summing s.stage = true → ∃ t, exec i s = .next t := fun hs =>
    have ⟨_, hv⟩ := h.exists_operandSlot hi hs
    ⟨_, exec_of_slot hs hi.stageOk hv⟩
  cases hs : s.stage with
  | idle => exact absurd hs hbusy
  | sum1 | sum2 => exact sums (by rw [hs]; rfl)
  | fin => exact exec_fin_goes_on h.cfgOk hs i
  | waitcal =>
    have hstage := hi.stageOk
    rw [hs] at hstage
    obtain rfl : i = .init := by
      cases i with
      | init => rfl
      | _ => cases hstage
    cases hr : s.calRdy with
    | true => exact ⟨_, exec_init_of_ready hs hr⟩
    | false => exact ⟨_, exec_init_of_held hs hr⟩

theorem seqStep_of_idle (hs : s.stage = .idle) : seqStep s = .next s := by
  rw [seqStep, cmdReady, decide_eq_true hs, if_pos rfl]

theorem Ready.seqStep_goes_on (h : Ready s) : ∃ t, seqStep s = .next t := by
  by_cases hs : s.stage = .idle
  · exact ⟨s, seqStep_of_idle hs⟩
  · obtain ⟨i, hi⟩ := h.flight hs
    rw [seqStep_of_busy hs hi.latched]
    exact h.slots.exec_goes_on hi hs

/-- `Issue` goes on in every state (30_encoding.md R54). -/
theorem issueWord_goes_on (w : Word) (s : State) : ∃ t, issueWord w s = .next t := by
  by_cases hs : s.stage = .idle
  · cases hd : decode w with
    | command i => exact ⟨_, (issueWord_of_idle hs hd).trans (exec_of_idle hs)⟩
    | illegal e => exact ⟨_, issueWord_of_illegal hs hd⟩
  · exact ⟨s, issueWord_of_not_idle hs⟩

end

/-! ## It stays ready -/

section
variable {i : Instr} {s t : State}

theorem KeepsUnits.slotsReady (h : KeepsUnits s t) (hs : SlotsReady s) : SlotsReady t where
  cfgOk := by rw [h.cfg]; exact hs.cfgOk
  sbOk := by rw [h.sb, h.cfg]; exact hs.sbOk
  phOk := by rw [h.ph, h.cfg]; exact hs.phOk
  wpOk := by rw [h.wp, h.cfg]; exact hs.wpOk
  pcurOk := by rw [h.pcur, h.cfg]; exact hs.pcurOk

theorem SlotsReady.calDone (h : SlotsReady s) : SlotsReady (calDone s) := by
  unfold Machine.calDone
  split
  exacts [{ h with }, h]

theorem SlotsReady.tick (h : SlotsReady s) : SlotsReady (tick s) := by
  unfold Machine.tick
  split
  exacts [{ h with }, h]

theorem SlotsReady.conv (h : SlotsReady s) {v : Sample} (hc : conv v s = .next t) : SlotsReady t := by
  obtain ⟨-, rfl⟩ | ⟨-, -, rfl⟩ := conv_eq_next hc
  · exact h
  · have facts := admitted_facts h.cfgOk
    have hwp : (converted v s).wp.toNat < bufLen s.cfg := by
      rw [toNat_wp_converted h.cfgOk]
      exact Nat.mod_lt _ (Nat.mul_pos facts.channels_pos facts.spc_pos)
    exact { h with sbOk := (write_wf _ _ _ _).trans h.sbOk, wpOk := hwp }

theorem KeepsSequencer.flying (h : KeepsSequencer s t) (hi : Flying i s) : Flying i t where
  latched := by rw [inFlight, h.op, h.imm]; exact hi.latched
  stageOk := by rw [h.stage]; exact hi.stageOk
  operandOk := by rw [h.cfg]; exact hi.operandOk
  idxOk := by rw [h.stage, h.idx, h.cfg]; exact hi.idxOk

/-- Every command ends in FIN (10_state.md R30). -/
theorem stageOfCommand_fin (i : Instr) : stageOfCommand i .fin = true := by
  cases i <;> rfl

/-- A command's step leaves the block idle or the command flying. -/
theorem CommandStep.flying (h : CommandStep i s t) (ha : admitted s.cfg = true) (hi : s.stage ≠ .idle → Flying i s)
    (hbusy : t.stage ≠ .idle) : Flying i t := by
  have facts := admitted_facts ha
  cases h with
  | initStarts hinit => subst hinit; exact ⟨rfl, rfl, rfl, nofun⟩
  | starts hinit _ hw =>
    by_cases hd : opcodeOf i = 8#4
    · rw [if_pos hd]
      exact ⟨inFlight_issue i _ s, stageOfCommand_fin i, hw, nofun⟩
    · have hstage : stageOfCommand i .sum1 = true := by
        cases i with
        | init => exact absurd rfl hinit
        | setd _ => exact absurd rfl hd
        | _ => rfl
      rw [if_neg hd]
      exact ⟨inFlight_issue i _ s, hstage, hw, fun _ => facts.sumLen_pos hinit hd⟩
  | illegal _ hs => exact absurd hs hbusy
  | waits => exact hi hbusy
  | calibrated _ hs =>
    have hi := hi (by rw [hs]; nofun)
    exact ⟨hi.latched, stageOfCommand_fin i, hi.operandOk, nofun⟩
  | sums v hs _ _ hl =>
    have hi := hi (ne_idle_of_summing hs)
    exact ⟨hi.latched, hi.stageOk, hi.operandOk, fun _ => (toNat_idx_succ hl (facts.sumLen_le i)).trans_lt hl⟩
  | sumEnds v hs =>
    have hi := hi (ne_idle_of_summing hs)
    exact ⟨hi.latched, stageOfCommand_fin i, hi.operandOk, nofun⟩
  | firstSumEnds v hs hpowr =>
    subst hpowr
    have hi := hi (by rw [hs]; nofun)
    exact ⟨hi.latched, rfl, rfl, fun _ => facts.spc_pos⟩
  | completes | programs => exact absurd rfl hbusy

theorem Turn.ready (h : Turn s t) (hs : Ready s) : Ready t := by
  refine ⟨h.keepsUnits.slotsReady hs.slots, fun hbusy => ?_⟩
  cases h with
  | idles => exact hs.flight hbusy
  | refuses _ hidle => exact absurd hidle hbusy
  | issues i hidle h => exact ⟨i, h.flying hs.slots.cfgOk (absurd hidle) hbusy⟩
  | continues i hb hf h =>
    obtain ⟨j, hj⟩ := hs.flight hb
    obtain rfl : i = j := Option.some.inj (hf.symm.trans hj.latched)
    exact ⟨i, h.flying hs.slots.cfgOk (fun _ => hj) hbusy⟩

/-- An event keeps the block ready if it keeps the slots so. -/
theorem KeepsSequencer.ready (h : KeepsSequencer s t) (hs : Ready s) (ht : SlotsReady t) : Ready t :=
  ⟨ht, fun hbusy => (hs.flight (h.stage ▸ hbusy)).imp fun _ => h.flying⟩

end

/-! ## The steps between two edges -/

section
variable {o : Offer} {s t : State}

theorem Ready.takeOffer_goes_on (h : Ready s) (ho : betweenEdges o = true) : ∃ t, takeOffer o s = .next t := by
  cases o with
  | issue w => exact issueWord_goes_on w s
  | seq => exact h.seqStep_goes_on
  | conv v => exact conv_goes_on v s h.slots.sbOk h.slots.wpOk
  | calDone | tick => exact ⟨_, rfl⟩
  | refEdge | dlyEdge | rst | clock _ _ => cases ho

theorem Ready.takeOffer (h : Ready s) (ho : betweenEdges o = true) (ht : takeOffer o s = .next t) : Ready t := by
  cases o with
  | issue w => exact (Turn.of_issueWord ht).ready h
  | seq => exact (Turn.of_seqStep ht).ready h
  | calDone => cases ht; exact (KeepsSequencer.of_calDone s).ready h h.slots.calDone
  | conv v => exact (KeepsSequencer.of_conv ht).ready h (h.slots.conv ht)
  | tick => cases ht; exact (KeepsSequencer.of_tick s).ready h h.slots.tick
  | refEdge | dlyEdge | rst | clock _ _ => cases ho

end

end Sys2Proof.Machine
end

section
/-! SUPPORT. A whole measurement (41_phase_capture.md R75): between its edges only the ticks reach the capture, and the
delayed edge stores their number. -/

namespace Sys2Proof.Machine

/-! ## Between the edges -/

/-- The capture after `n` ticks: the count is `n` further if the timer runs, and the history, the cursor and the enable
are the same. -/
structure TicksOnly (n : Nat) (s t : State) : Prop where
  cfg : t.cfg = s.cfg
  ph : t.ph = s.ph
  pcur : t.pcur = s.pcur
  ten : t.ten = s.ten
  tcnt : t.tcnt = if s.ten then s.tcnt + BitVec.ofNat 16 n else s.tcnt

section
variable {s t u : State}

theorem TicksOnly.of_same (hcfg : t.cfg = s.cfg) (hph : t.ph = s.ph) (hpcur : t.pcur = s.pcur) (hten : t.ten = s.ten)
    (htcnt : t.tcnt = s.tcnt) : TicksOnly 0 s t :=
  ⟨hcfg, hph, hpcur, hten, by simp [htcnt]⟩

theorem TicksOnly.trans {m n : Nat} (h : TicksOnly m s t) (k : TicksOnly n t u) : TicksOnly (m + n) s u where
  cfg := k.cfg.trans h.cfg
  ph := k.ph.trans h.ph
  pcur := k.pcur.trans h.pcur
  ten := k.ten.trans h.ten
  tcnt := by
    rw [k.tcnt, h.ten, h.tcnt, BitVec.ofNat_add]
    split
    · exact BitVec.add_assoc _ _ _
    · rfl

theorem KeepsUnits.ticksOnly (h : KeepsUnits s t) : TicksOnly 0 s t := .of_same h.cfg h.ph h.pcur h.ten h.tcnt

theorem ticksOnly_tick (s : State) : TicksOnly 1 s (tick s) :=
  ⟨tick_cfg s, tick_ph s, tick_pcur s, tick_ten s, tick_tcnt s⟩

theorem takeOffer_ticksOnly {o : Offer} (ho : betweenEdges o = true) (h : takeOffer o s = .next t) :
    TicksOnly ([o].count .tick) s t ∧ t.offers = s.offers := by
  cases o with
  | issue w =>
    have units := (Turn.of_issueWord h).keepsUnits
    exact ⟨units.ticksOnly, units.offers⟩
  | seq =>
    have units := (Turn.of_seqStep h).keepsUnits
    exact ⟨units.ticksOnly, units.offers⟩
  | calDone => cases h; exact ⟨.of_same (by simp) (by simp) (by simp) (by simp) (by simp), calDone_offers s⟩
  | conv v =>
    obtain ⟨-, rfl⟩ | ⟨-, -, rfl⟩ := conv_eq_next h
    all_goals exact ⟨.of_same rfl rfl rfl rfl rfl, rfl⟩
  | tick => cases h; exact ⟨ticksOnly_tick s, tick_offers s⟩
  | refEdge | dlyEdge | rst | clock _ _ => cases ho

/-- A run through the offers between two edges. -/
theorem runSteps_between {mid os : List Offer} (hr : Ready s) (hmid : mid.all betweenEdges = true)
    (ho : s.offers = mid ++ os) :
    ∃ t, runSteps mid.length s = .next t ∧ Ready t ∧ t.offers = os ∧ TicksOnly (mid.count .tick) s t := by
  induction mid generalizing s with
  | nil => exact ⟨s, rfl, hr, ho, .of_same rfl rfl rfl rfl rfl⟩
  | cons o mid ih =>
    obtain ⟨hb, hmid⟩ := Bool.and_eq_true_iff.mp (List.all_cons.symm.trans hmid)
    have hrest : Ready { s with offers := mid ++ os } := (KeepsSequencer.of_offers s _).ready hr { hr.slots with }
    obtain ⟨t, ht⟩ := hrest.takeOffer_goes_on hb
    have hstep : step s = .next t := (step_of_offer hr.slots.cfgOk ho).trans ht
    obtain ⟨hticks, hoffers⟩ := takeOffer_ticksOnly hb ht
    obtain ⟨u, hrun, hu, huo, hmore⟩ := ih (hrest.takeOffer hb ht) hmid hoffers
    refine ⟨u, ?_, hu, huo, ?_⟩
    · rw [List.length_cons, runSteps_succ, hstep, andThen_next, hrun]
    · have hall : TicksOnly _ s u := { hticks.trans hmore with }
      rwa [← List.count_append] at hall

/-- The same after a reference edge, which starts the count at 0 (R72). -/
theorem runSteps_from_refEdge {mid os : List Offer} (hr : Ready s) (hmid : mid.all betweenEdges = true)
    (ho : s.offers = .refEdge :: (mid ++ os)) :
    ∃ t, runSteps (mid.length + 1) s = .next t ∧ SlotsReady t ∧ t.offers = os ∧ t.cfg = s.cfg ∧ t.ph = s.ph ∧
      t.pcur = s.pcur ∧ t.ten = true ∧ t.tcnt = BitVec.ofNat 16 (mid.count .tick) := by
  let timing : State := refEdge { s with offers := mid ++ os }
  have hstep : step s = .next timing := refEdgeRestartsTheTimer s _ hr.slots.cfgOk ho
  have hready : Ready timing := ((KeepsSequencer.of_offers s _).trans (.of_refEdge _)).ready hr { hr.slots with }
  obtain ⟨t, hrun, ht, hto, hticks⟩ := runSteps_between hready hmid rfl
  have htcnt : t.tcnt = BitVec.ofNat 16 (mid.count .tick) := hticks.tcnt.trans (BitVec.zero_add _)
  refine ⟨t, ?_, ht.slots, hto, hticks.cfg, hticks.ph, hticks.pcur, hticks.ten, htcnt⟩
  rw [runSteps_succ, hstep, andThen_next, hrun]

end

/-- One step more at the end of a run. -/
theorem runSteps_succ_last {k : Nat} {s t u : State} (hrun : runSteps k s = .next t) (h : step t = .next u) :
    runSteps (k + 1) s = .next u := by
  rw [runSteps_add k 1, hrun, andThen_next, runSteps_succ, h, andThen_next, runSteps_zero]

/-! ## The edge that ends it -/

/-- The cursor stays below N, so it does not lose a bit (10_state.md R22). -/
theorem toNat_next_cursor {c : Config} (h : AdmittedFacts c) (p : Nat) :
    (BitVec.ofNat 16 ((p + 1) % c.n)).toNat = (p + 1) % c.n :=
  Nat.mod_eq_of_lt ((Nat.mod_lt _ h.n_pos).trans_le h.n_le)

/-- Settles O33: the run up to the second edge has counted the ticks, or, with the timer stopped, nothing; the second
edge is the one step that O30 and O31 describe. -/
theorem measurementCountsTheTicks : Obligations.MeasurementCountsTheTicks := by
  intro s mid os hinv hmid
  have hready := hinv.ready
  refine ⟨?measured, ?restarted, ?ignored⟩
  case measured =>
    intro ho
    obtain ⟨t, hrun, hslots, hto, hcfg, hph, hpcur, hten, htcnt⟩ := runSteps_from_refEdge hready hmid ho
    obtain ⟨u, hstep, hu, hsame, hother⟩ :=
      (dlyEdgeCapturesAndStops t os hslots.cfgOk hslots.phOk hslots.pcurOk hto).1 hten
    rw [hpcur] at hsame hother
    rw [hph] at hother
    rw [htcnt] at hsame
    refine ⟨u, runSteps_succ_last hrun hstep, by rw [hu], by rw [hu], ?_, hsame, hother⟩
    rw [hu, hpcur, hcfg]
    exact toNat_next_cursor (admitted_facts hinv.cfgOk) _
  case restarted =>
    intro ho
    obtain ⟨t, hrun, hslots, hto, -, hph, hpcur, -⟩ := runSteps_from_refEdge hready hmid ho
    exact ⟨_, runSteps_succ_last hrun (refEdgeRestartsTheTimer t os hslots.cfgOk hto), hph, hpcur, rfl, rfl⟩
  case ignored =>
    intro hidle ho
    obtain ⟨t, hrun, ht, hto, hticks⟩ := runSteps_between hready hmid ho
    have hten : t.ten = false := hticks.ten.trans hidle
    have htcnt : t.tcnt = s.tcnt := by rw [hticks.tcnt, hidle, if_neg Bool.false_ne_true]
    have hstep := (dlyEdgeCapturesAndStops t os ht.slots.cfgOk ht.slots.phOk ht.slots.pcurOk hto).2 hten
    exact ⟨_, runSteps_succ_last hrun hstep, hticks.ph, hticks.pcur, htcnt, hten⟩

end Sys2Proof.Machine
end

section
/-! SUPPORT. The scale constants (42_measurement.md R87), and the whole commands VOLT, CURR, POWR and PHMS (R89 to
R92). -/

namespace Sys2Proof.Machine

/-- Settles O60: by definition the quotients of the configuration; REFCFG's are computed. -/
theorem scaleConstantsAreTheQuotients : Obligations.ScaleConstantsAreTheQuotients :=
  ⟨fun _ => ⟨rfl, rfl⟩, by decide⟩

/-! ## One sum -/

/-- Settles O23: PHMS is a measuring command that adds up the slots of the delay history. -/
theorem phmsConvertsTheHistoryMean : Obligations.PhmsConvertsTheHistoryMean := by
  intro s ha hph hs sum v
  have hsum : SlotsAddUp .phms (issue 7#4 0#16 .sum1 { s with offers := [] }) (delaySum s.ph) :=
    slotsAddUp_history (s := issue 7#4 0#16 .sum1 { s with offers := [] }) ha hph (.inr rfl)
  have hvalue : measuredValue .phms (summedUp .phms sum s) = v :=
    congrArg (f32Div · s.cfg.msConversionFactor) (avg_ofNat ((admitted_facts ha).delaySum_lt s.ph) s.cfg.n)
  rw [← hvalue]
  exact runSteps_measuring (i := .phms) ha hs rfl rfl nofun rfl hsum

/-- Settles O21: both are measuring commands that add up the slots of their own channel. -/
theorem voltAndCurrScaleTheMean : Obligations.VoltAndCurrScaleTheMean := by
  intro s i ch k ha hsb hs hrow sum v
  have facts := admitted_facts ha
  have havg : avg (BitVec.ofNat 32 sum) s.cfg.spc = _ := avg_ofNat (facts.channelSum_lt s.sb ch) s.cfg.spc
  have hvalue : measuredValue i (summedUp i sum s) = v := by
    obtain ⟨rfl, rfl, rfl⟩ | ⟨rfl, rfl, rfl⟩ := hrow <;> exact congrArg (f32Mul · _) havg
  have hsum : SlotsAddUp i (issue (opcodeOf i) (immOf i) .sum1 { s with offers := [] }) (channelSum s.cfg s.sb ch) := by
    obtain ⟨rfl, rfl, -⟩ | ⟨rfl, rfl, -⟩ := hrow
    · exact slotsAddUp_channel (s := issue 4#4 0#16 .sum1 _) ha hsb facts.voltage_lt rfl fun _ => rfl
    · exact slotsAddUp_channel (s := issue 5#4 0#16 .sum1 _) ha hsb facts.current_lt rfl fun _ => rfl
  rw [← hvalue]
  obtain ⟨rfl, rfl, -⟩ | ⟨rfl, rfl, -⟩ := hrow <;> exact runSteps_measuring ha hs rfl rfl nofun rfl hsum

/-! ## POWR -/

/-- POWR at the start of its second loop, with the voltage of the sum `vsum` in FT0 (R91). -/
def powrHalfway (vsum : Nat) (s : State) : State :=
  toSum2 (BitVec.ofNat 32 vsum) (issue 6#4 0#16 .sum1 { s with offers := [] })

section
variable {s : State} (ha : admitted s.cfg = true) (hsb : s.sb.wf (bufLen s.cfg) = true)
include ha hsb

theorem runSteps_powr_firstLoop :
    runSteps s.cfg.spc (issue 6#4 0#16 .sum1 { s with offers := [] }) =
      .next (powrHalfway (channelSum s.cfg s.sb s.cfg.voltageChannel s.cfg.spc) s) := by
  have facts := admitted_facts ha
  have hsum := slotsAddUp_channel (i := .powr) (s := issue 6#4 0#16 .sum1 { s with offers := [] }) ha hsb
    facts.voltage_lt rfl fun _ => rfl
  exact runSteps_loop (i := .powr) (s := issue 6#4 0#16 .sum1 { s with offers := [] }) ha rfl rfl rfl rfl hsum
    facts.spc_pos

theorem runSteps_powr_secondLoop (vsum : Nat) :
    runSteps s.cfg.spc (powrHalfway vsum s) =
      .next (toFin (BitVec.ofNat 32 (channelSum s.cfg s.sb s.cfg.currentChannel s.cfg.spc)) (powrHalfway vsum s)) := by
  have facts := admitted_facts ha
  have hsum := slotsAddUp_channel (i := .powr) (s := powrHalfway vsum s) ha hsb facts.current_lt rfl fun _ => rfl
  exact runSteps_loop (i := .powr) (s := powrHalfway vsum s) ha rfl rfl rfl rfl hsum facts.spc_pos

end

/-- Settles O22: the issue, a loop over each channel, and the step that multiplies. -/
theorem powrMultipliesVoltageAndCurrent : Obligations.PowrMultipliesVoltageAndCurrent := by
  intro s ha hsb hs vsum isum v i
  have facts := admitted_facts ha
  have hv : volts s.cfg (BitVec.ofNat 32 vsum) = v :=
    congrArg (f32Mul · _) (avg_ofNat (facts.channelSum_lt s.sb s.cfg.voltageChannel) s.cfg.spc)
  have hi : amperes s.cfg (BitVec.ofNat 32 isum) = i :=
    congrArg (f32Mul · _) (avg_ofNat (facts.channelSum_lt s.sb s.cfg.currentChannel) s.cfg.spc)
  let last : State := toFin (BitVec.ofNat 32 isum) (powrHalfway vsum s)
  have hissue : step { s with offers := [.issue (encode .powr)] } =
      .next (issue 6#4 0#16 .sum1 { s with offers := [] }) :=
    step_issues (i := .powr) (s := { s with offers := [.issue (encode .powr)] }) ha hs rfl rfl nofun
  have hfin : step last = .next (complete (measuredValue .powr last) last) :=
    (step_of_busy (s := last) ha rfl nofun rfl).trans (exec_fin_of_measuring rfl rfl)
  rw [show 2 * s.cfg.spc + 2 = s.cfg.spc + (s.cfg.spc + 1) + 1 by omega, runSteps_succ, hissue, andThen_next,
    runSteps_add, runSteps_powr_firstLoop ha hsb, andThen_next, runSteps_add, runSteps_powr_secondLoop ha hsb,
    andThen_next, runSteps_succ, hfin, ← hi, ← hv]
  simp only [andThen_next, runSteps_zero, complete, hs]
  rfl

end Sys2Proof.Machine
end

section
/-! SUPPORT. The results of the measuring commands (42_measurement.md R88, R93, R96): their range, and that they follow
the sum. -/

namespace Sys2Proof.Machine

/-! ## The average is at most 65535.0 -/

/-- Refutes O56: 257 slots of 65535 sum to 16842495, which converts to 16842496 (assumption 24). -/
theorem not_averageIsAtMost65535AtEverySize : ¬ Obligations.AverageIsAtMost65535AtEverySize := by
  intro h
  exact absurd (h 16842495#32 257 (by decide) (by decide) (by decide)) (by decide)

/-- Settles O55: the sum of 256 slots is below 2^24, and 65535.0 is the bound of each slot. -/
theorem averageIsAtMost65535 : Obligations.AverageIsAtMost65535 := by
  intro sum n hn hn' hsum
  have hnonneg := (boundedBy_avg sum hn (by omega)).toNonnegFinite
  have hle := (averageLiesBetweenItsBounds 0 65535 n sum hn (by omega) (by omega) (by omega) (by omega) (by norm_num)).2
  have hbound : f32OfU32 65535 = 0x477FFF00#32 := by decide
  exact ⟨hnonneg.finite, hnonneg.sign, hbound ▸ hle⟩

/-! ## Every measured value is bounded -/

/-- Up to one rounding of the sum, the average of slots below 2^16 is at most 2^16 (assumption 24). -/
theorem boundedBy_avg_of_slots {sum : Word} {n : Nat} (hn : 1 ≤ n) (hn' : n ≤ 65536) (hsum : sum.toNat ≤ n * 65535) :
    BoundedBy 165 (avg sum n) := by
  obtain ⟨mag, hmag, hlt⟩ := exists_magUnits_eq 165 (m := n) (by omega)
  have hinf : mag < f32InfMag := hlt.trans (by norm_num [f32InfMag])
  have hle : roundUnits (sum.toNat * 2 ^ 149) 1 ≤ mag := by
    refine roundUnits_le Nat.one_pos hinf.le ?_
    rw [hmag]
    omega
  have hunits : f32Units (f32OfU32 n) = n * 2 ^ 149 := f32Units_ofU32 (by omega)
  refine .of_div (nonnegFinite_pack_round (hle.trans_lt hinf)) (nonnegFinite_ofU32 (by omega)) (by rw [hunits]; omega)
    (by norm_num) ?_
  calc f32Units (f32OfU32 sum.toNat) * 2 ^ 149 = magUnits (roundUnits (sum.toNat * 2 ^ 149) 1) * 2 ^ 149 := by
        rw [f32OfU32, f32Units_pack_round]
    _ ≤ magUnits mag * 2 ^ 149 := Nat.mul_le_mul_right _ (magUnits_le_iff.mpr hle)
    _ = 2 ^ 165 * f32Units (f32OfU32 n) := by rw [hmag, hunits]; ring

theorem BoundedBy.mono {p q : Nat} {a : F32} (h : BoundedBy p a) (hpq : p ≤ q) : BoundedBy q a :=
  ⟨h.toNonnegFinite, h.units_le.trans (Nat.pow_le_pow_right Nat.two_pos hpq)⟩

/-- A scale factor is at least 2^-32 (00_scope.md R6). -/
theorem le_units_of_scaleOk {a : F32} (h : scaleOk a = true) : 2 ^ 117 ≤ f32Units a := by
  have hmin : f32Int scaleMin ≤ f32Int a :=
    of_decide_eq_true (Bool.and_eq_true_iff.mp (Bool.and_eq_true_iff.mp h).1).2
  have hlow : f32Int scaleMin = 2 ^ 117 := by decide
  rw [hlow, f32Int_of_pos (boundedBy_of_scaleOk h).sign] at hmin
  exact_mod_cast hmin

section
variable {c : Config} {sum : Word}

theorem AdmittedFacts.boundedBy_channelAvg (h : AdmittedFacts c) (hsum : sum.toNat ≤ c.spc * 65535) :
    BoundedBy 165 (avg sum c.spc) :=
  boundedBy_avg_of_slots h.spc_pos (h.sumLen_le .volt) hsum

theorem AdmittedFacts.boundedBy_historyAvg (h : AdmittedFacts c) (hsum : sum.toNat ≤ c.n * 65535) :
    BoundedBy 165 (avg sum c.n) :=
  boundedBy_avg_of_slots h.n_pos h.n_le hsum

theorem AdmittedFacts.boundedBy_volts_of_slots (h : AdmittedFacts c) (hsum : sum.toNat ≤ c.spc * 65535) :
    BoundedBy 197 (volts c sum) :=
  (h.boundedBy_channelAvg hsum).mul (boundedBy_of_scaleOk h.kv_ok) rfl (by norm_num)

theorem AdmittedFacts.boundedBy_amperes_of_slots (h : AdmittedFacts c) (hsum : sum.toNat ≤ c.spc * 65535) :
    BoundedBy 197 (amperes c sum) :=
  (h.boundedBy_channelAvg hsum).mul (boundedBy_of_scaleOk h.ki_ok) rfl (by norm_num)

/-- The delay in milliseconds (R92). -/
theorem AdmittedFacts.boundedBy_milliseconds (h : AdmittedFacts c) (hsum : sum.toNat ≤ c.n * 65535) :
    BoundedBy 197 (f32Div (avg sum c.n) c.msConversionFactor) := by
  have havg := h.boundedBy_historyAvg hsum
  have hfactor := le_units_of_scaleOk h.factor_scale
  refine .of_div havg.toNonnegFinite (boundedBy_of_scaleOk h.factor_scale).toNonnegFinite (by omega) (by norm_num) ?_
  calc f32Units (avg sum c.n) * 2 ^ 149 ≤ 2 ^ 165 * 2 ^ 149 := Nat.mul_le_mul_right _ havg.units_le
    _ = 2 ^ 197 * 2 ^ 117 := by norm_num
    _ ≤ 2 ^ 197 * f32Units c.msConversionFactor := Nat.mul_le_mul_left _ hfactor

end

/-- The greatest bound is that of POWR, a product of a voltage and a current of at most 2^48 (R96). -/
theorem boundedBy_measuredValue {i : Instr} {s : State} (ha : admitted s.cfg = true) (hi : InFlightOk i s)
    (hs : s.stage = .fin) (hm : measuring i = true) : BoundedBy 245 (measuredValue i s) := by
  have facts := admitted_facts ha
  have hacc : s.acc.toNat ≤ sumLen s.cfg i * 65535 := by
    have h := hi.accOk
    rwa [hs] at h
  cases i with
  | init | setd _ | adji => cases hm
  | rdavg _ => exact (facts.boundedBy_channelAvg hacc).mono (by norm_num)
  | phavg => exact (facts.boundedBy_historyAvg hacc).mono (by norm_num)
  | volt => exact (facts.boundedBy_volts_of_slots hacc).mono (by norm_num)
  | curr => exact (facts.boundedBy_amperes_of_slots hacc).mono (by norm_num)
  | phms => exact (facts.boundedBy_milliseconds hacc).mono (by norm_num)
  | powr =>
    obtain ⟨vsum, hvsum, hft0⟩ := hi.ft0Ok rfl (by rw [hs]; nofun)
    rw [measuredValue, hft0]
    exact (facts.boundedBy_volts_of_slots hvsum).mul (facts.boundedBy_amperes_of_slots hacc) rfl (by norm_num)

/-- Settles O54: the command completes with its measured value, from a sum within the invariant's bound. -/
theorem measuredValuesAreFinite : Obligations.MeasuredValuesAreFinite := by
  intro s t i hinv hs hf hinit hsetd hadji h
  have hm : measuring i = true := by
    cases i with
    | init => exact absurd rfl hinit
    | setd d => exact absurd rfl (hsetd d)
    | adji => exact absurd rfl hadji
    | _ => rfl
  obtain ⟨j, hj⟩ := hinv.flightOk (by rw [hs]; nofun)
  obtain rfl : i = j := Option.some.inj (hf.symm.trans hj.latched)
  have hvalue := boundedBy_measuredValue hinv.cfgOk hj hs hm
  rw [exec_fin_of_measuring hm hs] at h
  cases h
  exact ⟨hvalue.finite, hvalue.sign, hvalue.units_le.trans_eq (pow_add 2 96 149)⟩

/-! ## Scaling is monotone -/

theorem f32Units_ofU32_mono {m n : Nat} (h : m ≤ n) : f32Units (f32OfU32 m) ≤ f32Units (f32OfU32 n) := by
  rw [f32OfU32, f32OfU32, f32Units_pack_round, f32Units_pack_round, magUnits_le_iff]
  exact roundUnits_mono Nat.one_pos Nat.one_pos (by omega)

theorem f32Units_div_mono {a b d : F32} (ha : NonnegFinite a) (hb : NonnegFinite b) (hd : NonnegFinite d)
    (hpos : 0 < f32Units d) (h : f32Units a ≤ f32Units b) : f32Units (f32Div a d) ≤ f32Units (f32Div b d) := by
  rw [f32Div_of_finite ha.finite hd.finite hpos.ne', f32Div_of_finite hb.finite hd.finite hpos.ne',
    f32Units_pack_round, f32Units_pack_round, magUnits_le_iff]
  exact roundUnits_mono hpos hpos (by gcongr)

theorem f32Units_mul_mono {a b k : F32} (ha : NonnegFinite a) (hb : NonnegFinite b) (hk : NonnegFinite k)
    (h : f32Units a ≤ f32Units b) : f32Units (f32Mul a k) ≤ f32Units (f32Mul b k) := by
  rw [f32Mul_of_finite ha.finite hk.finite, f32Mul_of_finite hb.finite hk.finite, f32Units_pack_round,
    f32Units_pack_round, magUnits_le_iff]
  exact roundUnits_mono (by positivity) (by positivity) (by gcongr)

/-- No number of 32 bits converts to an infinity (R83). -/
theorem boundedBy_ofU32 {n : Nat} (hn : n < 2 ^ 32) : BoundedBy 181 (f32OfU32 n) :=
  .of_round Nat.one_pos (by norm_num) (by omega)

theorem f32Units_avg_mono {a b : Word} {n : Nat} (hn : 1 ≤ n) (hn' : n < 2 ^ 24) (h : a.toNat ≤ b.toNat) :
    f32Units (avg a n) ≤ f32Units (avg b n) :=
  f32Units_div_mono (boundedBy_ofU32 a.isLt).toNonnegFinite (boundedBy_ofU32 b.isLt).toNonnegFinite
    (nonnegFinite_ofU32 hn') (by rw [f32Units_ofU32 hn']; positivity) (f32Units_ofU32_mono h)

/-- An average times a scale factor does not decrease with the sum (R93). -/
theorem f32Le_scaled_avg {a b : Word} {n : Nat} {k : F32} (hn : 1 ≤ n) (hn' : n < 2 ^ 24) (hk : scaleOk k = true)
    (h : a.toNat ≤ b.toNat) : f32Le (f32Mul (avg a n) k) (f32Mul (avg b n) k) = true := by
  have hk := boundedBy_of_scaleOk hk
  have ha := boundedBy_avg a hn hn'
  have hb := boundedBy_avg b hn hn'
  have hak : BoundedBy 213 (f32Mul (avg a n) k) := ha.mul hk rfl (by norm_num)
  have hbk : BoundedBy 213 (f32Mul (avg b n) k) := hb.mul hk rfl (by norm_num)
  exact f32Le_of_units_le hak.toNonnegFinite hbk.toNonnegFinite
    (f32Units_mul_mono ha.toNonnegFinite hb.toNonnegFinite hk.toNonnegFinite (f32Units_avg_mono hn hn' h))

/-- The average of the sum 0 is +0, and so is its multiple. -/
theorem scaled_avg_zero {n : Nat} {k : F32} (hn : 1 ≤ n) (hk : NonnegFinite k) : f32Mul (avg 0#32 n) k = 0#32 := by
  have hzero : f32Finite 0#32 = true ∧ f32Sign 0#32 = false ∧ f32Units 0#32 = 0 := by decide
  obtain ⟨hfinite, hsign, hunits⟩ := hzero
  have havg : avg 0#32 n = 0#32 := (f32Div_zero_ofU32 hn).trans (by decide)
  have hround : roundUnits 0 (2 ^ 149) = 0 := by decide
  rw [havg, f32Mul_of_finite hfinite hk.finite, hsign, hk.sign, hunits, Nat.zero_mul, hround]
  rfl

/-! ## The full-scale count -/

/-- Dividing a value by a power of two is exact, as long as the quotient is above the subnormal range. -/
theorem magUnits_roundUnits_mul_pow {mag k : Nat} (hinf : roundUnits (magUnits mag * 2 ^ 149) (2 ^ k) < f32InfMag)
    (hlow : 2 ^ 117 ≤ magUnits (roundUnits (magUnits mag * 2 ^ 149) (2 ^ k))) :
    magUnits (roundUnits (magUnits mag * 2 ^ 149) (2 ^ k)) * 2 ^ k = magUnits mag * 2 ^ 149 := by
  obtain ⟨j, m, rfl, hm, hj⟩ := exists_join mag
  have hpos : 0 < 2 ^ k := by positivity
  rw [magUnits_join j m hm.le hj, Nat.mul_assoc, ← pow_add] at *
  obtain hk | hk := Nat.lt_or_ge (j + 149) k
  · -- a quotient below 2^24 units
    obtain ⟨top, htop, htop_lt⟩ := exists_magUnits_eq 24 (m := 1) (by norm_num)
    have hle : roundUnits (m * 2 ^ (j + 149)) (2 ^ k) ≤ top := by
      refine roundUnits_le hpos (htop_lt.le.trans (by norm_num [f32InfMag])) ?_
      rw [htop, Nat.one_mul]
      exact Nat.mul_le_mul hm.le (Nat.pow_le_pow_right Nat.two_pos hk.le)
    have := magUnits_le_iff.mpr hle
    omega
  · obtain ⟨mag', hmag, -⟩ := exists_magUnits_eq (j + 149 - k) hm
    have hquotient : m * 2 ^ (j + 149) = magUnits mag' * 2 ^ k := by
      rw [hmag, Nat.mul_assoc, ← pow_add, Nat.sub_add_cancel hk]
    have hmag_le : mag' ≤ f32InfMag := by
      by_contra hgt
      have hge : f32InfMag ≤ roundUnits (m * 2 ^ (j + 149)) (2 ^ k) := by
        refine le_roundUnits hpos le_rfl ?_
        rw [hquotient]
        exact Nat.mul_le_mul_right _ (magUnits_le_iff.mpr (Nat.le_of_not_le hgt))
      exact absurd hinf hge.not_gt
    rw [hquotient, roundUnits_exact mag' (2 ^ k) hpos hmag_le]

/-- A count that is a power of two, times the quotient of a maximum by it, is the maximum (R93). -/
theorem f32Mul_div_of_pow_two {count full : F32} {k : Nat} (hcount : NonnegFinite count) (hfull : NonnegFinite full)
    (hpow : f32Units count = 2 ^ k) (hscale : scaleOk (f32Div full count) = true) :
    f32Mul count (f32Div full count) = full := by
  have hquotient := boundedBy_of_scaleOk hscale
  have hlow := le_units_of_scaleOk hscale
  have hne : f32Units count ≠ 0 := by rw [hpow]; positivity
  have hdiv : f32Div full count = f32Pack false (roundUnits (f32Units full * 2 ^ 149) (2 ^ k)) := by
    rw [f32Div_of_finite hfull.finite hcount.finite hne, hfull.sign, hcount.sign, hpow, Bool.false_xor]
  have hfinite := hquotient.finite
  rw [hdiv, f32Finite_pack_round] at hfinite
  rw [hdiv, f32Units_pack_round] at hlow
  have hexact : f32Units count * f32Units (f32Div full count) = magUnits (f32Mag full) * 2 ^ 149 := by
    rw [hpow, hdiv, f32Units_pack_round, Nat.mul_comm]
    exact magUnits_roundUnits_mul_pow hfinite hlow
  rw [f32Mul_of_finite hcount.finite hquotient.finite, hexact,
    roundUnits_exact _ _ (by positivity) ((f32Finite_iff full).mp hfull.finite).le, hcount.sign, hquotient.sign,
    Bool.false_xor, ← hfull.sign, f32Pack_eta]

/-- Settles O53: volts and amperes are averages times a scale factor, which is itself a quotient by the count. -/
theorem scalingIsMonotoneAndExactAtTheEnds : Obligations.ScalingIsMonotoneAndExactAtTheEnds := by
  intro c a b ha hab
  have facts := admitted_facts ha
  have hspc : c.spc < 2 ^ 24 := (facts.sumLen_le .volt).trans_lt (by norm_num)
  have hcount := nonnegFinite_of_finitePos facts.count_ok
  refine ⟨?volts, ?amperes, ?noVolts, ?noAmperes, fun ⟨k, hk⟩ => ⟨?fullVolts, ?fullAmperes⟩⟩
  case volts => exact f32Le_scaled_avg facts.spc_pos hspc facts.kv_ok hab
  case amperes => exact f32Le_scaled_avg facts.spc_pos hspc facts.ki_ok hab
  case noVolts => exact scaled_avg_zero facts.spc_pos (boundedBy_of_scaleOk facts.kv_ok).toNonnegFinite
  case noAmperes => exact scaled_avg_zero facts.spc_pos (boundedBy_of_scaleOk facts.ki_ok).toNonnegFinite
  case fullVolts =>
    exact f32Mul_div_of_pow_two hcount (nonnegFinite_of_finitePos facts.voltage_ok) hk facts.kv_ok
  case fullAmperes =>
    exact f32Mul_div_of_pow_two hcount (nonnegFinite_of_finitePos facts.current_ok) hk facts.ki_ok

end Sys2Proof.Machine
end

section
/-! SUPPORT. Correct rounding (42_measurement.md R82 to R84): the one rounding of each operation gives the nearest value,
ties to even. -/

namespace Sys2Proof.Machine

/-! ## The nearest magnitude -/

/-- `roundUnits_eq` where the result is finite, with the bounds of the quotient next to it (R82). -/
theorem roundUnits_eq_of_finite {n d : Nat} (hd : 0 < d) (hinf : roundUnits n d < f32InfMag) :
    ∃ k m, roundUnits n d = k * 2 ^ 23 + m ∧ m = nearestEven n (d * 2 ^ k) ∧ m ≤ 2 ^ 24 ∧ (k = 0 ∨ 2 ^ 23 ≤ m) ∧
      n < 2 ^ 24 * (d * 2 ^ k) ∧ (k = 0 ∨ 2 ^ 23 * (d * 2 ^ k) ≤ n) ∧
      magUnits (roundUnits n d) * d = m * (d * 2 ^ k) := by
  obtain ⟨k, m, hr, hm, hm_le, hk, hlt, hge⟩ := roundUnits_eq n d hd
  have hr : roundUnits n d = k * 2 ^ 23 + m := by
    rw [hr] at hinf
    exact hr.trans (min_eq_left (by omega))
  exact ⟨k, m, hr, hm, hm_le, hk, hlt, hge, by rw [hr, magUnits_join k m hm_le hk]; ring⟩

section
variable {n d mag : Nat} (hd : 0 < d) (hinf : roundUnits n d < f32InfMag)
include hd hinf

/-- Towards a greater magnitude: the quotient is not on that side, or at most half way to it, and half way only from an
even magnitude. -/
theorem roundUnits_nearest_above (hmag : roundUnits n d < mag) :
    n ≤ magUnits (roundUnits n d) * d ∨
      2 * n ≤ magUnits (roundUnits n d) * d + magUnits mag * d ∧
      (2 * n = magUnits (roundUnits n d) * d + magUnits mag * d → roundUnits n d % 2 = 0) := by
  obtain ⟨k, m, hr, hm, hm_le, hk, hlt, -, hvalue⟩ := roundUnits_eq_of_finite hd hinf
  obtain ⟨hhalf, -, htie, -⟩ := nearestEven_spec n (d * 2 ^ k) (by positivity)
  rw [← hm] at hhalf htie
  rw [hvalue]
  obtain rfl | hm_lt := hm_le.eq_or_lt
  · exact .inl hlt.le
  · have hnext : (m + 1) * (d * 2 ^ k) ≤ magUnits mag * d := by
      have hstep : magUnits (k * 2 ^ 23 + (m + 1)) ≤ magUnits mag := magUnits_le_iff.mpr (by omega)
      rw [magUnits_join k (m + 1) hm_lt (by omega)] at hstep
      calc (m + 1) * (d * 2 ^ k) = (m + 1) * 2 ^ k * d := by ring
        _ ≤ magUnits mag * d := Nat.mul_le_mul_right d hstep
    have hsum : (2 * m + 1) * (d * 2 ^ k) = m * (d * 2 ^ k) + (m + 1) * (d * 2 ^ k) := by ring
    exact .inr ⟨by omega, fun h => by have := htie (by omega); omega⟩

/-- The same towards a smaller magnitude; at the bottom of a binade the next one is nearer, but the quotient is not on
that side. -/
theorem roundUnits_nearest_below (hmag : mag < roundUnits n d) :
    magUnits (roundUnits n d) * d ≤ n ∨
      magUnits mag * d + magUnits (roundUnits n d) * d ≤ 2 * n ∧
      (magUnits mag * d + magUnits (roundUnits n d) * d = 2 * n → roundUnits n d % 2 = 0) := by
  obtain ⟨k, m, hr, hm, hm_le, hk, -, hge, hvalue⟩ := roundUnits_eq_of_finite hd hinf
  obtain ⟨-, hhalf, -, htie⟩ := nearestEven_spec n (d * 2 ^ k) (by positivity)
  rw [← hm] at hhalf htie
  rw [hvalue]
  by_cases hbottom : k ≠ 0 ∧ m = 2 ^ 23
  · obtain ⟨hne, rfl⟩ := hbottom
    exact .inl (hge.resolve_left hne)
  · obtain ⟨j, rfl⟩ : ∃ j, m = j + 1 := Nat.exists_eq_succ_of_ne_zero (by omega)
    have hprev : magUnits mag * d ≤ j * (d * 2 ^ k) := by
      have hstep : magUnits mag ≤ magUnits (k * 2 ^ 23 + j) := magUnits_le_iff.mpr (by omega)
      rw [magUnits_join k j (by omega) (by omega)] at hstep
      calc magUnits mag * d ≤ j * 2 ^ k * d := Nat.mul_le_mul_right d hstep
        _ = j * (d * 2 ^ k) := by ring
    have hsum : 2 * (j + 1) * (d * 2 ^ k) = j * (d * 2 ^ k) + (j + 1) * (d * 2 ^ k) + d * 2 ^ k := by ring
    exact .inr ⟨by omega, fun h => by have := htie (by omega); omega⟩

end

/-- No whole number of the size of a magnitude, of either sign, is nearer to a quotient than the rounded one, and a tie
is resolved to the even magnitude (R82). -/
theorem roundUnits_nearest {n d : Nat} (hd : 0 < d) (hinf : roundUnits n d < f32InfMag) {x : Int} {mag : Nat}
    (hx : x.natAbs = magUnits mag) :
    let r : Int := magUnits (roundUnits n d)
    (r * d - n).natAbs ≤ (x * d - n).natAbs ∧
      ((r * d - n).natAbs = (x * d - n).natAbs → x ≠ r → roundUnits n d % 2 = 0) := by
  intro r
  have hr : r * d = (magUnits (roundUnits n d) * d : Nat) := (Nat.cast_mul _ _).symm
  rw [hr]
  obtain hx_eq | hx_eq := Int.natAbs_eq x
  · have hxd : x * d = (magUnits mag * d : Nat) := by rw [hx_eq, hx, Nat.cast_mul]
    rw [hxd]
    obtain hlt | rfl | hgt := Nat.lt_trichotomy mag (roundUnits n d)
    · have hlt' := Nat.mul_lt_mul_of_pos_right (magUnits_strictMono hlt) hd
      have := roundUnits_nearest_below hd hinf hlt
      omega
    · exact ⟨le_rfl, fun _ hne => absurd (hx_eq.trans (congrArg _ hx)) hne⟩
    · have hgt' := Nat.mul_lt_mul_of_pos_right (magUnits_strictMono hgt) hd
      have := roundUnits_nearest_above hd hinf hgt
      omega
  · -- a value that is not positive is as far as 0 or farther
    have hxd : x * d = -(magUnits mag * d : Nat) := by rw [hx_eq, hx, Nat.cast_mul, Int.neg_mul]
    rw [hxd]
    obtain hzero | hpos := Nat.eq_zero_or_pos (roundUnits n d)
    · rw [hzero, magUnits_zero, Nat.zero_mul]
      exact ⟨by omega, fun _ _ => rfl⟩
    · have hpos' := Nat.mul_lt_mul_of_pos_right (magUnits_strictMono hpos) hd
      have := roundUnits_nearest_below hd hinf hpos
      rw [magUnits_zero, Nat.zero_mul] at this hpos'
      omega

/-! ## Signed values -/

/-- A sign that fits a value: either fits 0. -/
def FitsSign (sign : Bool) (x : Int) : Prop := if sign then x ≤ 0 else 0 ≤ x

theorem fitsSign_f32Int (a : F32) : FitsSign (f32Sign a) (f32Int a) := by
  cases h : f32Sign a <;> simp [FitsSign, f32Int, h]

theorem FitsSign.mul {s t : Bool} {x y : Int} (hx : FitsSign s x) (hy : FitsSign t y) : FitsSign (s ^^ t) (x * y) := by
  cases s <;> cases t
  · exact Int.mul_nonneg hx hy
  · exact Int.mul_nonpos_of_nonneg_of_nonpos hx hy
  · exact Int.mul_nonpos_of_nonpos_of_nonneg hx hy
  · exact Int.mul_nonneg_of_nonpos_of_nonpos hx hy

theorem f32Int_pack_round (sign : Bool) (n d : Nat) :
    f32Int (f32Pack sign (roundUnits n d)) =
      if sign then -(magUnits (roundUnits n d) : Int) else magUnits (roundUnits n d) := by
  rw [f32Int, f32Sign_pack_round, f32Units_pack_round]

/-- The sign bit does not count for the parity of a pattern. -/
theorem toNat_f32Pack_mod_two (sign : Bool) (mag : Nat) : (f32Pack sign mag).toNat % 2 = mag % 2 := by
  simp only [f32Pack, BitVec.toNat_ofNat]
  split <;> omega

/-- A rounded quotient with a sign that fits is the nearest value (R82). -/
theorem nearestTo_pack_round {sign : Bool} {num : Int} {den : Nat} (hden : 0 < den) (hsign : FitsSign sign num)
    (hfin : f32Finite (f32Pack sign (roundUnits num.natAbs den)) = true) :
    NearestTo (f32Pack sign (roundUnits num.natAbs den)) num den := by
  refine ⟨hfin, fun c _ => ?_⟩
  have hinf := (f32Finite_pack_round sign num.natAbs den).mp hfin
  rw [toNat_f32Pack_mod_two, f32Int_pack_round]
  cases sign with
  | false =>
    have hnum : (num.natAbs : Int) = num := Int.natAbs_of_nonneg hsign
    have h := roundUnits_nearest hden hinf (f32Int_natAbs c)
    rwa [hnum] at h
  | true =>
    have hnum : (num.natAbs : Int) = -num := Int.ofNat_natAbs_of_nonpos hsign
    have h := roundUnits_nearest hden hinf ((Int.natAbs_neg (f32Int c)).trans (f32Int_natAbs c))
    have hneg (x : Int) : (-x * den - num).natAbs = (x * den - -num).natAbs := by
      rw [show -x * den - num = -(x * den - -num) by ring, Int.natAbs_neg]
    rw [hnum] at h
    rw [if_pos rfl, ← neg_neg (f32Int c), hneg, hneg, ne_eq, neg_inj]
    exact h

/-- Settles O50: each operation on finite values is one rounding of its exact result. -/
theorem arithmeticIsCorrectlyRounded : Obligations.ArithmeticIsCorrectlyRounded := by
  intro a b ha hb
  have hsa := fitsSign_f32Int a
  have hsb := fitsSign_f32Int b
  refine ⟨fun hfin => ?mul, fun hfin hpos => ?div, fun hfin => ?sub⟩
  case mul =>
    rw [f32Mul_of_finite ha hb, ← f32Int_natAbs a, ← f32Int_natAbs b, ← Int.natAbs_mul] at hfin ⊢
    exact nearestTo_pack_round (by positivity) (hsa.mul hsb) hfin
  case div =>
    have hsign : f32Sign b = false := f32Sign_of_int_pos hpos
    have hunits : f32Units b = (f32Int b).toNat := by rw [f32Int_of_pos hsign, Int.toNat_natCast]
    have hden : 0 < (f32Int b).toNat := by omega
    have hnum : f32Units a * 2 ^ 149 = (f32Int a * 2 ^ 149).natAbs := by
      rw [Int.natAbs_mul, f32Int_natAbs]; rfl
    have hpow : FitsSign false (2 ^ 149) := by unfold FitsSign; norm_num
    rw [f32Div_of_finite ha hb (by omega), hsign, hunits, hnum] at hfin ⊢
    exact nearestTo_pack_round hden (hsa.mul hpow) hfin
  case sub =>
    rw [f32Sub_of_finite ha hb] at hfin ⊢
    by_cases hzero : f32Int a - f32Int b = 0
    · have hround : roundUnits (0 : Int).natAbs 1 = 0 := by decide
      rw [if_pos hzero, ← hround] at hfin ⊢
      rw [hzero]
      exact nearestTo_pack_round Nat.one_pos (by unfold FitsSign; split <;> rfl) hfin
    · rw [if_neg hzero] at hfin ⊢
      refine nearestTo_pack_round Nat.one_pos ?_ hfin
      by_cases hneg : f32Int a - f32Int b < 0
      · rw [decide_eq_true hneg]; exact hneg.le
      · rw [decide_eq_false hneg]; exact not_lt.mp hneg

/-! ## Conversion -/

/-- A whole number of at most 24 significant bits converts exactly (R83). -/
theorem f32Units_ofU32_mul_pow {m k : Nat} (hm : m < 2 ^ 24) (hn : m * 2 ^ k < 2 ^ 32) :
    f32Units (f32OfU32 (m * 2 ^ k)) = m * 2 ^ k * 2 ^ 149 := by
  obtain ⟨mag, hmag, -⟩ := exists_magUnits_eq (k + 149) hm
  rw [pow_add, ← Nat.mul_assoc] at hmag
  have hlt : magUnits mag < magUnits f32InfMag := by
    have hinf : (2 : Nat) ^ 181 < magUnits f32InfMag := by decide
    omega
  have hinf := magUnits_lt_iff.mp hlt
  rw [f32OfU32_of_lt hmag hinf, f32Units, f32Mag_pack _ _ (hinf.trans inf_lt), hmag]

/-- Settles O51: the conversion is one rounding of a whole number of units. -/
theorem integersConvertToTheNearest : Obligations.IntegersConvertToTheNearest := by
  intro n hn
  refine ⟨?nearest, f32Sign_ofU32 n, ?exact⟩
  case nearest =>
    have hnum : n * 2 ^ 149 = ((n : Int) * 2 ^ 149).natAbs := by rw [Int.natAbs_mul]; rfl
    have hfin := (boundedBy_ofU32 hn).finite
    rw [f32OfU32, hnum] at hfin ⊢
    exact nearestTo_pack_round Nat.one_pos (Int.mul_nonneg (Int.natCast_nonneg n) (by norm_num)) hfin
  case exact =>
    rintro m k rfl hm
    rw [f32Int_of_pos (f32Sign_ofU32 _), f32Units_ofU32_mul_pow hm hn]
    push_cast
    rfl

end Sys2Proof.Machine
end

section
/-! SUPPORT. The clamp and the map of the duty (43_actuation.md R99, R101, R102): the map of every current is a DutyCycle,
which the clamp keeps, and its values at the ends of the ramp. -/

namespace Sys2Proof.Machine

/-! ## The clamp -/

theorem clamp_of_neg {d : Int} (h : d < 0) : clamp d = 0 := by rw [clamp, if_pos h]

theorem clamp_of_gt {d : Int} (h : 1000 < d) : clamp d = 1000 := by
  have hmax : (dutyMax : Int) < d := h
  rw [clamp, if_neg (by omega), if_pos hmax, dutyMax]

/-- A DutyCycle is what it was after the clamp (R99). -/
theorem clamp_natCast {d : Nat} (h : d ≤ 1000) : clamp (d : Int) = d := by
  have hmax : ¬(dutyMax : Int) < d := by rw [dutyMax]; omega
  rw [clamp, if_neg (by omega), if_neg hmax, Int.toNat_natCast]

/-! ## The regions of the map -/

section
variable {c : Config} {i : F32}

theorem dutyMap_of_below (h : f32Lt i c.currentMin = true) : dutyMap c i = some 0 := by
  rw [dutyMap, if_pos h]

theorem dutyMap_of_above (hmin : f32Lt i c.currentMin = false) (hmax : f32Gt i c.currentMax = true) :
    dutyMap c i = some 1000 := by
  rw [dutyMap, if_neg (ne_true_of_eq_false hmin), if_pos hmax]
  rfl

theorem dutyMap_of_between (hmin : f32Lt i c.currentMin = false) (hmax : f32Gt i c.currentMax = false) :
    dutyMap c i = truncI32 (rampValue c i) := by
  rw [dutyMap, if_neg (ne_true_of_eq_false hmin), if_neg (ne_true_of_eq_false hmax)]

end

/-! ## The ramp stays below 1001 -/

/-- Some representable magnitude is at least a thousandfold and at most one part in 2000 above it: the product of a small
significand has 24 bits itself; that of a large one has up to 34, and rounding up its last ten weighs little. -/
theorem exists_magUnits_thousand (mag : Nat) :
    ∃ top, 1000 * magUnits mag ≤ magUnits top ∧ 2 * magUnits top ≤ 2001 * magUnits mag := by
  obtain ⟨k, m, rfl, hm, hk⟩ := exists_join mag
  rw [magUnits_join k m hm.le hk]
  simp only [← Nat.mul_assoc]
  obtain hsmall | hlarge := Nat.lt_or_ge m (2 ^ 14)
  · obtain ⟨top, htop, -⟩ := exists_magUnits_eq k (m := 1000 * m) (by omega)
    refine ⟨top, htop.ge, ?_⟩
    rw [htop, ← Nat.mul_assoc]
    exact Nat.mul_le_mul_right _ (by omega)
  · obtain ⟨top, htop, -⟩ := exists_magUnits_eq (10 + k) (m := 1000 * m / 2 ^ 10 + 1) (by omega)
    rw [pow_add, ← Nat.mul_assoc] at htop
    refine ⟨top, ?_, ?_⟩ <;> rw [htop]
    · exact Nat.mul_le_mul_right _ (by omega)
    · rw [← Nat.mul_assoc]
      exact Nat.mul_le_mul_right _ (by omega)

/-- The rounded product with 1000.0 exceeds the exact one by at most one part in 2000. -/
theorem f32Units_mul_thousand_le {x : F32} (hx : NonnegFinite x) :
    2 * f32Units (f32Mul x f32Thousand) ≤ 2001 * f32Units x := by
  obtain ⟨top, hge, hle⟩ := exists_magUnits_thousand (f32Mag x)
  have hfinite : f32Finite f32Thousand = true := by decide
  have hunits : f32Units f32Thousand = 1000 * 2 ^ 149 := by decide
  have hround : roundUnits (f32Units x * f32Units f32Thousand) (2 ^ 149) ≤ top := by
    obtain hinf | hinf := Nat.le_total top f32InfMag
    · refine roundUnits_le (by positivity) hinf ?_
      calc f32Units x * f32Units f32Thousand = 1000 * f32Units x * 2 ^ 149 := by rw [hunits]; ring
        _ ≤ magUnits top * 2 ^ 149 := Nat.mul_le_mul_right _ hge
    · exact (roundUnits_le_inf _ _).trans hinf
  rw [f32Mul_of_finite hx.finite hfinite, f32Units_pack_round]
  exact (Nat.mul_le_mul_left 2 (magUnits_le_iff.mpr hround)).trans hle

/-- A quotient of at most a representable value rounds to at most it. -/
theorem f32Div_le_of_le_mul {a b : F32} {mag : Nat} (ha : NonnegFinite a) (hb : NonnegFinite b) (hpos : 0 < f32Units b)
    (hmag : mag < f32InfMag) (h : f32Units a * 2 ^ 149 ≤ magUnits mag * f32Units b) :
    NonnegFinite (f32Div a b) ∧ f32Units (f32Div a b) ≤ magUnits mag := by
  have hround := roundUnits_le hpos hmag.le h
  rw [f32Div_of_finite ha.finite hb.finite hpos.ne', ha.sign, hb.sign, f32Units_pack_round]
  exact ⟨nonnegFinite_pack_round (hround.trans_lt hmag), magUnits_le_iff.mpr hround⟩

/-- Truncation discards the fraction (42_measurement.md R86). -/
theorem truncI32_of_lt {a : F32} (ha : NonnegFinite a) (h : f32Units a / 2 ^ 149 < 2 ^ 31) :
    truncI32 a = some ((f32Units a / 2 ^ 149 : Nat) : Int) := by
  rw [truncI32, not_nan_of_finite ha.finite, not_inf_of_finite ha.finite, decide_eq_false h.not_ge, ha.sign]
  rfl

/-- Between two bounds the ramp truncates to a DutyCycle: it is at most 1000.5, rounding included. -/
theorem exists_duty_ramp {lo hi i : F32} (hlo : NonnegFinite lo) (hhi : NonnegFinite hi) (hcur : BoundedBy 213 i)
    (hspan : f32Units lo < f32Units hi) (hmin : f32Units lo ≤ f32Units i) (hmax : f32Units i ≤ f32Units hi) :
    ∃ d : Nat, d ≤ 1000 ∧ truncI32 (f32Div (f32Mul (f32Sub i lo) f32Thousand) (f32Sub hi lo)) = some (d : Int) := by
  obtain ⟨hx, hxle⟩ := nonnegFinite_sub hcur.toNonnegFinite hlo hmin
  obtain ⟨hy, -⟩ := nonnegFinite_sub hhi hlo hspan.le
  have hxy := f32Units_sub_mono hhi hcur.toNonnegFinite hlo hmin hmax
  obtain ⟨hz, -⟩ := f32Mul_thousand ⟨hx, hxle.trans hcur.units_le⟩
  have hzle := f32Units_mul_thousand_le hx
  obtain ⟨mag, hmag, hmag_lt⟩ := exists_magUnits_eq 148 (m := 2001) (by norm_num)
  obtain ⟨hq, hqle⟩ := f32Div_le_of_le_mul (mag := mag) hz hy (f32Units_sub_pos hhi hlo hspan)
    (hmag_lt.trans (by decide)) (by rw [hmag]; omega)
  have hduty : f32Units (f32Div (f32Mul (f32Sub i lo) f32Thousand) (f32Sub hi lo)) / 2 ^ 149 ≤ 1000 := by omega
  exact ⟨_, hduty, truncI32_of_lt hq (by omega)⟩

/-! ## The map is a DutyCycle -/

theorem AdmittedFacts.span_pos {c : Config} (h : AdmittedFacts c) : f32Units c.currentMin < f32Units c.currentMax :=
  of_decide_eq_true
    ((f32Lt_eq_units (nonnegFinite_of_finitePos h.min_ok) (nonnegFinite_of_finitePos h.max_ok)).symm.trans h.min_lt_max)

theorem AdmittedFacts.exists_duty {c : Config} (h : AdmittedFacts c) (sum : Word) :
    ∃ d : Nat, d ≤ 1000 ∧ dutyMap c (amperes c sum) = some (d : Int) := by
  have hi := h.boundedBy_amperes sum
  have hlo := nonnegFinite_of_finitePos h.min_ok
  have hhi := nonnegFinite_of_finitePos h.max_ok
  cases hbelow : f32Lt (amperes c sum) c.currentMin with
  | true => exact ⟨0, Nat.zero_le _, dutyMap_of_below hbelow⟩
  | false =>
    cases habove : f32Gt (amperes c sum) c.currentMax with
    | true => exact ⟨1000, le_rfl, dutyMap_of_above hbelow habove⟩
    | false =>
      rw [dutyMap_of_between hbelow habove]
      rw [f32Lt_eq_units hi.toNonnegFinite hlo, decide_eq_false_iff_not] at hbelow
      rw [f32Gt, f32Lt_eq_units hhi hi.toNonnegFinite, decide_eq_false_iff_not] at habove
      exact exists_duty_ramp hlo hhi hi h.span_pos (not_lt.mp hbelow) (not_lt.mp habove)

/-- Settles O57: each region of the map is a DutyCycle, and the clamp keeps one. -/
theorem dutyMapIsADutyCycle : Obligations.DutyMapIsADutyCycle := by
  intro c sum ha
  obtain ⟨d, hd, hmap⟩ := (admitted_facts ha).exists_duty sum
  exact ⟨d, hd, hmap, clamp_natCast hd⟩

/-! ## The ends of the ramp -/

/-- An exact difference of 0 is +0 (42_measurement.md R84). -/
theorem f32Sub_self {a : F32} (ha : NonnegFinite a) : f32Sub a a = 0#32 := by
  have hround : roundUnits 0 1 = 0 := by decide
  rw [f32Sub_of_le ha ha le_rfl, Nat.sub_self, hround]
  rfl

/-- Settles O58: at CURRENT_MIN the ramp is +0 times 1000, divided by a span that is not 0. -/
theorem dutyIsZeroAtCurrentMin : Obligations.DutyIsZeroAtCurrentMin := by
  intro c ha
  have facts := admitted_facts ha
  have hlo := nonnegFinite_of_finitePos facts.min_ok
  have hhi := nonnegFinite_of_finitePos facts.max_ok
  have hmin : f32Lt c.currentMin c.currentMin = false := by
    rw [f32Lt_eq_units hlo hlo]; exact decide_eq_false (lt_irrefl _)
  have hmax : f32Gt c.currentMin c.currentMax = false := by
    rw [f32Gt, f32Lt_eq_units hhi hlo]; exact decide_eq_false facts.span_pos.not_gt
  obtain ⟨hspan, -⟩ := nonnegFinite_sub hhi hlo facts.span_pos.le
  have hmul : f32Mul 0#32 f32Thousand = 0#32 := by decide
  have hramp : rampValue c c.currentMin = 0#32 := by
    rw [rampValue, f32Sub_self hlo, hmul]
    exact f32Div_zero_left hspan.sign (not_nan_of_finite hspan.finite) (f32Units_sub_pos hhi hlo facts.span_pos).ne'
  rw [dutyMap_of_between hmin hmax, hramp]
  decide

/-- Settles O59: the formula of R101, computed for both pairs. -/
theorem dutyAtCurrentMaxFollowsTheFormula : Obligations.DutyAtCurrentMaxFollowsTheFormula :=
  ⟨by decide, by decide⟩

end Sys2Proof.Machine
end

section
/-! SUPPORT. The commands SETD and ADJI (43_actuation.md R98, R100, R103): their last step, what ADJI does with the duty
programmed before, and each command as a whole. -/

namespace Sys2Proof.Machine

/-! ## The last step -/

section
variable {s : State}

theorem exec_setd_of_fin (d : Slot) (hs : s.stage = .fin) :
    exec (.setd d) s = .next (program (clamp s.imm.toInt) s) := by
  simp only [exec, execSetd, hs, dutyOperand]

theorem exec_adji_of_sum (hs : s.stage = .sum1) :
    exec .adji s = sumStep (channelSlot s.cfg.currentChannel s) s.cfg.spc toFin s := by
  simp only [exec, execAdji, hs]

theorem exec_adji_of_fin (hs : s.stage = .fin) :
    exec .adji s = programMapped (dutyMap s.cfg (amperes s.cfg s.acc)) s := by
  simp only [exec, execAdji, hs]

/-- Where the map is a DutyCycle, ADJI programs it as it is. -/
theorem exec_adji_of_duty {d : Nat} (hs : s.stage = .fin) (hd : d ≤ 1000)
    (hmap : dutyMap s.cfg (amperes s.cfg s.acc) = some (d : Int)) : exec .adji s = .next (program d s) := by
  rw [exec_adji_of_fin hs, hmap, programMapped_some, clamp_natCast hd]

end

/-- Settles O15: each range of the operand is one region of the clamp. -/
theorem setdProgramsTheClampedDuty : Obligations.SetdProgramsTheClampedDuty := by
  intro s d c hs hc
  have hclamp : clamp s.imm.toInt = c := by
    obtain ⟨hneg, rfl⟩ | ⟨hgt, rfl⟩ | ⟨-, hle, heq⟩ := hc
    · exact clamp_of_neg hneg
    · exact clamp_of_gt hgt
    · rw [← heq, clamp_natCast (by omega)]
  rw [exec_setd_of_fin d hs, hclamp]
  rfl

/-- Settles O16: each clause is one region of the map, and its duty is a DutyCycle. -/
theorem adjiProgramsTheMappedDuty : Obligations.AdjiProgramsTheMappedDuty := by
  intro s c hs i r hc
  obtain ⟨hle, hmap⟩ : c ≤ 1000 ∧ dutyMap s.cfg i = some (c : Int) := by
    obtain ⟨hmin, rfl⟩ | ⟨hmin, hmax, rfl⟩ | ⟨hmin, hmax, hle, htrunc⟩ := hc
    · exact ⟨Nat.zero_le _, dutyMap_of_below hmin⟩
    · exact ⟨le_rfl, dutyMap_of_above hmin hmax⟩
    · exact ⟨hle, (dutyMap_of_between hmin hmax).trans htrunc⟩
  exact exec_adji_of_duty hs hle hmap

/-! ## The duty programmed before -/

/-- A step of a sum carries CCR along. -/
theorem sumStep_carries_ccr {e : Option Slot} {len : Nat} {s t : State} (x : BitVec 10)
    (h : sumStep e len toFin s = .next t) : sumStep e len toFin { s with ccr := x } = .next { t with ccr := x } := by
  obtain ⟨v, rfl, ⟨hlt, rfl⟩ | ⟨hge, rfl⟩⟩ := sumStep_eq_next h <;> rw [sumStep_some]
  · exact congrArg Host.Outcome.next (if_pos hlt)
  · exact congrArg Host.Outcome.next (if_neg hge.not_gt)

/-- Settles O18: the issue and the sum carry CCR along, and the last step replaces it. -/
theorem adjiIgnoresThePriorDuty : Obligations.AdjiIgnoresThePriorDuty := by
  intro s t x h
  let u : State := { s with ccr := x }
  change exec .adji u = _
  cases hs : s.stage with
  | idle =>
    rw [legalCommandsStart .adji s hs rfl nofun] at h
    cases h
    exact legalCommandsStart .adji u hs rfl nofun
  | sum1 =>
    rw [exec_adji_of_sum hs] at h
    rw [exec_adji_of_sum (s := u) hs]
    exact sumStep_carries_ccr x h
  | fin =>
    rw [exec_adji_of_fin hs] at h
    obtain ⟨d, hd, rfl⟩ := programMapped_eq_next h
    rw [exec_adji_of_fin (s := u) hs]
    exact congrArg (programMapped · u) hd
  | sum2 | waitcal =>
    simp only [exec, execAdji, hs] at h
    cases h

/-! ## The whole commands -/

/-- Settles O24: the issue, which enters FIN at once, and the step that programs the clamped operand. -/
theorem setdClampsEveryRequest : Obligations.SetdClampsEveryRequest := by
  intro s d ha hs c
  let last : State := started (.setd d) { s with offers := [] }
  have hissue : step { s with offers := [.issue (encode (.setd d))] } = .next last :=
    step_issues (i := .setd d) (s := { s with offers := [.issue (encode (.setd d))] }) ha hs rfl rfl nofun
  have hfin : step last = .next (program c last) :=
    (step_of_busy (s := last) ha rfl nofun rfl).trans (exec_setd_of_fin d rfl)
  rw [runSteps_succ, hissue, andThen_next, runSteps_succ, hfin]
  simp only [andThen_next, runSteps_zero, program, complete, hs]
  rfl

/-- Settles O25: the issue and the sum over the current channel, and the step that programs the map of the current. -/
theorem adjiMapsTheMeasuredCurrent : Obligations.AdjiMapsTheMeasuredCurrent := by
  intro s ha hsb hs sum i
  have facts := admitted_facts ha
  let last : State := summedUp .adji sum s
  have hcurrent : amperes s.cfg (BitVec.ofNat 32 sum) = i :=
    congrArg (f32Mul · _) (avg_ofNat (facts.channelSum_lt s.sb s.cfg.currentChannel) s.cfg.spc)
  obtain ⟨c, hc, hmap⟩ := facts.exists_duty (BitVec.ofNat 32 sum)
  have hsum : SlotsAddUp .adji (issue 9#4 0#16 .sum1 { s with offers := [] })
      (channelSum s.cfg s.sb s.cfg.currentChannel) :=
    slotsAddUp_channel (s := issue 9#4 0#16 .sum1 { s with offers := [] }) ha hsb facts.current_lt rfl fun _ => rfl
  have hloop : runSteps (s.cfg.spc + 1) { s with offers := [.issue (encode .adji)] } = .next last :=
    runSteps_to_fin (i := .adji) ha hs rfl rfl nofun hsum
  have hfin : step last = .next (program c last) :=
    (step_of_busy (s := last) ha rfl nofun rfl).trans (exec_adji_of_duty (s := last) rfl hc hmap)
  refine ⟨c, hc, hcurrent ▸ hmap, ?_⟩
  rw [runSteps_add (s.cfg.spc + 1) 1, hloop, andThen_next, runSteps_succ, hfin]
  simp only [andThen_next, runSteps_zero, program, complete, last, summedUp, hs]
  rfl

end Sys2Proof.Machine
end

section
/-! SUPPORT. What the five events (60_exceptions.md R109) leave alone (R113): the sequencer, and what decides which
steps come next. -/

namespace Sys2Proof.Machine

section
variable {o : Offer} {s t : State}

/-- What decides which steps come next is the same: the stage, the flip-flops (10_state.md R33) and the offers. -/
structure KeepsAgenda (s t : State) : Prop where
  stage : t.stage = s.stage
  refPrev : t.refPrev = s.refPrev
  dlyPrev : t.dlyPrev = s.dlyPrev
  offers : t.offers = s.offers

theorem KeepsAgenda.trans {u : State} (h : KeepsAgenda s t) (k : KeepsAgenda t u) : KeepsAgenda s u :=
  ⟨k.stage.trans h.stage, k.refPrev.trans h.refPrev, k.dlyPrev.trans h.dlyPrev, k.offers.trans h.offers⟩

theorem takeOffer_keepsAgenda_of_event (ho : isEvent o = true) (h : takeOffer o s = .next t) : KeepsAgenda s t := by
  cases o with
  | issue _ | seq | rst | clock _ _ => cases ho
  | calDone => cases h; constructor <;> simp
  | conv v => obtain ⟨-, rfl⟩ | ⟨-, -, rfl⟩ := conv_eq_next h <;> constructor <;> rfl
  | refEdge => cases h; constructor <;> rfl
  | dlyEdge => obtain ⟨-, rfl⟩ | ⟨-, -, rfl⟩ := dlyEdge_eq_next h <;> constructor <;> rfl
  | tick => cases h; constructor <;> simp

theorem whenPin_keepsAgenda_of_event {pin : Bool} (ho : isEvent o = true)
    (h : whenPin pin (takeOffer o) s = .next t) : KeepsAgenda s t := by
  obtain ⟨-, h⟩ | ⟨-, rfl⟩ := whenPin_eq_next h
  exacts [takeOffer_keepsAgenda_of_event ho h, ⟨rfl, rfl, rfl, rfl⟩]

/-- An event does not read what is offered next. -/
theorem takeOffer_withOffers_of_event (ho : isEvent o = true) (s : State) (os : List Offer) :
    takeOffer o { s with offers := os } = andThen (takeOffer o s) fun t => .next { t with offers := os } := by
  cases o with
  | issue _ | seq | rst | clock _ _ => cases ho
  | calDone =>
    simp only [takeOffer, calDone_eq, andThen_next]
    split_ifs <;> rfl
  | conv v =>
    by_cases hs : s.initst = .running
    · simp only [takeOffer, conv, convEnabled, hs, decide_true, if_true]
      cases s.sb.read s.wp.toNat <;> rfl
    · simp only [takeOffer, conv_of_not_running (s := s) hs, conv_of_not_running (s := { s with offers := os }) hs,
        andThen_next]
  | refEdge => rfl
  | dlyEdge =>
    by_cases ht : s.ten = true
    · simp only [takeOffer, dlyEdge, ht, if_true]
      cases s.ph.read s.pcur.toNat <;> rfl
    · rw [Bool.not_eq_true] at ht
      rw [takeOffer, takeOffer, dlyEdge_of_idle ht]
      exact dlyEdge_of_idle (s := { s with offers := os }) ht
  | tick =>
    simp only [takeOffer, tick, andThen_next]
    by_cases ht : tickEnabled s = true
    · rw [if_pos ht]
      exact congrArg _ (if_pos ht)
    · rw [if_neg ht]
      exact congrArg _ (if_neg ht)

end

/-- Settles O34: each of the five offers is an event, and an event leaves the sequencer and the later offers alone. -/
theorem eventsLeaveTheSequencerAlone : Obligations.EventsLeaveTheSequencerAlone := by
  intro s t o os v ho hev h
  have hevent : isEvent o = true := by obtain rfl | rfl | rfl | rfl | rfl := hev <;> rfl
  have h := (step_of_offer (step_eq_next h).1 ho).symm.trans h
  have seq := (KeepsSequencer.of_offers s os).trans (takeOffer_keepsSequencer_of_event hevent h)
  exact ⟨seq.op, seq.imm, seq.stage, seq.idx, seq.acc, seq.ft0, seq.result, seq.fault, seq.fcause, seq.ccr, seq.history,
    seq.initst, seq.cfg, (takeOffer_keepsAgenda_of_event hevent h).offers⟩

end Sys2Proof.Machine
end

section
/-! SUPPORT. A whole clock is a run of event-level steps (60_exceptions.md R112): the events, then one turn of the
sequencer or the host, then the flip-flops. -/

namespace Sys2Proof.Machine

/-! ## Offers one after another -/

/-- The offers' steps, each seeing the state left by the one before. -/
def takeOffers : List Offer → State → Result
  | [], s => .next s
  | o :: os, s => andThen (takeOffer o s) (takeOffers os)

theorem andThen_congr {r : Result} {f g : State → Result} (h : ∀ t, r = .next t → f t = g t) :
    andThen r f = andThen r g := by
  cases r with
  | next t => exact h t rfl
  | fault _ | refused _ => rfl

theorem takeOffers_append (os os' : List Offer) (s : State) :
    takeOffers (os ++ os') s = andThen (takeOffers os s) (takeOffers os') := by
  induction os generalizing s with
  | nil => rfl
  | cons o os ih =>
    rw [List.cons_append, takeOffers, takeOffers, andThen_assoc]
    exact andThen_congr fun t _ => ih t

/-- An offer that is made only if its pin is 1. -/
theorem takeOffers_of_pin (pin : Bool) (o : Offer) (s : State) :
    takeOffers (if pin then [o] else []) s = whenPin pin (takeOffer o) s := by
  cases pin with
  | false => rfl
  | true =>
    show andThen (takeOffer o s) Host.Outcome.next = takeOffer o s
    cases takeOffer o s <;> rfl

/-- What each of the offers keeps, all of them keep. -/
theorem takeOffers_keeps {P : State → Prop} {os : List Offer} {s t : State}
    (hstep : ∀ o ∈ os, ∀ u v, P u → takeOffer o u = .next v → P v) (hs : P s)
    (h : takeOffers os s = .next t) : P t := by
  induction os generalizing s with
  | nil => cases h; exact hs
  | cons o os ih =>
    obtain ⟨u, hu, h⟩ := andThen_eq_next.mp h
    exact ih (fun o ho => hstep o (List.mem_cons_of_mem _ ho)) (hstep o List.mem_cons_self s u hs hu) h

/-- A run through offered events, followed by the steps that are offered after them. -/
theorem runSteps_of_events {evs last os : List Offer} {s : State} (ha : admitted s.cfg = true)
    (hev : ∀ o ∈ evs, isEvent o = true) :
    runSteps (evs ++ last).length { s with offers := evs ++ last ++ os } =
      andThen (takeOffers evs s) fun t => runSteps last.length { t with offers := last ++ os } := by
  induction evs generalizing s with
  | nil => rfl
  | cons o evs ih =>
    have ho := hev o List.mem_cons_self
    have hstep : step { s with offers := o :: (evs ++ last ++ os) } =
        andThen (takeOffer o s) fun t => .next { t with offers := evs ++ last ++ os } :=
      (step_of_offer (s := { s with offers := o :: (evs ++ last ++ os) }) ha rfl).trans
        (takeOffer_withOffers_of_event ho s _)
    have hrest := fun t (ht : takeOffer o s = .next t) =>
      ih (s := t) (by rw [(takeOffer_keepsSequencer_of_event ho ht).cfg]; exact ha)
        fun o ho => hev o (List.mem_cons_of_mem _ ho)
    rw [takeOffers, andThen_assoc]
    refine Eq.trans ?_ (andThen_congr hrest)
    rw [List.cons_append, List.length_cons, runSteps_succ]
    refine (congrArg (andThen · _) hstep).trans (andThen_assoc _ _ _)

/-! ## One clock -/

/-- The events of one clock, in the order of R112. -/
def eventsOfClock (p : Pins) (s : State) : List Offer :=
  (if p.calRdyIn then [.calDone] else [])
    ++ (if p.adcValid then [.conv p.adcData] else [])
    ++ (if p.refIn && !s.refPrev then [.refEdge] else [])
    ++ (if p.dlyIn && !s.dlyPrev then [.dlyEdge] else [])
    ++ (if p.tick then [.tick] else [])

/-- The one turn of a clock, which comes last: the host's when the block is idle, else the sequencer's. -/
def turnOfClock (p : Pins) (go : Bool) (s : State) : List Offer :=
  if s.stage = .idle then (if p.cmdValid then [.issue p.cmd] else []) else (if go then [.seq] else [])

theorem clockEvents_eq (p : Pins) (go : Bool) (s : State) :
    clockEvents p go s = eventsOfClock p s ++ turnOfClock p go s := rfl

theorem mem_of_pin {pin : Bool} {o o' : Offer} (h : o ∈ if pin then [o'] else []) : o = o' := by
  cases pin with
  | false => cases h
  | true => exact List.mem_singleton.mp h

theorem isEvent_of_mem_eventsOfClock {p : Pins} {s : State} {o : Offer} (ho : o ∈ eventsOfClock p s) :
    isEvent o = true := by
  simp only [eventsOfClock, List.mem_append] at ho
  obtain ((((h | h) | h) | h) | h) := ho <;> rw [mem_of_pin h] <;> rfl

theorem whenPin_next (pin : Bool) (f : State → State) (s : State) :
    whenPin pin (fun s => .next (f s)) s = .next (if pin then f s else s) := by
  cases pin <;> rfl

/-- The turn is the one step that the clock offers for it. -/
theorem clockTurn_eq (p : Pins) (go : Bool) {s u : State} (hu : u.stage = s.stage) :
    clockTurn p go u = takeOffers (turnOfClock p go s) u := by
  by_cases hs : s.stage = .idle
  · rw [clockTurn, cmdReady, hu, turnOfClock, decide_eq_true hs, if_pos rfl, if_pos hs, takeOffers_of_pin]
    rfl
  · rw [clockTurn, cmdReady, hu, turnOfClock, decide_eq_false hs, if_neg Bool.false_ne_true, if_neg hs,
      takeOffers_of_pin]
    rfl

/-- A clock that is no reset: its events and its turn, and the flip-flops. -/
theorem clockStep_eq {p : Pins} {go : Bool} {s : State} (hr : p.rst = false) :
    clockStep p go s = andThen (takeOffers (clockEvents p go s) s) fun t => .next (latchEdges p t) := by
  have hcal : whenPin p.calRdyIn (takeOffer .calDone) s = .next (if p.calRdyIn then calDone s else s) :=
    whenPin_next _ _ _
  simp only [clockEvents_eq, eventsOfClock, takeOffers_append, takeOffers_of_pin, andThen_assoc]
  rw [clockStep, hr, if_neg Bool.false_ne_true, hcal, andThen_next]
  refine andThen_congr fun s2 hconv => ?_
  have h1 := whenPin_keepsAgenda_of_event rfl hcal
  have h2 := h1.trans (whenPin_keepsAgenda_of_event (o := .conv p.adcData) rfl hconv)
  have href : whenPin (p.refIn && !s.refPrev) (takeOffer .refEdge) s2 =
      .next (if p.refIn && !s2.refPrev then refEdge s2 else s2) := h2.refPrev ▸ whenPin_next _ _ _
  have h3 := h2.trans (whenPin_keepsAgenda_of_event rfl href)
  rw [href, andThen_next, ← h3.dlyPrev]
  refine andThen_congr fun s4 hdly => ?_
  have htick : whenPin p.tick (takeOffer .tick) s4 = .next (if p.tick then tick s4 else s4) := whenPin_next _ _ _
  have h4 := h3.trans (whenPin_keepsAgenda_of_event (o := .dlyEdge) rfl hdly)
  have h5 := h4.trans (whenPin_keepsAgenda_of_event rfl htick)
  rw [htick, andThen_next, ← clockTurn_eq p go h5.stage]

theorem runSteps_of_pin {pin : Bool} {o : Offer} {s : State} (ha : admitted s.cfg = true) :
    runSteps (if pin then [o] else []).length { s with offers := (if pin then [o] else []) ++ s.offers } =
      takeOffers (if pin then [o] else []) s := by
  cases pin with
  | false => rfl
  | true => exact congrArg (andThen · _) (step_of_offer (s := { s with offers := o :: s.offers }) ha rfl)

theorem runSteps_of_turn {p : Pins} {go : Bool} {s u : State} (ha : admitted u.cfg = true) :
    runSteps (turnOfClock p go s).length { u with offers := turnOfClock p go s ++ u.offers } =
      takeOffers (turnOfClock p go s) u := by
  unfold turnOfClock
  split
  exacts [runSteps_of_pin ha, runSteps_of_pin ha]

/-- The events of a clock leave the sequencer and the later offers alone. -/
theorem takeOffers_keeps_of_events {p : Pins} {s t : State} (h : takeOffers (eventsOfClock p s) s = .next t) :
    KeepsSequencer s t ∧ t.offers = s.offers :=
  takeOffers_keeps (P := fun u => KeepsSequencer s u ∧ u.offers = s.offers)
    (fun _ ho _ _ hu h =>
      have ho := isEvent_of_mem_eventsOfClock ho
      ⟨hu.1.trans (takeOffer_keepsSequencer_of_event ho h), (takeOffer_keepsAgenda_of_event ho h).offers.trans hu.2⟩)
    ⟨.refl s, rfl⟩ h

/-- Settles O35: the run takes the events, which read no offers, and then the turn, which comes last. -/
theorem clockIsItsEventsInOrder : Obligations.ClockIsItsEventsInOrder := by
  intro s p go os ha hr ho
  let u : State := { s with offers := os }
  have hclock : step s = clockStep p go u := step_of_offer ha ho
  have hrun : runSteps (clockEvents p go s).length { s with offers := clockEvents p go s ++ os } = _ :=
    runSteps_of_events (s := u) (evs := eventsOfClock p u) (last := turnOfClock p go u) ha
      fun _ => isEvent_of_mem_eventsOfClock
  rw [hclock, clockStep_eq hr, hrun, clockEvents_eq, takeOffers_append]
  refine congrArg (andThen · _) (andThen_congr fun v hv => ?_)
  obtain ⟨seq, hoffers⟩ := takeOffers_keeps_of_events hv
  have hturn := runSteps_of_turn (p := p) (go := go) (s := u) (u := v) (by rw [seq.cfg]; exact ha)
  rw [hoffers] at hturn
  exact hturn.symm

end Sys2Proof.Machine
end

section
/-! SUPPORT. Nothing stops the block (60_exceptions.md R105): a ready block answers every offer with a ready block, a
reset and a whole clock included. -/

namespace Sys2Proof.Machine

/-! ## One step of an agent -/

/-- An offer of one agent's step (10_state.md R14): an event, the host's word or the sequencer's step. -/
def isAgentStep (o : Offer) : Bool := isEvent o || betweenEdges o

section
variable {o : Offer} {s t : State}

theorem SlotsReady.dlyEdge (h : SlotsReady s) (hd : dlyEdge s = .next t) : SlotsReady t := by
  obtain ⟨-, rfl⟩ | ⟨-, -, rfl⟩ := dlyEdge_eq_next hd
  · exact h
  · have facts := admitted_facts h.cfgOk
    have hpcur : (captured s).pcur.toNat < s.cfg.n := by
      rw [captured, toNat_next_cursor facts]
      exact Nat.mod_lt _ facts.n_pos
    exact { h with phOk := (write_wf _ _ _ _).trans h.phOk, pcurOk := hpcur }

theorem Ready.agent_goes_on (h : Ready s) (ho : isAgentStep o = true) :
    ∃ t, Machine.takeOffer o s = .next t ∧ Ready t := by
  have between (hb : betweenEdges o = true) : ∃ t, Machine.takeOffer o s = .next t ∧ Ready t :=
    have ⟨t, ht⟩ := h.takeOffer_goes_on hb
    ⟨t, ht, h.takeOffer hb ht⟩
  cases o with
  | issue _ | seq | calDone | conv _ | tick => exact between rfl
  | refEdge => exact ⟨_, rfl, (KeepsSequencer.of_refEdge s).ready h { h.slots with }⟩
  | dlyEdge =>
    obtain ⟨t, ht⟩ := dlyEdge_goes_on s h.slots.phOk h.slots.pcurOk
    exact ⟨t, ht, (KeepsSequencer.of_dlyEdge ht).ready h (h.slots.dlyEdge ht)⟩
  | rst | clock _ _ => cases ho

theorem Ready.agents_go_on {os : List Offer} (h : Ready s)
    (hos : ∀ o ∈ os, isAgentStep o = true) : ∃ t, takeOffers os s = .next t ∧ Ready t := by
  induction os generalizing s with
  | nil => exact ⟨s, rfl, h⟩
  | cons o os ih =>
    obtain ⟨u, hu, hready⟩ := h.agent_goes_on (hos o List.mem_cons_self)
    rw [takeOffers, hu]
    exact ih hready fun o ho => hos o (List.mem_cons_of_mem _ ho)

/-! ## Resets and clocks -/

/-- A clock takes no other steps than the agents'. -/
theorem agent_of_mem_clockEvents {p : Pins} {go : Bool} (ho : o ∈ clockEvents p go s) :
    isAgentStep o = true := by
  rw [clockEvents_eq, List.mem_append, turnOfClock] at ho
  obtain ho | ho := ho
  · rw [isAgentStep, isEvent_of_mem_eventsOfClock ho, Bool.true_or]
  · split at ho <;> rw [mem_of_pin ho] <;> rfl

/-- A reset leaves the memories their slots and both cursors on slot 0 (70_reset_and_hazards.md R123). -/
theorem ready_resetBlock (ha : admitted s.cfg = true) : Ready (resetBlock s) where
  slots :=
    have facts := admitted_facts ha
    { cfgOk := ha
      sbOk := facts.resetSB_length ▸ ofValues_wf s.cfg.resetSB
      phOk := facts.resetPH_length ▸ ofValues_wf s.cfg.resetPH
      wpOk := Nat.mul_pos facts.channels_pos facts.spc_pos
      pcurOk := facts.n_pos }
  flight hbusy := absurd rfl hbusy

theorem Ready.clock_goes_on (h : Ready s) (p : Pins) (go : Bool) : ∃ t, clockStep p go s = .next t ∧ Ready t := by
  cases hr : p.rst with
  | true => exact ⟨resetBlock s, by rw [clockStep, if_pos hr], ready_resetBlock h.slots.cfgOk⟩
  | false =>
    obtain ⟨t, ht, hready⟩ := h.agents_go_on fun _ => agent_of_mem_clockEvents (p := p) (go := go)
    refine ⟨latchEdges p t, ?_, (KeepsSequencer.of_latchEdges p t).ready hready { hready.slots with }⟩
    rw [clockStep_eq hr, ht, andThen_next]

/-! ## Every step -/

theorem Ready.step_goes_on (h : Ready s) : ∃ t, step s = .next t ∧ Ready t := by
  cases ho : s.offers with
  | nil =>
    obtain ⟨t, ht⟩ := h.seqStep_goes_on
    exact ⟨t, (step_of_no_offer h.slots.cfgOk ho).trans ht, (Turn.of_seqStep ht).ready h⟩
  | cons o os =>
    have hrest : Ready { s with offers := os } := (KeepsSequencer.of_offers s os).ready h { h.slots with }
    rw [step_of_offer h.slots.cfgOk ho]
    cases o with
    | issue _ | seq | calDone | conv _ | refEdge | dlyEdge | tick => exact hrest.agent_goes_on rfl
    | rst => exact ⟨_, rfl, ready_resetBlock (s := { s with offers := os }) h.slots.cfgOk⟩
    | clock p go => exact hrest.clock_goes_on p go

end

/-- Settles O39: a state of the invariant is ready, and a ready block takes every step. -/
theorem theBlockNeverStops : Obligations.TheBlockNeverStops := fun _ h =>
  have ⟨t, ht, _⟩ := h.ready.step_goes_on
  ⟨t, ht⟩

end Sys2Proof.Machine
end

section
/-! SUPPORT. INIT is held until the ready flag comes (60_exceptions.md R108): meanwhile every step leaves the sequencer
and the flag alone. -/

namespace Sys2Proof.Machine

/-- The ready flag is the same, and so is all that only commands write. -/
structure KeepsWaiting (s t : State) : Prop extends KeepsSequencer s t where
  calRdy : t.calRdy = s.calRdy

section
variable {o : Offer} {s t : State}

theorem KeepsWaiting.refl (s : State) : KeepsWaiting s s := ⟨.refl s, rfl⟩

theorem KeepsWaiting.trans {u : State} (h : KeepsWaiting s t) (k : KeepsWaiting t u) : KeepsWaiting s u :=
  ⟨h.toKeepsSequencer.trans k.toKeepsSequencer, k.calRdy.trans h.calRdy⟩

theorem KeepsWaiting.held (h : KeepsWaiting s t) (hs : held s = true) : held t = true := by
  rw [Machine.held, h.stage, h.calRdy]
  exact hs

theorem held_iff : held s = true ↔ s.stage = .waitcal ∧ s.calRdy = false := by
  simp [held]

theorem seqStep_of_held (hs : held s = true) (h : seqStep s = .next t) : t = s := by
  obtain ⟨hstage, hcal⟩ := held_iff.mp hs
  exact seqStep_of_not_enabled (by simp [seqEnabled, hstage, hcal]) h

theorem ne_idle_of_held (hs : held s = true) : s.stage ≠ .idle := by
  rw [(held_iff.mp hs).1]; nofun

/-- While INIT is held, only CalDone and a reset move it on. -/
theorem takeOffer_of_held (hs : held s = true) (ho : keepsHeld o = true)
    (hagent : isAgentStep o = true) (h : takeOffer o s = .next t) :
    KeepsWaiting s t ∧ t.offers = s.offers := by
  cases o with
  | issue w => rw [issueWord_of_busy (ne_idle_of_held hs) h]; exact ⟨.refl s, rfl⟩
  | seq => rw [seqStep_of_held hs h]; exact ⟨.refl s, rfl⟩
  | conv v => exact ⟨⟨.of_conv h, (conv_keeps_capture h).1⟩, (takeOffer_keepsAgenda_of_event rfl h).offers⟩
  | refEdge => cases h; exact ⟨⟨.of_refEdge s, rfl⟩, rfl⟩
  | dlyEdge =>
    obtain ⟨-, -, hcal, -⟩ := dlyEdge_keeps_acquisition h
    exact ⟨⟨.of_dlyEdge h, hcal⟩, (takeOffer_keepsAgenda_of_event rfl h).offers⟩
  | tick => cases h; exact ⟨⟨.of_tick s, tick_calRdy s⟩, tick_offers s⟩
  | calDone | rst => cases ho
  | clock _ _ => cases hagent

theorem keepsHeld_of_mem_clockEvents {p : Pins} {go : Bool} (hcal : p.calRdyIn = false)
    (ho : o ∈ clockEvents p go s) : keepsHeld o = true := by
  simp only [clockEvents_eq, eventsOfClock, turnOfClock, hcal, List.mem_append] at ho
  obtain (((((h | h) | h) | h) | h) | h) := ho
  · cases h
  iterate 4 rw [mem_of_pin h]; rfl
  · split at h <;> rw [mem_of_pin h] <;> rfl

theorem clockStep_of_held {p : Pins} {go : Bool} (hs : held s = true) (hcal : p.calRdyIn = false) (hr : p.rst = false)
    (h : clockStep p go s = .next t) : KeepsWaiting s t ∧ t.offers = s.offers := by
  rw [clockStep_eq hr] at h
  obtain ⟨u, hu, h⟩ := andThen_eq_next.mp h
  cases h
  have keeps : KeepsWaiting s u ∧ u.offers = s.offers :=
    takeOffers_keeps (P := fun u => KeepsWaiting s u ∧ u.offers = s.offers)
      (fun o ho v w hv hw =>
        have hw := takeOffer_of_held (hv.1.held hs) (keepsHeld_of_mem_clockEvents hcal ho)
          (agent_of_mem_clockEvents ho) hw
        ⟨hv.1.trans hw.1, hw.2.trans hv.2⟩)
      ⟨.refl s, rfl⟩ hu
  exact ⟨keeps.1.trans ⟨.of_latchEdges p u, rfl⟩, keeps.2⟩

/-- One step of the block while INIT is held. -/
theorem step_of_held (hs : held s = true) (hos : s.offers.all keepsHeld = true) (h : step s = .next t) :
    KeepsWaiting s t ∧ t.offers.all keepsHeld = true := by
  obtain ⟨-, ⟨-, h⟩ | ⟨o, os, ho, h⟩⟩ := step_eq_next h
  · rw [seqStep_of_held hs h]
    exact ⟨.refl s, hos⟩
  · rw [ho, List.all_cons, Bool.and_eq_true] at hos
    obtain ⟨hkeeps, hos⟩ := hos
    have hrest : KeepsWaiting s { s with offers := os } := ⟨.of_offers s os, rfl⟩
    obtain ⟨hwait, hoffers⟩ : KeepsWaiting { s with offers := os } t ∧ t.offers = os := by
      cases o with
      | issue _ | seq | conv _ | refEdge | dlyEdge | tick =>
        exact takeOffer_of_held (s := { s with offers := os }) hs hkeeps rfl h
      | clock p go =>
        obtain ⟨hcal, hr⟩ : p.calRdyIn = false ∧ p.rst = false := by simpa [keepsHeld] using hkeeps
        exact clockStep_of_held (s := { s with offers := os }) hs hcal hr h
      | calDone | rst => cases hkeeps
    exact ⟨hrest.trans hwait, hoffers ▸ hos⟩

/-- A run of any length, which goes on because the block is ready. -/
theorem runSteps_keepsWaiting (k : Nat) (hready : Ready s) (hs : held s = true) (hos : s.offers.all keepsHeld = true) :
    ∃ t, runSteps k s = .next t ∧ KeepsWaiting s t := by
  induction k generalizing s with
  | zero => exact ⟨s, rfl, .refl s⟩
  | succ k ih =>
    obtain ⟨u, hu, huready⟩ := hready.step_goes_on
    obtain ⟨hwait, huos⟩ := step_of_held hs hos hu
    obtain ⟨t, ht, hmore⟩ := ih huready (hwait.held hs) huos
    exact ⟨t, by rw [runSteps_succ, hu, andThen_next, ht], hwait.trans hmore⟩

end

/-- Settles O41: INITST is CALIBRATING because INIT waits, and the whole run leaves that and the rest alone. -/
theorem initIsHeldWithoutCalDone : Obligations.InitIsHeldWithoutCalDone := by
  intro k s hinv hs hos
  obtain ⟨t, ht, hwait⟩ := runSteps_keepsWaiting k hinv.ready hs hos
  have hcalibrating : s.initst = .calibrating := hinv.waitOk.mpr (held_iff.mp hs).1
  exact ⟨t, ht, hwait.held hs, hwait.initst.trans hcalibrating, hwait.fault, hwait.fcause, hwait.history, hwait.result,
    hwait.op⟩

end Sys2Proof.Machine
end

section
/-! SUPPORT. What coincident events record (60_exceptions.md R112): the two edges of a clock with only a tick after
them, and the sequencer's read after the conversion of the same clock. -/

namespace Sys2Proof.Machine

/-! ## The steps of a clock, one by one -/

/-- The inversion lemma of a clock whose pins are compared with the flip-flops as the clock finds them. -/
theorem clockStep_steps {p : Pins} {go : Bool} {s t : State} (hr : p.rst = false) (h : clockStep p go s = .next t) :
    ∃ s1 s2 s3 s4 s5 s6,
      whenPin p.calRdyIn (takeOffer .calDone) s = .next s1 ∧
      whenPin p.adcValid (takeOffer (.conv p.adcData)) s1 = .next s2 ∧
      whenPin (p.refIn && !s.refPrev) (takeOffer .refEdge) s2 = .next s3 ∧
      whenPin (p.dlyIn && !s.dlyPrev) (takeOffer .dlyEdge) s3 = .next s4 ∧
      whenPin p.tick (takeOffer .tick) s4 = .next s5 ∧
      takeOffers (turnOfClock p go s) s5 = .next s6 ∧ t = latchEdges p s6 := by
  rw [clockStep_eq hr] at h
  simp only [clockEvents_eq, eventsOfClock, takeOffers_append, takeOffers_of_pin, andThen_assoc, andThen_eq_next] at h
  obtain ⟨s1, h1, s2, h2, s3, h3, s4, h4, s5, h5, s6, h6, h⟩ := h
  cases h
  exact ⟨s1, s2, s3, s4, s5, s6, h1, h2, h3, h4, h5, h6, rfl⟩

section
variable {p : Pins} {go pin : Bool} {o : Offer} {s t : State}

/-! ## The edges -/

theorem TicksOnly.tcnt_of_zero (h : TicksOnly 0 s t) : t.tcnt = s.tcnt := by
  simp [h.tcnt]

theorem ticksOnly_of_whenPin (ho : betweenEdges o = true) (h : whenPin pin (takeOffer o) s = .next t) :
    TicksOnly (if pin then [o].count .tick else 0) s t := by
  obtain ⟨rfl, h⟩ | ⟨rfl, rfl⟩ := whenPin_eq_next h
  exacts [(takeOffer_ticksOnly ho h).1, .of_same rfl rfl rfl rfl rfl]

theorem ticksOnly_of_turnOfClock {u : State} (h : takeOffers (turnOfClock p go s) u = .next t) : TicksOnly 0 u t := by
  unfold turnOfClock at h
  split at h <;> rw [takeOffers_of_pin] at h <;> simpa using ticksOnly_of_whenPin rfl h

/-- Of a clock the capture sees its two edges and then its tick. -/
theorem clockStep_edges (hr : p.rst = false) (h : clockStep p go s = .next t) :
    ∃ u v w, TicksOnly 0 s u ∧ whenPin (p.refIn && !s.refPrev) (takeOffer .refEdge) u = .next v ∧
      whenPin (p.dlyIn && !s.dlyPrev) dlyEdge v = .next w ∧ TicksOnly (if p.tick then 1 else 0) w t := by
  obtain ⟨s1, u, v, w, s5, s6, h1, h2, href, hdly, h5, h6, rfl⟩ := clockStep_steps hr h
  have hcal : TicksOnly 0 s s1 := by simpa using ticksOnly_of_whenPin rfl h1
  have hconv : TicksOnly 0 s1 u := by simpa using ticksOnly_of_whenPin rfl h2
  have htick : TicksOnly (if p.tick then 1 else 0) w s5 := ticksOnly_of_whenPin rfl h5
  have hturn := ticksOnly_of_turnOfClock h6
  exact ⟨u, v, w, hcal.trans hconv, href, hdly, { htick.trans hturn with }⟩

/-- A delayed edge in Timing: the count is in the slot of the cursor, and the timer is stopped with its value kept. -/
theorem dlyEdge_captures (ht : s.ten = true) (h : dlyEdge s = .next t) :
    t.ph.read s.pcur.toNat = some s.tcnt ∧ t.tcnt = s.tcnt ∧ t.ten = false := by
  obtain ⟨hidle, -⟩ | ⟨-, ⟨x, hx⟩, rfl⟩ := dlyEdge_eq_next h
  · rw [ht] at hidle; cases hidle
  · exact ⟨by rw [read_write_same, hx, Option.map_some], rfl, rfl⟩

/-! ## The conversion -/

theorem keepsSequencer_of_whenPin (ho : isEvent o = true) (h : whenPin pin (takeOffer o) s = .next t) :
    KeepsSequencer s t :=
  .of_whenPin (takeOffer_keepsSequencer_of_event ho) h

/-- Only a conversion writes SB and its cursor (10_state.md R13). -/
theorem samples_of_whenPin (h : whenPin pin (takeOffer o) s = .next t) (ho : isEvent o = true)
    (hconv : ∀ v, o ≠ .conv v) : t.sb = s.sb ∧ t.wp = s.wp := by
  obtain ⟨-, h⟩ | ⟨-, rfl⟩ := whenPin_eq_next h
  · have hwrites := (takeOffer_writes_own_items h (by rintro rfl; cases ho) (by rintro _ _ rfl; cases ho)).1
    have hsame := not_or.mp fun hne => (hwrites hne).elim hconv
    exact ⟨not_not.mp hsame.1, not_not.mp hsame.2⟩
  · exact ⟨rfl, rfl⟩

theorem conv_stores {v : Sample} (hrun : s.initst = .running) (h : conv v s = .next t) :
    t.sb.read s.wp.toNat = some (v.zeroExtend 16) := by
  obtain ⟨hn, -⟩ | ⟨-, ⟨x, hx⟩, rfl⟩ := conv_eq_next h
  · exact absurd hrun hn
  · rw [read_write_same, hx, Option.map_some]

/-- At the turn of a clock the slot of the cursor holds the conversion result of the same clock. -/
theorem clockStep_turn_of_conv (hr : p.rst = false) (hrun : s.initst = .running) (hvalid : p.adcValid = true)
    (h : clockStep p go s = .next t) :
    ∃ u v, KeepsSequencer s u ∧ u.sb.read s.wp.toNat = some (p.adcData.zeroExtend 16) ∧
      takeOffers (turnOfClock p go s) u = .next v ∧ t = latchEdges p v := by
  obtain ⟨s1, s2, s3, s4, u, v, h1, h2, h3, h4, h5, hturn, rfl⟩ := clockStep_steps hr h
  have seq1 := keepsSequencer_of_whenPin rfl h1
  have seq : KeepsSequencer s u :=
    seq1.trans ((keepsSequencer_of_whenPin rfl h2).trans ((keepsSequencer_of_whenPin rfl h3).trans
      ((keepsSequencer_of_whenPin rfl h4).trans (keepsSequencer_of_whenPin rfl h5))))
  rw [hvalid] at h2
  have hread := conv_stores (seq1.initst.trans hrun) h2
  refine ⟨u, v, seq, ?_, hturn, rfl⟩
  rw [(samples_of_whenPin h5 rfl nofun).1, (samples_of_whenPin h4 rfl nofun).1, (samples_of_whenPin h3 rfl nofun).1,
    ← (samples_of_whenPin h1 rfl nofun).2]
  exact hread

/-! ## The sequencer's read -/

theorem takeOffers_turn_of_busy {u : State} (hs : s.stage ≠ .idle) (hgo : go = true) :
    takeOffers (turnOfClock p go s) u = seqStep u := by
  rw [turnOfClock, if_neg hs, takeOffers_of_pin, hgo]
  rfl

theorem seqStep_volt_acc {v : Slot} (hs : s.stage = .sum1) (hf : inFlight s = some .volt)
    (hv : channelSlot s.cfg.voltageChannel s = some v) (hidx : s.idx.toNat + 1 < s.cfg.spc)
    (h : seqStep s = .next t) : t.acc = s.acc + v.zeroExtend 32 := by
  rw [seqStep_of_busy (by rw [hs]; nofun) hf, exec_of_slot (i := .volt) (by rw [hs]; rfl) (by rw [hs]; rfl) hv] at h
  rw [sumLen, if_pos hidx] at h
  cases h
  rfl

end

/-- Settles O36: a step is taken (O39), and it is a clock. Its delayed edge captures after its reference edge and before
its tick, and its turn reads after its conversion. -/
theorem coincidentEventsTakeTheFixedOrder : Obligations.CoincidentEventsTakeTheFixedOrder := by
  intro s p go os hinv hr ho
  obtain ⟨t, hstep⟩ := theBlockNeverStops s hinv
  have hclock : clockStep p go { s with offers := os } = .next t := (step_of_offer hinv.cfgOk ho).symm.trans hstep
  obtain ⟨u, v, w, hu, href, hdly, hw⟩ := clockStep_edges hr hclock
  have hpcur : u.pcur = s.pcur := hu.pcur
  have htcnt : u.tcnt = s.tcnt := hu.tcnt_of_zero
  have hten : u.ten = s.ten := hu.ten
  refine ⟨?edges, ?tickAfterRef, ?tickAfterDly, ?conversion⟩
  case edges =>
    intro hp hprev hd hdprev
    simp only [hp, hprev] at href
    simp only [hd, hdprev] at hdly
    cases href
    obtain ⟨hread, -, hstop⟩ := dlyEdge_captures (s := refEdge u) rfl hdly
    refine ⟨t, hstep, ?_, hw.ten.trans hstop⟩
    rw [hw.ph, ← hpcur]
    exact hread
  case tickAfterRef =>
    intro hp hprev hd htick
    have hd : (p.dlyIn && !s.dlyPrev) = false := by obtain h | h := hd <;> simp [h]
    simp only [hp, hprev] at href
    simp only [hd] at hdly
    simp only [htick] at hw
    cases href
    cases hdly
    exact ⟨t, hstep, hw.tcnt, hw.ten⟩
  case tickAfterDly =>
    intro hrun hp hd hdprev _
    have hp : (p.refIn && !s.refPrev) = false := by obtain h | h := hp <;> simp [h]
    simp only [hp] at href
    simp only [hd, hdprev] at hdly
    cases href
    obtain ⟨hread, hkept, hstop⟩ := dlyEdge_captures (hten.trans hrun) hdly
    refine ⟨t, hstep, ?_, ?_⟩
    · rw [hw.ph, ← hpcur, ← htcnt]
      exact hread
    · rw [hw.tcnt, hstop, if_neg Bool.false_ne_true, hkept, htcnt]
  case conversion =>
    intro hrun hvalid hgo hstage hvolt hwp hidx
    obtain ⟨a, b, seq, hread, hturn, rfl⟩ := clockStep_turn_of_conv (s := { s with offers := os }) hr hrun hvalid hclock
    rw [takeOffers_turn_of_busy (by rw [hstage]; nofun) hgo] at hturn
    have hslot : channelSlot a.cfg.voltageChannel a = some (p.adcData.zeroExtend 16) := by
      rw [channelSlot, sbIndex, seq.cfg, seq.idx, ← hread, ← hwp]
    have hacc := seqStep_volt_acc (seq.stage.trans hstage) (by rw [inFlight, seq.op, seq.imm]; exact hvolt) hslot
      (by rw [seq.idx, seq.cfg]; exact hidx) hturn
    refine ⟨_, hstep, hacc.trans ?_⟩
    rw [seq.acc]
    exact congrArg (s.acc + ·) (BitVec.eq_of_toNat_eq (by simp))

end Sys2Proof.Machine
end

section
/-! SUPPORT. Reset (70_reset_and_hazards.md R123, R125): a reset gives the reset state of the configuration, in which
only Issue and a reference edge have an effect. -/

namespace Sys2Proof.Machine

/-- A clock with `rst` is the reset and nothing else. -/
theorem clockStep_of_rst {p : Pins} (hr : p.rst = true) (go : Bool) (s : State) :
    clockStep p go s = .next (resetBlock s) := by
  rw [clockStep, if_pos hr]

/-- Settles O2: either form of reset takes the offer off the list and gives `resetBlock` of the rest. -/
theorem resetRestoresEveryItem : Obligations.ResetRestoresEveryItem := by
  intro s os p go ha hr ho
  obtain ho | ho := ho <;> rw [step_of_offer ha ho]
  · rfl
  · exact clockStep_of_rst hr go { s with offers := os }

theorem tick_of_stopped {s : State} (ht : s.ten = false) : tick s = s := by
  rw [tick, tickEnabled, ht, if_neg Bool.false_ne_true]

theorem calDone_of_not_calibrating {s : State} (hs : s.initst ≠ .calibrating) : calDone s = s := by
  rw [calDone_eq, if_neg fun h => hs h.1]

/-- Settles O3: after reset INITST is UNINIT, the timer is stopped and the block is idle, and each of the five offers
needs one of these otherwise. -/
theorem afterResetOnlyIssueAndEdges : Obligations.AfterResetOnlyIssueAndEdges := by
  intro c v o ha
  refine ⟨fun ho => ?_, step_of_offer (s := { State.resetOf c with offers := [.refEdge] }) ha rfl⟩
  refine (step_of_offer (s := { State.resetOf c with offers := [o] }) ha rfl).trans ?_
  obtain rfl | rfl | rfl | rfl | rfl := ho
  · exact congrArg Host.Outcome.next (calDone_of_not_calibrating (s := State.resetOf c) nofun)
  · exact conv_of_not_running (s := State.resetOf c) nofun
  · exact congrArg Host.Outcome.next (tick_of_stopped (s := State.resetOf c) rfl)
  · exact seqStep_of_idle (s := State.resetOf c) rfl
  · exact dlyEdge_of_idle (s := State.resetOf c) rfl

end Sys2Proof.Machine
end

section
/-! SUPPORT. The invariant of the reachable states (70_reset_and_hazards.md R139): it holds after reset, an event keeps
the sequencer's part of it untouched, and each form of a command's step keeps the units' part untouched. -/

namespace Sys2Proof.Machine

/-! ## Reset -/

/-- A reset gives every slot its reset content, and every register a value within its bounds. -/
theorem inv_resetBlock {s : State} (ha : admitted s.cfg = true) : Inv (resetBlock s) :=
  { (ready_resetBlock ha).slots with
    ccrOk := Nat.zero_le _
    calOk := nofun
    uncalOk := fun _ => rfl
    causeOk := ⟨fun _ => rfl, fun _ => rfl⟩
    codeOk := Nat.zero_le _
    slotsOk := fun j _ hv => .inl ((read_ofValues s.cfg.resetSB j).symm.trans hv)
    waitOk := ⟨nofun, nofun⟩
    idleOk := fun _ => rfl
    flightOk := absurd rfl }

/-- Settles O37: the reset state is what a reset makes of itself. -/
theorem resetMeetsTheInvariant : Obligations.ResetMeetsTheInvariant := fun c ha =>
  inv_resetBlock (s := State.resetOf c) ha

/-! ## Events -/

/-- Every slot of SB holds its reset content or a conversion result (R139). -/
def SamplesOk (s : State) : Prop :=
  ∀ j v, s.sb.read j = some v → s.cfg.resetSB[j]? = some v ∨ v.toNat ≤ 4095

section
variable {i : Instr} {s t : State}

theorem KeepsSequencer.inFlightOk (h : KeepsSequencer s t) (hi : InFlightOk i s) : InFlightOk i t where
  latched := by rw [inFlight, h.op, h.imm]; exact hi.latched
  stageOk := by rw [h.stage]; exact hi.stageOk
  operandOk := by rw [h.cfg]; exact hi.operandOk
  idxOk := by rw [h.stage, h.idx, h.cfg]; exact hi.idxOk
  accOk := by rw [h.stage, h.idx, h.acc, h.cfg]; exact hi.accOk
  ft0Ok := by rw [h.stage, h.ft0, h.cfg]; exact hi.ft0Ok

/-- An event leaves the sequencer's part of the invariant alone; what it may write is the rest. -/
theorem KeepsSequencer.inv (h : KeepsSequencer s t) (hs : Inv s) (hslots : SlotsReady t) (hsamples : SamplesOk t)
    (hrun : s.initst = .running → t.calRdy = true) (huninit : s.initst = .uninit → t.calRdy = false) : Inv t :=
  { hslots with
    ccrOk := by rw [h.ccr]; exact hs.ccrOk
    calOk := by rw [h.initst]; exact hrun
    uncalOk := by rw [h.initst]; exact huninit
    causeOk := by rw [h.fcause, h.fault]; exact hs.causeOk
    codeOk := by rw [h.fcause]; exact hs.codeOk
    slotsOk := hsamples
    waitOk := by rw [h.initst, h.stage]; exact hs.waitOk
    idleOk := by rw [h.stage, h.idx]; exact hs.idleOk
    flightOk := fun hb => (hs.flightOk (h.stage ▸ hb)).imp fun _ => h.inFlightOk }

/-- CalDone comes while INITST is CALIBRATING only (40_acquisition.md R64). -/
theorem Inv.calDone (hs : Inv s) : Inv (calDone s) := by
  refine (KeepsSequencer.of_calDone s).inv hs hs.ready.slots.calDone ?samples ?run ?uninit
  case samples => rw [SamplesOk, calDone_sb, calDone_cfg]; exact hs.slotsOk
  case run => exact fun hr => by rw [calDone_of_not_calibrating (by rw [hr]; nofun)]; exact hs.calOk hr
  case uninit => exact fun hu => by rw [calDone_of_not_calibrating (by rw [hu]; nofun)]; exact hs.uncalOk hu

/-- A conversion result is 12 bits wide (40_acquisition.md R65). -/
theorem samplesOk_converted (v : Sample) (hs : Inv s) : SamplesOk (converted v s) := by
  intro j x hx
  by_cases hj : j = s.wp.toNat
  · subst hj
    obtain rfl := Option.some.inj ((read_converted_same hs.sbOk hs.wpOk).symm.trans hx)
    have hv := v.isLt
    rw [BitVec.zeroExtend, BitVec.toNat_setWidth]
    omega
  · exact hs.slotsOk j x ((read_converted_other hj).symm.trans hx)

theorem Inv.conv {v : Sample} (hs : Inv s) (h : conv v s = .next t) : Inv t := by
  have hseq := KeepsSequencer.of_conv h
  have hslots := hs.ready.slots.conv h
  obtain ⟨-, rfl⟩ | ⟨-, -, rfl⟩ := conv_eq_next h
  · exact hs
  · exact hseq.inv hs hslots (samplesOk_converted v hs) hs.calOk hs.uncalOk

theorem Inv.dlyEdge (hs : Inv s) (h : dlyEdge s = .next t) : Inv t := by
  have hseq := KeepsSequencer.of_dlyEdge h
  have hslots := hs.ready.slots.dlyEdge h
  obtain ⟨-, rfl⟩ | ⟨-, -, rfl⟩ := dlyEdge_eq_next h <;>
    exact hseq.inv hs hslots hs.slotsOk hs.calOk hs.uncalOk

theorem Inv.tick (hs : Inv s) : Inv (tick s) := by
  rw [tick_eq]
  exact KeepsSequencer.inv (by constructor <;> rfl) hs { hs.ready.slots with } hs.slotsOk hs.calOk hs.uncalOk

end

/-! ## A turn of the sequencer or the host -/

theorem clamp_le (d : Int) : clamp d ≤ 1000 := by
  obtain hneg | hnonneg := lt_or_ge d 0
  · exact (clamp_of_neg hneg).trans_le (Nat.zero_le _)
  · obtain ⟨n, rfl⟩ := Int.eq_ofNat_of_zero_le hnonneg
    obtain hle | hgt := le_or_gt n 1000
    · exact (clamp_natCast hle).trans_le hle
    · exact (clamp_of_gt (by omega)).le

section
variable {i : Instr} {s t : State}

/-- What the invariant says of the fault record (60_exceptions.md R107). -/
structure FaultRecordOk (s : State) : Prop where
  causeOk : s.fcause = 0#3 ↔ s.fault = false
  codeOk : s.fcause.toNat ≤ 4

/-- IllegalCommand records the first cause, with the flag (60_exceptions.md R106). -/
theorem raiseIllegal_faultRecordOk {c : BitVec 3} (hs : Inv s) (hc : c ≠ 0#3 ∧ c.toNat ≤ 4) :
    FaultRecordOk (raiseIllegal c s) := by
  obtain ⟨hne, hle⟩ := hc
  by_cases hf : s.fault = true
  · have hkeep : (raiseIllegal c s).fcause = s.fcause := (raiseIllegal_keeps_fault c hf).2
    exact ⟨by rw [hkeep, raiseIllegal_fault, ← hf]; exact hs.causeOk, hkeep ▸ hs.codeOk⟩
  · have hfirst : (raiseIllegal c s).fcause = c := if_neg hf
    exact ⟨iff_of_false (by rwa [hfirst]) nofun, by rwa [hfirst]⟩

theorem causeOf_is_code (e : DecodeError) : causeOf e ≠ 0#3 ∧ (causeOf e).toNat ≤ 4 := by
  cases e <;> decide

theorem CommandStep.faultRecordOk (h : CommandStep i s t) (hs : Inv s) : FaultRecordOk t := by
  cases h with
  | illegal _ _ hc =>
    refine raiseIllegal_faultRecordOk hs ?_
    obtain ⟨-, -, rfl⟩ | ⟨-, rfl⟩ := hc <;> decide
  | _ => exact ⟨hs.causeOk, hs.codeOk⟩

/-- CCR is written by the clamped duty only (43_actuation.md R99). -/
theorem CommandStep.ccr_le (h : CommandStep i s t) (hs : s.ccr.toNat ≤ 1000) : t.ccr.toNat ≤ 1000 := by
  cases h with
  | programs d =>
    rw [program_ccr, BitVec.toNat_ofNat]
    exact (Nat.mod_le _ _).trans (clamp_le d)
  | _ => exact hs

/-- What the invariant says of the calibration (40_acquisition.md R63, R64). -/
structure CalibrationOk (s : State) : Prop where
  calOk : s.initst = .running → s.calRdy = true
  uncalOk : s.initst = .uninit → s.calRdy = false
  waitOk : s.initst = .calibrating ↔ s.stage = .waitcal

theorem Inv.calibrationOk (hs : Inv s) : CalibrationOk s := ⟨hs.calOk, hs.uncalOk, hs.waitOk⟩

/-- INIT alone moves INITST: to CALIBRATING when it enters WAITCAL, and to RUNNING when it leaves it with the ready flag
(40_acquisition.md R63). -/
theorem CommandStep.calibrationOk (h : CommandStep i s t) (hs : CalibrationOk s) : CalibrationOk t := by
  have elsewhere (hst : s.stage ≠ .waitcal) (htt : t.stage ≠ .waitcal) (hkeep : t.initst = s.initst) :
      CalibrationOk t := by
    constructor <;> rw [hkeep]
    · exact h.keepsUnits.calRdy ▸ hs.calOk
    · exact h.keepsUnits.calRdy ▸ hs.uncalOk
    · exact iff_of_false (hst ∘ hs.waitOk.mp) htt
  cases h with
  | initStarts => exact ⟨nofun, nofun, iff_of_true rfl rfl⟩
  | calibrated _ _ hr => exact ⟨fun _ => hr, nofun, iff_of_false nofun nofun⟩
  | illegal | waits | sums => exact { hs with }
  | starts _ hst => exact elsewhere (by rw [hst]; nofun) (by rw [issue_stage]; split <;> nofun) rfl
  | firstSumEnds _ hst | completes _ hst | programs _ hst => exact elsewhere (by rw [hst]; nofun) nofun rfl
  | sumEnds _ hsum => exact elsewhere (fun hw => by rw [hw] at hsum; cases hsum) nofun rfl

/-- Outside a loop IDX is 0 (40_acquisition.md R62). -/
theorem CommandStep.idx_eq_zero (h : CommandStep i s t) (hs : summing s.stage = false → s.idx = 0#16)
    (ht : summing t.stage = false) : t.idx = 0#16 := by
  cases h with
  | initStarts | starts | sumEnds | firstSumEnds => rfl
  | illegal | waits => exact hs ht
  | sums _ hsum => rw [hsum] at ht; cases ht
  | calibrated _ hst | completes _ hst | programs _ hst => exact hs (by rw [hst]; rfl)

/-- The bounds of a sum in progress that hold of every command: the slots are any 16-bit values. -/
theorem InFlightOk.sumBounds (hi : InFlightOk i s) : SumBounds (fun _ _ _ => False) 0 0 i s :=
  ⟨fun hs => by simpa [hs] using hi.idxOk, hi.accOk, nofun⟩

theorem InFlightOk.flying (hi : InFlightOk i s) : Flying i s :=
  ⟨hi.latched, hi.stageOk, hi.operandOk, hi.sumBounds.idxOk⟩

/-- ACC stays within the slots read. -/
theorem CommandStep.acc_le (h : CommandStep i s t) (ha : admitted s.cfg = true)
    (hi : s.stage ≠ .idle → InFlightOk i s) (hbusy : t.stage ≠ .idle) (hf : inFlight t = some i) :
    t.acc.toNat ≤ slotsRead i t * 65535 := by
  have hs : SumBounded (fun _ _ _ => False) 0 0 s := fun j hb hj => by
    obtain rfl : i = j := Option.some.inj ((hi hb).latched.symm.trans hj)
    exact (hi hb).sumBounds
  exact (h.sumBounded ha (fun _ _ _ _ _ => id) (fun _ _ => nofun) (fun hb => (hi hb).latched) hs i hbusy hf).accOk

/-- FT0 takes the voltage of the first loop's sum of POWR and keeps it (42_measurement.md R91). -/
theorem CommandStep.ft0_voltage (h : CommandStep i s t) (ha : admitted s.cfg = true)
    (hi : s.stage ≠ .idle → InFlightOk i s) (hbusy : t.stage ≠ .idle) (hp : i = .powr) (ht : t.stage ≠ .sum1) :
    ∃ sum : Word, sum.toNat ≤ s.cfg.spc * 65535 ∧ t.ft0 = volts s.cfg sum := by
  subst hp
  cases h with
  | initStarts hinit | waits hinit | calibrated hinit => cases hinit
  | starts => exact absurd rfl ht
  | illegal _ hst => exact absurd hst hbusy
  | completes | programs => exact absurd rfl hbusy
  | sums _ hsum => exact (hi (ne_idle_of_summing hsum)).ft0Ok rfl ht
  | sumEnds _ hsum _ _ _ hfirst => exact (hi (ne_idle_of_summing hsum)).ft0Ok rfl fun hst => hfirst ⟨rfl, hst⟩
  | firstSumEnds v hst =>
    have hsum : summing s.stage = true := by rw [hst]; rfl
    have hb := (hi (ne_idle_of_summing hsum)).sumBounds
    have hidx : s.idx.toNat + 1 ≤ s.cfg.spc := hb.idxOk hsum
    have hacc := (hb.add_slot ha hsum (v := v) nofun).1
    exact ⟨s.acc + v.zeroExtend 32, hacc.trans (Nat.mul_le_mul_right _ hidx), rfl⟩

/-- A command's step leaves the block idle or the command in flight with its sum and its voltage in order. -/
theorem CommandStep.inFlightOk (h : CommandStep i s t) (hs : Inv s) (hi : s.stage ≠ .idle → InFlightOk i s)
    (hidx : summing t.stage = false → t.idx = 0#16) (hbusy : t.stage ≠ .idle) : InFlightOk i t := by
  have hfly := h.flying hs.cfgOk (fun hb => (hi hb).flying) hbusy
  refine ⟨hfly.latched, hfly.stageOk, hfly.operandOk, ?idx, h.acc_le hs.cfgOk hi hbusy hfly.latched, ?ft0⟩
  case idx =>
    cases hsum : summing t.stage with
    | true => exact hfly.idxOk hsum
    | false => exact hidx hsum
  case ft0 =>
    rw [h.keeps_cfg]
    exact h.ft0_voltage hs.cfgOk hi hbusy

/-- In a state of the invariant IDX is 0 outside a loop. -/
theorem Inv.idx_eq_zero (hs : Inv s) (hsum : summing s.stage = false) : s.idx = 0#16 := by
  by_cases hst : s.stage = .idle
  · exact hs.idleOk hst
  · obtain ⟨i, hi⟩ := hs.flightOk hst
    simpa [hsum] using hi.idxOk

/-- Each form of a command's step keeps the invariant. -/
theorem Inv.commandStep (hs : Inv s) (h : CommandStep i s t) (hi : s.stage ≠ .idle → InFlightOk i s) : Inv t := by
  have hunits := h.keepsUnits
  have hidx := h.idx_eq_zero hs.idx_eq_zero
  exact
    { hunits.slotsReady hs.ready.slots, h.calibrationOk hs.calibrationOk, h.faultRecordOk hs with
      ccrOk := h.ccr_le hs.ccrOk
      slotsOk := by rw [hunits.sb, hunits.cfg]; exact hs.slotsOk
      idleOk := fun hst => hidx (by rw [hst]; rfl)
      flightOk := fun hb => ⟨i, h.inFlightOk hs hi hidx hb⟩ }

/-- A turn of the sequencer or the host keeps the invariant. -/
theorem Inv.turn (hs : Inv s) (h : Turn s t) : Inv t := by
  cases h with
  | idles => exact hs
  | refuses e hidle =>
    exact { raiseIllegal_faultRecordOk hs (causeOf_is_code e), hs with flightOk := absurd hidle }
  | issues i hidle h => exact hs.commandStep h (absurd hidle)
  | continues i hb hf h =>
    obtain ⟨j, hj⟩ := hs.flightOk hb
    obtain rfl : i = j := Option.some.inj (hf.symm.trans hj.latched)
    exact hs.commandStep h fun _ => hj

end

/-! ## Every step -/

/-- Settles O38: each atomic step of R14 keeps the invariant, so by `step_induction` every step does, a reset and a
whole clock included. -/
theorem everyStepKeepsTheInvariant : Obligations.EveryStepKeepsTheInvariant := by
  intro s t hs h
  refine step_induction (P := Inv) ?offers ?cal ?conv ?ref ?dly ?tick ?latch ?illegal ?issue ?seq ?rst hs h
  case offers =>
    exact fun u os hu => (KeepsSequencer.of_offers u os).inv hu { hu.ready.slots with } hu.slotsOk hu.calOk hu.uncalOk
  case cal => exact fun _ hu => hu.calDone
  case conv => exact fun _ _ _ hu h => hu.conv h
  case ref =>
    exact fun u hu => (KeepsSequencer.of_refEdge u).inv hu { hu.ready.slots with } hu.slotsOk hu.calOk hu.uncalOk
  case dly => exact fun _ _ hu h => hu.dlyEdge h
  case tick => exact fun _ hu => hu.tick
  case latch =>
    exact fun p u hu =>
      (KeepsSequencer.of_latchEdges p u).inv hu { hu.ready.slots with } hu.slotsOk hu.calOk hu.uncalOk
  case illegal => exact fun e u hidle hu => hu.turn (.refuses e hidle)
  case issue => exact fun i _ _ hidle hu h => hu.turn (.issues i hidle (exec_eq_next h))
  case seq => exact fun i _ _ hb hf hu h => hu.turn (.continues i hb hf (exec_eq_next h))
  case rst => exact fun _ hu => inv_resetBlock hu.cfgOk

end Sys2Proof.Machine
end
